-- ==== Sys2Proof/Word.lean ====
section
/-! DEFINITION. The word types of the block: a line level, a byte, a bus word, a colour and a touch conversion, with
the widths that 00_scope.md R9 names (R12, 30_encoding.md R72). Coordinates and error terms are plain `Int` (R12). -/

namespace Sys2Proof

/-- COLOR_BITS, the width of a Color value (00_scope.md R9). -/
abbrev COLOR_BITS : Nat := 16

/-- BUS_WIDTH, the width of the display data bus (00_scope.md R9). -/
abbrev BUS_WIDTH : Nat := 16

/-- TOUCH_BITS, the bits of a touch conversion (00_scope.md R9). -/
abbrev TOUCH_BITS : Nat := 12

/-- A line level, u1 (30_encoding.md R72 `lvl`). -/
abbrev Level := BitVec 1

/-- A byte, u8 (30_encoding.md R72 `byte`). -/
abbrev Byte := BitVec 8

/-- A word of the display bus: a panel register index, a register value or a colour on its way (30_encoding.md R72
`word`, 20_memory.md R52). -/
abbrev Word := BitVec BUS_WIDTH

/-- A Color value (00_scope.md R9). It crosses the display bus as one word (20_memory.md R52), so that COLOR_BITS and
BUS_WIDTH must agree. -/
abbrev Color := BitVec COLOR_BITS

/-- A touch conversion, u12 (30_encoding.md R72 `raw`). -/
abbrev Raw := BitVec TOUCH_BITS

/-- The two input lines of the block (10_state.md R24). -/
inductive InLine where
  /-- T_DOUT, the touch chip's serial data out. -/
  | tDout
  /-- T_PEN, the "touch present" line. -/
  | tPen
  deriving DecidableEq, Repr

end Sys2Proof
end

