-- ==== Sys2Proof/Config.lean ====
section
/-! DEFINITION. The configuration of the block: the parameters the sources fix (00_scope.md R9), the
parameters they leave open (R10), which configurations are valid (R11), and the free values. -/

namespace Sys2Proof

/-! The parameters of R9, each with the value the rule shows. COLOR_BITS, BUS_WIDTH and TOUCH_BITS stand in
Sys2Proof/Word.lean, beside the types whose widths they are. -/

/-- WIDTH, the panel's extent in x (R9). -/
abbrev WIDTH : Nat := 240

/-- HEIGHT, the panel's extent in y (R9). -/
abbrev HEIGHT : Nat := 320

/-- TOUCH_CMD_Y, the command byte of a Y-axis conversion (R9, R75). -/
abbrev TOUCH_CMD_Y : Byte := 0x90#8

/-- TOUCH_CMD_X, the command byte of an X-axis conversion (R9, R75). -/
abbrev TOUCH_CMD_X : Byte := 0xD0#8

/-- GLYPH_COLS, columns of a glyph, one font byte each (R9). -/
abbrev GLYPH_COLS : Nat := 5

/-- GLYPH_ROWS, rows of a glyph, one bit of a column byte each (R9). -/
abbrev GLYPH_ROWS : Nat := 8

/-- FONT_FIRST, the character code of font entry 0 (R9). -/
abbrev FONT_FIRST : Nat := 0x20

/-- PRINT_LO, the lowest code with which a string continues (R9). -/
abbrev PRINT_LO : Nat := 0x20

/-- PRINT_HI, the highest code with which a string continues (R9). -/
abbrev PRINT_HI : Nat := 0x7F

/-- CHAR_ADVANCE, the advance of a string in x for each character, at every scale (R9). -/
abbrev CHAR_ADVANCE : Nat := 6

/-- The default of COORD_BITS (R10, D5), at which a coordinate is the s16 of 30_encoding.md R72. -/
abbrev COORD_BITS_DEFAULT : Nat := 16

/-- AUTOINC, the order in which the panel's cursor advances (R10, 42_display.md R156). -/
inductive AutoInc where
  | xy
  | yx
  deriving DecidableEq, Repr, Inhabited

/-- CAL_X or CAL_Y, a function 0..4095 → Int, as plain data: the default form of 41_touch.md R126, or any other
function written out as its 4096 values (R10, R126 "A model may replace CAL_X and CAL_Y with any other function"). -/
inductive Calibration where
  | linear (off scale : Int)
  | table (values : List Int)
  deriving DecidableEq, Repr, Inhabited

/-- The open parameters (R10). A row marked OPEN there has no normative value. -/
structure Config where
  /-- FONT: `fontCount` entries of 5 bytes. -/
  font : List (List Byte)
  /-- FONT_COUNT. -/
  fontCount : Nat
  /-- SENTINEL. -/
  sentinel : Byte
  /-- SENTINEL_ADVANCES. -/
  sentinelAdvances : Bool
  /-- CAL_X. -/
  calX : Calibration
  /-- CAL_Y. -/
  calY : Calibration
  /-- INIT_SEQ, the panel's opaque (address, value) pairs. -/
  initSeq : List (Word × Word)
  /-- REG_HSA, window horizontal start. -/
  regHsa : Word
  /-- REG_HEA, window horizontal end. -/
  regHea : Word
  /-- REG_VSA, window vertical start. -/
  regVsa : Word
  /-- REG_VEA, window vertical end. -/
  regVea : Word
  /-- REG_GRAM_X, cursor x. -/
  regGramX : Word
  /-- REG_GRAM_Y, cursor y. -/
  regGramY : Word
  /-- REG_GRAM_WRITE, the "begin write" index. -/
  regGramWrite : Word
  /-- AUTOINC. -/
  autoInc : AutoInc
  /-- GLYPH_COL_REVERSED. -/
  glyphColReversed : Bool
  /-- PEN_ACTIVE, the level of T_PEN that counts as "touch present". -/
  penActive : Level
  /-- TOUCH_GAP_CLOCKS. -/
  touchGapClocks : Nat
  /-- T_SETTLE, a duration that no rule uses. -/
  tSettle : Nat
  /-- T_DEBOUNCE, a duration that no rule uses. -/
  tDebounce : Nat
  /-- COLOR_BG, used by the host only. -/
  colorBg : Color
  /-- COLOR_FG, used by the host only. -/
  colorFg : Color
  /-- COORD_BITS, the width of a coordinate operand, signed (log 22; a width of 0 is log 24's). -/
  coordBits : Nat
  deriving DecidableEq, Repr, Inhabited

namespace Config

/-- The seven indices the block knows (42_display.md R140 KNOWN, R144). -/
def knownRegs (c : Config) : List Word :=
  [c.regHsa, c.regHea, c.regVsa, c.regVea, c.regGramX, c.regGramY, c.regGramWrite]

/-- A calibration is usable: a scale that is not 0 (R11), or a value for each of the 4096 raw results (R10). -/
def calibrationValid : Calibration → Bool
  | .linear _ scale => decide (scale ≠ 0)
  | .table values => decide (values.length = 4096)

/-- R11: the seven REG_* indices are pairwise distinct, every FONT entry has exactly 5 bytes, FONT_COUNT ≥ 1, and
the calibration scales are not 0. FONT has FONT_COUNT entries and a table calibration 4096 values by their types
in R10. -/
def valid (c : Config) : Bool :=
  decide c.knownRegs.Nodup
    && c.font.all (fun entry => decide (entry.length = GLYPH_COLS))
    && decide (c.font.length = c.fontCount)
    && decide (1 ≤ c.fontCount)
    && calibrationValid c.calX
    && calibrationValid c.calY

/-- The defaults of R10, put over the parameters that have one. -/
def withDefaults (c : Config) : Config :=
  { c with
    fontCount := 96, autoInc := .xy, glyphColReversed := true, penActive := 0#1, touchGapClocks := 0,
    coordBits := COORD_BITS_DEFAULT }

/-- The specification's own test configuration (95_test_vectors.md "Test configuration"). It is a test value and not
the hardware's: no definition of the machine rests on a value of it. -/
def testConfig : Config where
  font := List.replicate 44 [0, 0, 0, 0, 0] ++ [[0xFF, 0x80, 0x80, 0x80, 0x80]]
    ++ List.replicate 51 [0, 0, 0, 0, 0]
  fontCount := 96
  sentinel := 0x5F
  sentinelAdvances := false
  calX := .linear 200 15
  calY := .linear 300 11
  initSeq := []
  regHsa := 0x50
  regHea := 0x51
  regVsa := 0x52
  regVea := 0x53
  regGramX := 0x20
  regGramY := 0x21
  regGramWrite := 0x22
  autoInc := .xy
  glyphColReversed := true
  penActive := 0
  touchGapClocks := 0
  tSettle := 0
  tDebounce := 0
  colorBg := 0
  colorFg := 0xFFFF
  coordBits := COORD_BITS_DEFAULT

/-- DESIGN CHOICE (log 2): the parameters of the installed hardware, which the sources leave OPEN. It has no
body, so nothing can be proved of any of them. -/
opaque installed : Config

/-- DESIGN CHOICE (log 2): the configuration at reset: the installed parameters with the defaults of R10. An
installation that R11 does not allow is never run (`State.powerOn` refuses it), so the one at reset is a valid
one; where the installed one is not, the test configuration stands in for it. -/
def hardware : Config :=
  (if installed.withDefaults.valid then installed else testConfig).withDefaults

/-- Free value (log 10): the level a sample reads that the environment has not fixed beforehand, by line and by how
many samples were drawn before it (00_scope.md R14 "a draw from the environment; no rule constrains it"). -/
opaque freeSample : InLine → Nat → Level

/-- Free value (log 15): a font byte that an invalid configuration does not hold. -/
opaque freeFontByte : Nat → Nat → Byte

/-- Free value (log 15): the calibrated value under a calibration that an invalid configuration holds. -/
opaque freeCalibration : Calibration → Nat → Int

end Config

end Sys2Proof
end

