-- ==== Sys2Proof/Syntax.lean ====
section
/-! DEFINITION. The instructions of the block, one constructor for each row of spec/opcode_table.json, and the words
in which an interface carries them (30_encoding.md R70 to R75, R80). -/

namespace Sys2Proof

/-- The operations and words of the block, in the order of spec/opcode_table.json. Operands have the types of
30_encoding.md R72: a `coord` is the integer it denotes and a `scale` the number it denotes (their ranges are
`Instr.wellFormed`), every other operand is a bit vector of its width. -/
inductive Instr where
  | busWrcmd (addr : Word)
  | busWrdata (value : Word)
  | busRdbit
  | busSetclk (level : Level)
  | busSetcs (level : Level)
  | busSetdin (level : Level)
  | busRdpen
  | busSettle
  | touchStart
  | touchReadch (cmd : Byte)
  | touchReadpos
  | touchPen
  | touchCal (rx ry : Raw)
  | dispInit
  | dispWrreg (addr value : Word)
  | dispSetwin (x1 y1 x2 y2 : Int)
  | dispWrpix (color : Word)
  | dispFill (color : Word)
  | rastPixel (x y : Int) (color : Word)
  | rastLine (x1 y1 x2 y2 : Int) (color : Word)
  | rastBlock (x y : Int) (color : Word) (scale : Nat)
  | textChar (x y : Int) (scale : Nat) (fg bg : Word) (ch : Byte)
  | textString (x y : Int) (scale : Nat) (fg bg : Word) (text : List Byte)
  | textStrrev (x y : Int) (scale : Nat) (fg bg : Word) (text : List Byte)
  | statRd
  | statClr
  /-- BUSCYC.CMD: the display cycle with RS = 0 (R74). -/
  | buscycCmd (d : Word)
  /-- BUSCYC.DATA: the display cycle with RS = 1 (R74). -/
  | buscycData (d : Word)
  /-- TCMD.Y: the touch command byte 0x90 (R75). -/
  | tcmdY
  /-- TCMD.X: the touch command byte 0xD0 (R75). -/
  | tcmdX
  deriving DecidableEq, Repr

/-- An operand as the host passes it: "a typed value" (R71, R72), before its type is checked. -/
inductive Operand where
  | num (v : Int)
  | text (bytes : List Int)
  deriving DecidableEq, Repr

/-- The operand types of R72. -/
inductive OperandType where
  | lvl
  | byte
  | word
  | coord
  | scale
  | raw
  | text
  deriving DecidableEq, Repr

/-- A word together with the interface that carries it, which is how the decoder knows its format (R70). -/
inductive Packet where
  /-- HOSTOP: the pair (OP, args) of R71. -/
  | hostOp (op : Byte) (args : List Operand)
  /-- BUSCYC: the 17-bit word {RS, DB} of R74. -/
  | busCycle (w : BitVec 17)
  /-- TCMD: the touch command byte of R75. -/
  | touchCommand (b : Byte)
  deriving DecidableEq, Repr

/-- Is it the host's operation, one of those that `k` counts (10_state.md R22)? -/
def Packet.isHostOp : Packet → Bool
  | .hostOp _ _ => true
  | .busCycle _ => false
  | .touchCommand _ => false

end Sys2Proof
end

