-- ==== Sys2Proof/Machine/State.lean ====
section
/-! DEFINITION. The state of the block and its panel as plain data (10_state.md), the reasons an operation can stop
(60_exceptions.md R221, R222) and the state after reset (70_reset_and_hazards.md R241, R242). A field that may hold
the specification's ⊥ (00_scope.md R13) is an `Option`, ⊥ being `none` (log 13). -/

namespace Sys2Proof.Machine

/-- The seven one-bit output lines (10_state.md R23); D_DB is driven as a word. -/
inductive OutLine where
  | dRs
  | dCs
  | dRd
  | dWr
  | tCs
  | tClk
  | tDin
  deriving DecidableEq, Repr

/-- A bus event (00_scope.md R14). -/
inductive Event where
  /-- Drive(L, v) of a one-bit line. -/
  | drive (line : OutLine) (v : Level)
  /-- Drive(D_DB, v). -/
  | driveDb (v : Word)
  /-- Sample(L); the level read is no part of the event (log 11). -/
  | sample (line : InLine)
  /-- Settle(). -/
  | settle
  deriving DecidableEq, Repr

/-- The output lines, each at its last driven value (10_state.md R23). -/
@[ext]
structure Lines where
  dRs : Option Level
  dCs : Option Level
  dRd : Option Level
  dWr : Option Level
  dDb : Option Word
  tCs : Option Level
  tClk : Option Level
  tDin : Option Level
  deriving DecidableEq, Repr

/-- Cells by number, strictly rising; a cell that is not listed is ⊥ (log 14). -/
abbrev Memory := List (Nat × Word)

/-- The panel (10_state.md R29). P.HSA, P.HEA, P.VSA and P.VEA are views of `reg` (R30). -/
@[ext]
structure Panel where
  /-- P.IR. -/
  ir : Option Word
  /-- P.REG, by register index. -/
  reg : Memory
  /-- P.CX. -/
  cx : Option Nat
  /-- P.CY. -/
  cy : Option Nat
  /-- P.GRAM, by cell number (`cellNumber`). -/
  gram : Memory
  deriving DecidableEq, Repr

/-- The environment's side of the input lines (10_state.md R24), the model's own fields (log 10). -/
@[ext]
structure Env where
  /-- The levels T_DOUT will present at its next samples, as far as they are fixed. -/
  dout : List Level
  /-- The levels T_PEN will present at its next samples, as far as they are fixed. -/
  pen : List Level
  /-- How many samples have been drawn. -/
  draws : Nat
  deriving DecidableEq, Repr

/-- What `return v` hands to the host (00_scope.md R15), by the result types of 30_encoding.md R80. -/
inductive Value where
  | lvl (b : Level)
  | byte (b : Byte)
  | raw (v : Raw)
  | rawPair (rx ry : Raw)
  | intPair (sx sy : Int)
  deriving DecidableEq, Repr

/-- S.fault: a fault kind with what 60_exceptions.md R221 records for it. `k` is the operation's index
(10_state.md R22). DESIGN CHOICE (log 23): a bare BUSCYC.DATA or TCMD word is no host operation, and its fault records
the `k` the block stands at, the index of the next host operation. -/
inductive FaultRecord where
  /-- 0x10: DISP.SETWIN with a window that is inverted or off the panel (R141). -/
  | windowInvalid (k : Nat) (x1 y1 x2 y2 : Int)
  /-- 0x11: DISP.WRPIX while P.IR is not REG_GRAM_WRITE (R142). -/
  | notInWriteMode (k : Nat) (ir : Option Word)
  /-- 0x12: a data cycle while P.IR is ⊥ (R152). -/
  | indexUnset (k : Nat) (value : Word)
  /-- 0x13: a data cycle to a window or cursor register with an off-panel value (R153, R154). -/
  | panelValueRange (k : Nat) (ir : Word) (value : Word)
  /-- 0x14: a pixel write without a valid window and cursor (R157). -/
  | pixelOutsideWindow (k : Nat) (hsa hea vsa vea : Option Nat) (cx cy : Option Nat)
  /-- 0x15: TOUCH.READCH while T_CS is not 0 (R121). -/
  | touchNotSelected (k : Nat)
  /-- 0x16: TOUCH.READCH or TOUCH.READPOS while T_CLK is not 0 (R121, R123). -/
  | touchClockState (k : Nat)
  deriving DecidableEq, Repr

/-- S.refused: the reason of a refusal (60_exceptions.md R222). -/
inductive RefusalReason where
  /-- 0x20: the selector is reserved (R73). -/
  | illegalOp
  /-- 0x21: an operand does not fit its type (R72). -/
  | operandType
  /-- 0x22: a DISP.* (except DISP.INIT), RAST.* or TEXT.* operation before DISP.INIT (R27). -/
  | panelNotInitialised
  /-- 0x23: a touch command byte other than 0x90 and 0xD0 (R121). -/
  | touchCommand
  /-- 0x24: a write to a configuration register outside DISP.INIT (R140, R158). -/
  | opaqueRegister
  /-- 0x25: the configuration breaks R11. -/
  | configInvalid
  deriving DecidableEq, Repr

/-- The block and its panel. The model's own fields are `cfg`, `pending`, `returned` and `env` (INVENTORY.md). -/
@[ext]
structure State where
  /-- The configuration, which no operation writes (10_state.md R32, log 1). -/
  cfg : Config
  /-- The words presented to the block and not yet run, the next one first (log 5). -/
  pending : List Packet
  /-- k, the index of the next host operation (10_state.md R22). -/
  k : Nat
  /-- The output lines (10_state.md R23). -/
  lines : Lines
  /-- STATUS (10_state.md R25). -/
  status : Byte
  /-- S.fault (10_state.md R26). -/
  fault : Option FaultRecord
  /-- S.refused (10_state.md R26). -/
  refused : Option RefusalReason
  /-- S.initDone (10_state.md R27). -/
  initDone : Bool
  /-- S.events, newest first (10_state.md R28, log 11). -/
  events : List Event
  /-- The panel, P (10_state.md R29). -/
  panel : Panel
  /-- The last value handed to the host (log 12). -/
  returned : Option Value
  /-- The environment (log 10). -/
  env : Env
  deriving DecidableEq, Repr

/-- The faults of 60_exceptions.md R221, each with the faulted state: S.fault is set in it and the effects before
the fault point are kept (R220, log 9). Every one is SAFE where the hardware would go on: the source gives these
cases no meaning, and no claim that the program completes holds of a faulted run (R220 "They err toward
unprovable"). -/
inductive Fault where
  /-- Raised by DISP.SETWIN (R141); safe. -/
  | windowInvalid (after : State)
  /-- Raised by DISP.WRPIX (R142); safe. -/
  | notInWriteMode (after : State)
  /-- Raised by a data cycle (R152); safe. -/
  | indexUnset (after : State)
  /-- Raised by a data cycle to a window or cursor register (R153, R154); safe. -/
  | panelValueRange (after : State)
  /-- Raised by a pixel write (R155, R157); safe. -/
  | pixelOutsideWindow (after : State)
  /-- Raised by TOUCH.READCH and a touch command byte (R121); safe. -/
  | touchNotSelected (after : State)
  /-- Raised by TOUCH.READCH, TOUCH.READPOS and a touch command byte (R121, R123); safe. -/
  | touchClockState (after : State)
  deriving DecidableEq, Repr

/-- The refusals of 60_exceptions.md R222, each with the refused state: S.refused is set in it and nothing else has
changed (R220, log 9). Every one is SAFE: the model gives no meaning where the hardware may have one. -/
inductive Refusal where
  /-- No meaning for the instruction in this model; raised by no arm of a complete `exec`; safe. -/
  | notModelled (mnemonic : String)
  /-- Raised by `step` on a reserved selector (R73); safe. -/
  | illegalOp (after : State)
  /-- Raised by `step` on an operand that does not fit its type (R72); safe. -/
  | operandType (after : State)
  /-- Raised by DISP.* (except DISP.INIT), RAST.* and TEXT.* before DISP.INIT (R27); safe. -/
  | panelNotInitialised (after : State)
  /-- Raised by TOUCH.READCH (R121) and by `step` on another touch command byte (R76); safe. -/
  | touchCommand (after : State)
  /-- Raised by DISP.WRREG and data cycles to a configuration register outside DISP.INIT (R140, R158); safe. -/
  | opaqueRegister (after : State)
  /-- Raised by `step` after a power-on with a configuration that breaks R11; safe. -/
  | configInvalid (after : State)
  deriving DecidableEq, Repr

/-- Every output line ⊥ (R241). -/
def Lines.unset : Lines :=
  { dRs := none, dCs := none, dRd := none, dWr := none, dDb := none, tCs := none, tClk := none, tDin := none }

/-- Every panel field ⊥ (R242). -/
def Panel.unset : Panel := { ir := none, reg := [], cx := none, cy := none, gram := [] }

/-- The state after power-on with a valid configuration (R241, R242); the block waits for the host's first
operation (R243). -/
def State.blank (c : Config) : State :=
  { cfg := c, pending := [], k := 0, lines := Lines.unset, status := 0x00, fault := none, refused := none,
    initDone := false, events := [], panel := Panel.unset, returned := none,
    env := { dout := [], pen := [], draws := 0 } }

/-- Power-on begins a run (R240). A configuration that breaks R11 is refused ConfigInvalid, "checked once, before
the first operation" (R222, R227 step 1, log 3). -/
def State.powerOn (c : Config) : State :=
  if c.valid then State.blank c else { State.blank c with refused := some .configInvalid }

/-- The machine right after reset: power-on of the installed hardware, whose configuration is valid
(`reset_eq_powerOn`). -/
def State.reset : State := State.blank Config.hardware

end Sys2Proof.Machine
end

