-- ==== Sys2Proof/Machine/Memory.lean ====
section
/-! DEFINITION. The two 16-bit spaces the block writes, GRAM and the panel's registers (20_memory.md R50), as lists of
(cell, value) in one canonical form (log 14). Every access moves one whole cell (R55). -/

namespace Sys2Proof.Machine

/-- The cell's value, or ⊥ where nothing has written it since reset (70_reset_and_hazards.md R242). -/
def Memory.read : Memory → Nat → Option Word
  | [], _ => none
  | (n, v) :: rest, a => if a = n then some v else Memory.read rest a

/-- The memory with cell `a` holding `v`. -/
def Memory.write (a : Nat) (v : Word) : Memory → Memory
  | [] => [(a, v)]
  | (n, w) :: rest =>
    if a < n then (a, v) :: (n, w) :: rest
    else if a = n then (a, v) :: rest
    else (n, w) :: Memory.write a v rest

/-- The cells from `lo` on are listed in strictly rising order. -/
def Memory.risesFrom : Nat → Memory → Bool
  | _, [] => true
  | lo, (n, _) :: rest => decide (lo ≤ n) && Memory.risesFrom (n + 1) rest

/-- The canonical form: cells strictly rising, every one of them below `size`. -/
def Memory.wf (size : Nat) (m : Memory) : Bool :=
  Memory.risesFrom 0 m && m.all fun cell => decide (cell.1 < size)

/-- How many cells GRAM has (R50). -/
abbrev GRAM_SIZE : Nat := WIDTH * HEIGHT

/-- How many panel registers there are (R50). -/
abbrev REG_SIZE : Nat := 65536

/-- The number of the GRAM cell at device (x, yd), the model's own numbering (log 14): the panel's rows from the
last to the first, each from its last column to its first. -/
def cellNumber (x yd : Nat) : Nat := (HEIGHT - 1 - yd) * WIDTH + (WIDTH - 1 - x)

/-- P.GRAM[x][yd] (10_state.md R29). -/
def Panel.gramAt (p : Panel) (x yd : Nat) : Option Word := p.gram.read (cellNumber x yd)

/-- P.REG[a] (10_state.md R29). -/
def Panel.regAt (p : Panel) (a : Word) : Option Word := p.reg.read a.toNat

/-- GramWrite(x, yd, v) (00_scope.md R15). -/
def Panel.gramWrite (x yd : Nat) (v : Word) (p : Panel) : Panel :=
  { p with gram := p.gram.write (cellNumber x yd) v }

/-- P.REG[a] <- v. -/
def Panel.regWrite (a v : Word) (p : Panel) : Panel := { p with reg := p.reg.write a.toNat v }

/-- P.HSA, a view of the register file (10_state.md R30). -/
def State.hsa (s : State) : Option Nat := (s.panel.regAt s.cfg.regHsa).map BitVec.toNat

/-- P.HEA (10_state.md R30). -/
def State.hea (s : State) : Option Nat := (s.panel.regAt s.cfg.regHea).map BitVec.toNat

/-- P.VSA (10_state.md R30). -/
def State.vsa (s : State) : Option Nat := (s.panel.regAt s.cfg.regVsa).map BitVec.toNat

/-- P.VEA (10_state.md R30). -/
def State.vea (s : State) : Option Nat := (s.panel.regAt s.cfg.regVea).map BitVec.toNat

end Sys2Proof.Machine
end

