-- ==== Sys2Proof/Machine/Ops.lean ====
section
/-! DEFINITION. The shared operations: the outcome of an operation (60_exceptions.md R220), raising a fault and
refusing, the bus-event primitives (00_scope.md R14), the display write cycle (40_bus.md R101) and the panel's
reaction to it (42_display.md R150 to R158), and the check for DISP.INIT (10_state.md R27). There is no trap entry
and no trap return on this hardware (60_exceptions.md R228, R229): `raise` is all that a fault does. -/

namespace Sys2Proof.Machine

/-- The outcome of an operation or of a part of one. -/
abbrev Result := Host.Outcome State Fault Refusal

/-- Go on after a part of an operation that completed. -/
def andThen (r : Result) (f : State → Result) : Result :=
  match r with
  | .next s => f s
  | .fault e => .fault e
  | .refused e => .refused e

/-! ## Stopping (R220) -/

/-- The outcome for a fault record and the state it leaves. -/
def Fault.of : FaultRecord → State → Fault
  | .windowInvalid _ _ _ _ _ => .windowInvalid
  | .notInWriteMode _ _ => .notInWriteMode
  | .indexUnset _ _ => .indexUnset
  | .panelValueRange _ _ _ => .panelValueRange
  | .pixelOutsideWindow _ _ _ _ _ _ _ => .pixelOutsideWindow
  | .touchNotSelected _ => .touchNotSelected
  | .touchClockState _ => .touchClockState

/-- The codes of R221. -/
def FaultRecord.code : FaultRecord → Byte
  | .windowInvalid _ _ _ _ _ => 0x10
  | .notInWriteMode _ _ => 0x11
  | .indexUnset _ _ => 0x12
  | .panelValueRange _ _ _ => 0x13
  | .pixelOutsideWindow _ _ _ _ _ _ _ => 0x14
  | .touchNotSelected _ => 0x15
  | .touchClockState _ => 0x16

/-- The outcome for a refusal reason and the state it leaves. -/
def Refusal.of : RefusalReason → State → Refusal
  | .illegalOp => .illegalOp
  | .operandType => .operandType
  | .panelNotInitialised => .panelNotInitialised
  | .touchCommand => .touchCommand
  | .opaqueRegister => .opaqueRegister
  | .configInvalid => .configInvalid

/-- The codes of R222. -/
def RefusalReason.code : RefusalReason → Byte
  | .illegalOp => 0x20
  | .operandType => 0x21
  | .panelNotInitialised => 0x22
  | .touchCommand => 0x23
  | .opaqueRegister => 0x24
  | .configInvalid => 0x25

def State.setFault (r : FaultRecord) (s : State) : State := { s with fault := some r }

def State.setRefused (r : RefusalReason) (s : State) : State := { s with refused := some r }

/-- `raise Fault(k)` (00_scope.md R15, R220): the operation ends here, what it did before stays. -/
def raise (r : FaultRecord) (s : State) : Result := .fault (Fault.of r (s.setFault r))

/-- `refuse(k)` (00_scope.md R15, R220). -/
def refuse (r : RefusalReason) (s : State) : Result := .refused (Refusal.of r (s.setRefused r))

/-- A DISP.*, RAST.* or TEXT.* operation is refused PanelNotInitialised while S.initDone is 0 (10_state.md R27). -/
def whenInitialised (op : State → Result) (s : State) : Result :=
  if s.initDone then op s else refuse .panelNotInitialised s

/-! ## Updates of one field -/

def State.emit (e : Event) (s : State) : State := { s with events := e :: s.events }

def State.setLines (l : Lines) (s : State) : State := { s with lines := l }

def State.setPanel (p : Panel) (s : State) : State := { s with panel := p }

def State.setStatus (b : Byte) (s : State) : State := { s with status := b }

def State.setEnv (e : Env) (s : State) : State := { s with env := e }

def State.setInitDone (b : Bool) (s : State) : State := { s with initDone := b }

/-- `return v` (00_scope.md R15). -/
def State.giveResult (v : Value) (s : State) : State := { s with returned := some v }

/-! ## Bus-event primitives (00_scope.md R14) -/

/-- The lines with one of them at a new level. -/
def Lines.put (l : Lines) : OutLine → Level → Lines
  | .dRs, v => { l with dRs := some v }
  | .dCs, v => { l with dCs := some v }
  | .dRd, v => { l with dRd := some v }
  | .dWr, v => { l with dWr := some v }
  | .tCs, v => { l with tCs := some v }
  | .tClk, v => { l with tClk := some v }
  | .tDin, v => { l with tDin := some v }

/-- Drive(L, v) of a one-bit line. -/
def drive (line : OutLine) (v : Level) (s : State) : State :=
  (s.setLines (s.lines.put line v)).emit (.drive line v)

/-- Drive(D_DB, v). -/
def driveDb (v : Word) (s : State) : State :=
  (s.setLines { s.lines with dDb := some v }).emit (.driveDb v)

/-- Settle(): an event and nothing else. -/
def settle (s : State) : State := s.emit .settle

/-- The level an input line presents, and the environment after it: the level fixed beforehand, or else the free
value of this draw (log 10). -/
def Env.draw (e : Env) : InLine → Level × Env
  | .tDout =>
    match e.dout with
    | b :: bs => (b, { e with dout := bs, draws := e.draws + 1 })
    | [] => (Config.freeSample .tDout e.draws, { e with draws := e.draws + 1 })
  | .tPen =>
    match e.pen with
    | b :: bs => (b, { e with pen := bs, draws := e.draws + 1 })
    | [] => (Config.freeSample .tPen e.draws, { e with draws := e.draws + 1 })

/-- The level that Sample(L) reads. -/
def sampleLevel (line : InLine) (s : State) : Level := (s.env.draw line).1

/-- The state after Sample(L). -/
def sampleAfter (line : InLine) (s : State) : State := (s.setEnv (s.env.draw line).2).emit (.sample line)

/-! ## The panel's reaction (42_display.md R151 to R158) -/

/-- Is it one of the seven indices the block knows (R140 KNOWN)? -/
def isKnownReg (c : Config) (a : Word) : Bool := decide (a ∈ c.knownRegs)

def isWindowReg (c : Config) (a : Word) : Bool :=
  decide (a = c.regHsa ∨ a = c.regHea ∨ a = c.regVsa ∨ a = c.regVea)

def isCursorReg (c : Config) (a : Word) : Bool := decide (a = c.regGramX ∨ a = c.regGramY)

/-- The bound of a window register's values (R153). -/
def windowLimit (c : Config) (a : Word) : Nat := if a = c.regHsa ∨ a = c.regHea then WIDTH else HEIGHT

/-- R151. -/
def panelCommand (v : Word) (s : State) : State := s.setPanel { s.panel with ir := some v }

/-- R153: a window register write; the cursor stays. -/
def windowWrite (a v : Word) (s : State) : Result :=
  if windowLimit s.cfg a ≤ v.toNat then raise (.panelValueRange s.k a v) s
  else .next (s.setPanel (s.panel.regWrite a v))

/-- R154: a cursor register write. -/
def cursorWrite (a v : Word) (s : State) : Result :=
  if a = s.cfg.regGramX then
    if WIDTH ≤ v.toNat then raise (.panelValueRange s.k a v) s
    else .next (s.setPanel { s.panel.regWrite a v with cx := some v.toNat })
  else
    if HEIGHT ≤ v.toNat then raise (.panelValueRange s.k a v) s
    else .next (s.setPanel { s.panel.regWrite a v with cy := some v.toNat })

/-- A window and a cursor, all set. -/
structure Window where
  hsa : Nat
  hea : Nat
  vsa : Nat
  vea : Nat
  cx : Nat
  cy : Nat
  deriving DecidableEq, Repr

/-- The window and the cursor, where all six are not ⊥ (R157). -/
def State.window (s : State) : Option Window :=
  match s.hsa, s.hea, s.vsa, s.vea, s.panel.cx, s.panel.cy with
  | some h0, some h1, some v0, some v1, some x, some y =>
    some { hsa := h0, hea := h1, vsa := v0, vea := v1, cx := x, cy := y }
  | _, _, _, _, _, _ => none

/-- R157: the window is ordered and the cursor is in it. -/
def Window.holdsCursor (w : Window) : Bool :=
  decide (w.hsa ≤ w.hea ∧ w.vsa ≤ w.vea ∧ w.hsa ≤ w.cx ∧ w.cx ≤ w.hea ∧ w.vsa ≤ w.cy ∧ w.cy ≤ w.vea)

/-- R156: the cursor after a pixel write. -/
def Window.advance (w : Window) : AutoInc → Window
  | .xy =>
    if w.cx < w.hea then { w with cx := w.cx + 1 }
    else if w.cy < w.vea then { w with cx := w.hsa, cy := w.cy + 1 }
    else { w with cx := w.hsa, cy := w.vsa }
  | .yx =>
    if w.cy < w.vea then { w with cy := w.cy + 1 }
    else if w.cx < w.hea then { w with cy := w.vsa, cx := w.cx + 1 }
    else { w with cy := w.vsa, cx := w.hsa }

/-- What a pixel write does to the panel (R155): the cell at the cursor, then the cursor. -/
def Panel.pixel (o : AutoInc) (w : Window) (v : Word) (p : Panel) : Panel :=
  { p.gramWrite w.cx w.cy v with cx := some (w.advance o).cx, cy := some (w.advance o).cy }

/-- The fault of R157 with what R221 records. -/
def outsideWindow (s : State) : FaultRecord :=
  .pixelOutsideWindow s.k s.hsa s.hea s.vsa s.vea s.panel.cx s.panel.cy

/-- R155. -/
def pixelWrite (v : Word) (s : State) : Result :=
  match s.window with
  | some w =>
    if w.holdsCursor then .next (s.setPanel (s.panel.pixel s.cfg.autoInc w v))
    else raise (outsideWindow s) s
  | none => raise (outsideWindow s) s

/-- R158: a configuration register is written inside DISP.INIT, and refused outside it. -/
def configWrite (inInit : Bool) (a v : Word) (s : State) : Result :=
  if inInit then .next (s.setPanel (s.panel.regWrite a v)) else refuse .opaqueRegister s

/-- R152: a data cycle, by the index register. -/
def panelData (inInit : Bool) (v : Word) (s : State) : Result :=
  match s.panel.ir with
  | none => raise (.indexUnset s.k v) s
  | some a =>
    if a = s.cfg.regGramWrite then pixelWrite v s
    else if isWindowReg s.cfg a then windowWrite a v s
    else if isCursorReg s.cfg a then cursorWrite a v s
    else configWrite inInit a v s

/-- PanelCycle(rs, v) (R150). -/
def panelCycle (inInit : Bool) (rs : Level) (v : Word) (s : State) : Result :=
  if rs = 0#1 then .next (panelCommand v s) else panelData inInit v s

/-- R150: what the panel latches when one drive turns the lines `before` into `after`: register-select and the data
bus, at the rising edge of D_WR while D_CS is 0 and D_RD is 1. -/
def latched (before after : Lines) : Option (Level × Word) :=
  if before.dWr = some 0#1 ∧ after.dWr = some 1#1 ∧ after.dCs = some 0#1 ∧ after.dRd = some 1#1 then
    match after.dRs, after.dDb with
    | some rs, some v => some (rs, v)
    | _, _ => none
  else none

/-- The first five events of a cycle (40_bus.md R101): D_WR is low. -/
def cycleLow (rs : Level) (v : Word) (s : State) : State :=
  drive .dWr 0#1 (driveDb v (drive .dCs 0#1 (drive .dRs rs (drive .dRd 1#1 s))))

/-- The display write cycle Cycle(rs, v) (40_bus.md R101): seven events, and the panel's reaction to the words it
latched at the sixth (42_display.md R150). DEDUCED (log 8): the seventh event is emitted also where the reaction
faults. -/
def cycle (inInit : Bool) (rs : Level) (v : Word) (s : State) : Result :=
  let low := cycleLow rs v s
  let high := drive .dWr 1#1 low
  let done := drive .dCs 1#1 high
  match latched low.lines high.lines with
  | some (rs', v') => panelCycle inInit rs' v' done
  | none => .next done

/-- A data cycle that the host or the bus asks for: refused OpaqueRegister before its first event when P.IR holds a
configuration register (60_exceptions.md R227 step 4, 42_display.md R158). -/
def dataCycle (v : Word) (s : State) : Result :=
  match s.panel.ir with
  | some a => if isKnownReg s.cfg a then cycle false 1#1 v s else refuse .opaqueRegister s
  | none => cycle false 1#1 v s

/-! ## The display operations that others are built from (42_display.md R140 to R143) -/

/-- The two cycles of DISP.WRREG (R140). -/
def writeReg (inInit : Bool) (a v : Word) (s : State) : Result :=
  andThen (cycle inInit 0#1 a s) (cycle inInit 1#1 v)

/-- The pairs of INIT_SEQ, in order (R145). -/
def sendInit : List (Word × Word) → State → Result
  | [], s => .next s
  | (a, v) :: rest, s => andThen (writeReg true a v s) (sendInit rest)

/-- A coordinate on its way to a panel register; exact for every coordinate on the panel. -/
def coordWord (x : Int) : Word := BitVec.ofInt BUS_WIDTH x

/-- The window is ordered and on the panel (R141). -/
def windowOnPanel (x1 y1 x2 y2 : Int) : Bool :=
  decide (0 ≤ x1 ∧ x1 ≤ x2 ∧ x2 ≤ (WIDTH : Int) - 1 ∧ 0 ≤ y1 ∧ y1 ≤ y2 ∧ y2 ≤ (HEIGHT : Int) - 1)

/-- setWindow (R141). -/
def setWindow (x1 y1 x2 y2 : Int) (s : State) : Result :=
  if windowOnPanel x1 y1 x2 y2 then
    andThen (writeReg false s.cfg.regHsa (coordWord x1) s) fun s =>
    andThen (writeReg false s.cfg.regHea (coordWord x2) s) fun s =>
    andThen (writeReg false s.cfg.regVsa (coordWord y1) s) fun s =>
    andThen (writeReg false s.cfg.regVea (coordWord y2) s) fun s =>
    andThen (writeReg false s.cfg.regGramX (coordWord x1) s) fun s =>
    andThen (writeReg false s.cfg.regGramY (coordWord y1) s) fun s =>
    cycle false 0#1 s.cfg.regGramWrite s
  else raise (.windowInvalid s.k x1 y1 x2 y2) s

/-- writePixel (R142). -/
def writePixel (color : Color) (s : State) : Result :=
  if s.panel.ir = some s.cfg.regGramWrite then cycle false 1#1 color s
  else raise (.notInWriteMode s.k s.panel.ir) s

/-- `n` times writePixel of one colour (R143). -/
def repeatPixel (color : Color) : Nat → State → Result
  | 0, s => .next s
  | n + 1, s => andThen (writePixel color s) (repeatPixel color n)

/-! ## Drawing pixels (43_raster.md R170, R171) -/

/-- One call of RAST.PIXEL, in logical coordinates. -/
structure Dot where
  x : Int
  y : Int
  color : Color
  deriving DecidableEq, Repr

/-- R170: in bounds. -/
def inBounds (x y : Int) : Bool :=
  decide (0 ≤ x ∧ x ≤ (WIDTH : Int) - 1 ∧ 0 ≤ y ∧ y ≤ (HEIGHT : Int) - 1)

/-- R170: the device row of a logical row. -/
def deviceRow (y : Int) : Int := (HEIGHT : Int) - 1 - y

/-- drawPixel (R171): nothing at all out of bounds; in bounds a one-cell window and one pixel. -/
def drawDot (d : Dot) (s : State) : Result :=
  if inBounds d.x d.y then
    andThen (setWindow d.x (deviceRow d.y) d.x (deviceRow d.y) s) (writePixel d.color)
  else .next s

/-- Calls of RAST.PIXEL in order. Every rasterizer and text operation draws through this (R170). -/
def drawDots : List Dot → State → Result
  | [], s => .next s
  | d :: ds, s => andThen (drawDot d s) (drawDots ds)

end Sys2Proof.Machine
end

