-- ==== Sys2Proof/Machine/Operands.lean ====
section
/-! DEFINITION. What an operation makes of its operands and of the configuration before it touches the bus: the
calibration of a raw result (41_touch.md R125, R126), the points of a line and of a block (43_raster.md R172,
R174), the glyph of a character (44_text.md R190, R191) and the printable part of a text (R193, R194). Coordinates
are exact integers (00_scope.md R12). -/

namespace Sys2Proof.Machine

/-- CAL_X or CAL_Y of a raw result, zero-extended (R126); division truncates toward zero (00_scope.md R12 tdiv). The
two free values stand where the configuration breaks R11 (log 15). -/
def calibrate (c : Calibration) (r : Raw) : Int :=
  match c with
  | .linear off scale =>
    if scale = 0 then Config.freeCalibration c r.toNat else Int.tdiv ((r.toNat : Int) - off) scale
  | .table values => values.getD r.toNat (Config.freeCalibration c r.toNat)

/-! ## Lines (R172) -/

/-- A line's endpoints. -/
structure Segment where
  x1 : Int
  y1 : Int
  x2 : Int
  y2 : Int
  deriving DecidableEq, Repr

def Segment.swap (g : Segment) : Segment := { x1 := g.x2, y1 := g.y2, x2 := g.x1, y2 := g.y1 }

/-- |x2 − x1|. -/
def Segment.dx (g : Segment) : Nat := (g.x2 - g.x1).natAbs

/-- |y2 − y1|. -/
def Segment.dy (g : Segment) : Nat := (g.y2 - g.y1).natAbs

/-- The canonical order: an x-major line from left to right, a y-major line upward in logical y. -/
def Segment.canonical (g : Segment) : Segment :=
  if g.dy ≤ g.dx then if g.x1 > g.x2 then g.swap else g
  else if g.y1 > g.y2 then g.swap else g

/-- +1 or −1, toward `b`. -/
def stepSign (a b : Int) : Int := if a ≤ b then 1 else -1

/-- The loop of R172 with the major axis first: `n` points from (major, minor), the error term `e`. -/
def walk (dMajor dMinor stepMajor stepMinor : Int) : Nat → Int → Int → Int → List (Int × Int)
  | 0, _, _, _ => []
  | n + 1, major, minor, e =>
    (major, minor) ::
      (if e > 0 then
        walk dMajor dMinor stepMajor stepMinor n (major + stepMajor) (minor + stepMinor) (e - 2 * dMajor + 2 * dMinor)
      else walk dMajor dMinor stepMajor stepMinor n (major + stepMajor) minor (e + 2 * dMinor))

/-- The points of a canonical segment, in the order of their RAST.PIXEL calls (R172). -/
def Segment.walkPoints (g : Segment) : List (Int × Int) :=
  if g.dy ≤ g.dx then
    walk g.dx g.dy (stepSign g.x1 g.x2) (stepSign g.y1 g.y2) (g.dx + 1) g.x1 g.y1 (2 * g.dy - g.dx)
  else
    (walk g.dy g.dx (stepSign g.y1 g.y2) (stepSign g.x1 g.x2) (g.dy + 1) g.y1 g.x1 (2 * g.dx - g.dy)).map
      fun p => (p.2, p.1)

/-- The points of RAST.LINE (R172). -/
def linePoints (x1 y1 x2 y2 : Int) : List (Int × Int) :=
  (Segment.canonical { x1 := x1, y1 := y1, x2 := x2, y2 := y2 }).walkPoints

def dotsOf (color : Color) (points : List (Int × Int)) : List Dot :=
  points.map fun p => { x := p.1, y := p.2, color := color }

/-! ## Blocks (R174) -/

/-- The points of RAST.BLOCK: rows, and in a row columns, both rising. -/
def blockPoints (x y : Int) (scale : Nat) : List (Int × Int) :=
  (List.range scale).flatMap fun (j : Nat) =>
    (List.range scale).map fun (i : Nat) => (x + (i : Int), y + (j : Int))

def blockDots (x y : Int) (color : Color) (scale : Nat) : List Dot := dotsOf color (blockPoints x y scale)

/-! ## Glyphs (R190 to R192) -/

/-- R190: is the character in the font? -/
def inFont (c : Config) (ch : Byte) : Bool :=
  decide (FONT_FIRST ≤ ch.toNat ∧ ch.toNat - FONT_FIRST < c.fontCount)

/-- FontRead(i, j) (00_scope.md R15). A valid configuration holds every byte the rules read (log 15). -/
def fontRead (c : Config) (i j : Nat) : Byte :=
  match c.font[i]? with
  | some entry => entry.getD j (Config.freeFontByte i j)
  | none => Config.freeFontByte i j

/-- R191: the font byte of screen column `k`. -/
def glyphColumn (c : Config) (k : Nat) : Nat := if c.glyphColReversed then GLYPH_COLS - 1 - k else k

/-- GlyphBit(ch, k, r) (R191). -/
def glyphBit (c : Config) (ch : Byte) (k r : Nat) : Bool :=
  (fontRead c (ch.toNat - FONT_FIRST) (glyphColumn c k)).getLsbD r

/-- The RAST.PIXEL calls of one character (R192): row groups, in each the same columns, one block for each. -/
def charDots (c : Config) (x y : Int) (scale : Nat) (fg bg : Color) (ch : Byte) : List Dot :=
  (List.range GLYPH_ROWS).flatMap fun (r : Nat) =>
    (List.range GLYPH_COLS).flatMap fun (k : Nat) =>
      blockDots (x + (k : Int) * (scale : Int)) (y + (r : Int) * (scale : Int))
        (if glyphBit c ch k r then fg else bg) scale

/-! ## Texts (R193, R194) -/

/-- The range in which a string continues (R193). -/
def printable (ch : Byte) : Bool := decide (PRINT_LO ≤ ch.toNat ∧ ch.toNat ≤ PRINT_HI)

/-- The longest prefix whose bytes are all printable (R194). -/
def printablePrefix (text : List Byte) : List Byte := text.takeWhile printable

/-- Logical x of character `n` of a string (R193, CHAR_ADVANCE). -/
def charX (x : Int) (n : Nat) : Int := x + (CHAR_ADVANCE : Int) * (n : Int)

/-- Characters, each with its position, from position `n` on. -/
def placesFrom : Nat → List Byte → List (Nat × Byte)
  | _, [] => []
  | n, ch :: rest => (n, ch) :: placesFrom (n + 1) rest

/-- The characters TEXT.STRING draws, each with its position (R193): up to the terminator or the end. -/
def stringPlaces (text : List Byte) : List (Nat × Byte) := placesFrom 0 (printablePrefix text)

/-- The characters TEXT.STRREV draws of a reversed prefix, each with its position, from position `n` on (R194). -/
def skipSentinel (c : Config) : Nat → List Byte → List (Nat × Byte)
  | _, [] => []
  | n, ch :: rest =>
    if ch = c.sentinel then skipSentinel c (if c.sentinelAdvances then n + 1 else n) rest
    else (n, ch) :: skipSentinel c (n + 1) rest

/-- The characters TEXT.STRREV draws, each with its position (R194). -/
def reversedPlaces (c : Config) (text : List Byte) : List (Nat × Byte) :=
  skipSentinel c 0 (printablePrefix text).reverse

end Sys2Proof.Machine
end

