-- ==== Sys2Proof/Machine/Flags.lean ====
section
/-! DEFINITION. STATUS, the block's one status register, and its one flag (10_state.md R25, R34). -/

namespace Sys2Proof.Machine

/-- The register as it reads: bits 7..1 read 0 (R25). -/
def statusRead (s : State) : Byte := s.status &&& 0x01#8

/-- STATUS[0] <- 1 (44_text.md R192); no other bit is written (R25). -/
def setGlyph (s : State) : State := s.setStatus (s.status ||| 0x01#8)

/-- STATUS <- 0x00 (45_status.md R211). -/
def clearStatus (s : State) : State := s.setStatus 0x00#8

end Sys2Proof.Machine
end

