-- ==== Sys2Proof/Machine/Bus.lean ====
section
/-! DEFINITION. The BUS.* operations (40_bus.md R102 to R109). -/

namespace Sys2Proof.Machine

/-- BUS.WRCMD (R102): Cycle(0, addr). -/
def execBusWrcmd (addr : Word) (s : State) : Result := cycle false 0#1 addr s

/-- BUS.WRDATA (R103): Cycle(1, value). -/
def execBusWrdata (value : Word) (s : State) : Result := dataCycle value s

/-- BUS.RDBIT (R104). -/
def execBusRdbit (s : State) : Result :=
  .next ((sampleAfter .tDout s).giveResult (.lvl (sampleLevel .tDout s)))

/-- BUS.SETCLK (R105). -/
def execBusSetclk (level : Level) (s : State) : Result := .next (drive .tClk level s)

/-- BUS.SETCS (R106): the touch chip-select. -/
def execBusSetcs (level : Level) (s : State) : Result := .next (drive .tCs level s)

/-- BUS.SETDIN (R107). -/
def execBusSetdin (level : Level) (s : State) : Result := .next (drive .tDin level s)

/-- BUS.RDPEN (R108): the raw level. -/
def execBusRdpen (s : State) : Result :=
  .next ((sampleAfter .tPen s).giveResult (.lvl (sampleLevel .tPen s)))

/-- BUS.SETTLE (R109). -/
def execBusSettle (s : State) : Result := .next (settle s)

end Sys2Proof.Machine
end

