-- ==== Sys2Proof/Machine/Display.lean ====
section
/-! DEFINITION. The DISP.* operations (42_display.md R140 to R145) and the display bus words (30_encoding.md R74). -/

namespace Sys2Proof.Machine

/-- DISP.INIT (R145): the opaque sequence, then S.initDone. It may be issued again. -/
def execDispInit (s : State) : Result :=
  andThen (sendInit s.cfg.initSeq s) fun t => .next (t.setInitDone true)

/-- DISP.WRREG (R140). -/
def execDispWrreg (addr value : Word) (s : State) : Result :=
  whenInitialised
    (fun s => if isKnownReg s.cfg addr then writeReg false addr value s else refuse .opaqueRegister s) s

/-- DISP.SETWIN (R141), in device coordinates. -/
def execDispSetwin (x1 y1 x2 y2 : Int) (s : State) : Result := whenInitialised (setWindow x1 y1 x2 y2) s

/-- DISP.WRPIX (R142). -/
def execDispWrpix (color : Word) (s : State) : Result := whenInitialised (writePixel color) s

/-- DISP.FILL (R143). -/
def execDispFill (color : Word) (s : State) : Result :=
  whenInitialised
    (fun s =>
      andThen (setWindow 0 0 ((WIDTH : Int) - 1) ((HEIGHT : Int) - 1) s) (repeatPixel color (WIDTH * HEIGHT))) s

/-- BUSCYC.CMD (R74, R151): the display cycle {0, d}. DESIGN CHOICE (log 6). -/
def execBuscycCmd (d : Word) (s : State) : Result := cycle false 0#1 d s

/-- BUSCYC.DATA (R74, R152): the display cycle {1, d}. DESIGN CHOICE (log 6). -/
def execBuscycData (d : Word) (s : State) : Result := dataCycle d s

end Sys2Proof.Machine
end

