-- ==== Sys2Proof/Machine/Raster.lean ====
section
/-! DEFINITION. The RAST.* operations (43_raster.md R171, R172, R174), in logical coordinates. -/

namespace Sys2Proof.Machine

/-- RAST.PIXEL (R171). -/
def execRastPixel (x y : Int) (color : Word) (s : State) : Result :=
  whenInitialised (drawDot { x := x, y := y, color := color }) s

/-- RAST.LINE (R172). -/
def execRastLine (x1 y1 x2 y2 : Int) (color : Word) (s : State) : Result :=
  whenInitialised (drawDots (dotsOf color (linePoints x1 y1 x2 y2))) s

/-- RAST.BLOCK (R174). -/
def execRastBlock (x y : Int) (color : Word) (scale : Nat) (s : State) : Result :=
  whenInitialised (drawDots (blockDots x y color scale)) s

end Sys2Proof.Machine
end

