-- ==== Sys2Proof/Machine/Status.lean ====
section
/-! DEFINITION. The STAT.* operations (45_status.md R210, R211). -/

namespace Sys2Proof.Machine

/-- STAT.RD (R210): reading does not clear. -/
def execStatRd (s : State) : Result := .next (s.giveResult (.byte (statusRead s)))

/-- STAT.CLR (R211). -/
def execStatClr (s : State) : Result := .next (clearStatus s)

end Sys2Proof.Machine
end

