-- ==== Sys2Proof/Machine/Text.lean ====
section
/-! DEFINITION. The TEXT.* operations (44_text.md R192 to R195). -/

namespace Sys2Proof.Machine

/-- drawChar (R192): outside the font STATUS.GLYPH is set and nothing is drawn. -/
def drawChar (x y : Int) (scale : Nat) (fg bg : Word) (ch : Byte) (s : State) : Result :=
  if inFont s.cfg ch then drawDots (charDots s.cfg x y scale fg bg ch) s else .next (setGlyph s)

/-- Characters at their positions, in order (R193, R194); a later one overwrites what it overlaps (R195). -/
def drawPlaces (x y : Int) (scale : Nat) (fg bg : Word) : List (Nat × Byte) → State → Result
  | [], s => .next s
  | (n, ch) :: rest, s =>
    andThen (drawChar (charX x n) y scale fg bg ch s) (drawPlaces x y scale fg bg rest)

/-- TEXT.CHAR (R192). -/
def execTextChar (x y : Int) (scale : Nat) (fg bg : Word) (ch : Byte) (s : State) : Result :=
  whenInitialised (drawChar x y scale fg bg ch) s

/-- TEXT.STRING (R193). -/
def execTextString (x y : Int) (scale : Nat) (fg bg : Word) (text : List Byte) (s : State) : Result :=
  whenInitialised (drawPlaces x y scale fg bg (stringPlaces text)) s

/-- TEXT.STRREV (R194). -/
def execTextStrrev (x y : Int) (scale : Nat) (fg bg : Word) (text : List Byte) (s : State) : Result :=
  whenInitialised (fun s => drawPlaces x y scale fg bg (reversedPlaces s.cfg text) s) s

end Sys2Proof.Machine
end

