-- ==== Sys2Proof/Machine/Touch.lean ====
section
/-! DEFINITION. The TOUCH.* operations (41_touch.md R120 to R126) and the touch command bytes (30_encoding.md R75). -/

namespace Sys2Proof.Machine

/-- One clock pulse: high, low, a settle delay after each (R121). -/
def pulse (s : State) : State := settle (drive .tClk 0#1 (settle (drive .tClk 1#1 s)))

/-- The six events of one command bit (R121). -/
def sendBit (b : Level) (s : State) : State := pulse (settle (drive .tDin b s))

/-- Bits n−1 down to 0 of a command byte, MSB first (R121, 20_memory.md R53). -/
def sendBits (cmd : Byte) : Nat → State → State
  | 0, s => s
  | n + 1, s => sendBits cmd n (sendBit (BitVec.ofBool (cmd.getLsbD n)) s)

/-- The gap pulses between command and data (R121, TOUCH_GAP_CLOCKS). -/
def gapPulses : Nat → State → State
  | 0, s => s
  | n + 1, s => gapPulses n (pulse s)

/-- v[n] <- b. -/
def putBit (v : Raw) (n : Nat) (b : Level) : Raw := v ||| (b.setWidth TOUCH_BITS <<< n)

/-- Bits n−1 down to 0 of a conversion, MSB first, one sample for each pulse, after its falling edge (R121). -/
def receiveBits : Nat → Raw → State → Raw × State
  | 0, v, s => (v, s)
  | n + 1, v, s =>
    receiveBits n (putBit v n (sampleLevel .tDout (pulse s))) (sampleAfter .tDout (pulse s))

/-- Conv(cmd) (R121): the result and the state after it. -/
def conversion (cmd : Byte) (s : State) : Raw × State :=
  receiveBits TOUCH_BITS 0#TOUCH_BITS (gapPulses s.cfg.touchGapClocks (sendBits cmd 8 s))

/-- The checks of R121 before a conversion, in order, and the conversion with its result. -/
def convertSelected (cmd : Byte) (s : State) : Result :=
  if s.lines.tCs ≠ some 0#1 then raise (.touchNotSelected s.k) s
  else if s.lines.tClk ≠ some 0#1 then raise (.touchClockState s.k) s
  else .next ((conversion cmd s).2.giveResult (.raw (conversion cmd s).1))

/-- TOUCH.START (R120). -/
def execTouchStart (s : State) : Result := .next (drive .tDin 0#1 (drive .tClk 0#1 (drive .tCs 1#1 s)))

/-- TOUCH.READCH (R121). -/
def execTouchReadch (cmd : Byte) (s : State) : Result :=
  if cmd = TOUCH_CMD_Y ∨ cmd = TOUCH_CMD_X then convertSelected cmd s else refuse .touchCommand s

/-- TOUCH.READPOS (R123): Y first, then X, in one chip-select assertion. -/
def execTouchReadpos (s : State) : Result :=
  if s.lines.tClk ≠ some 0#1 then raise (.touchClockState s.k) s
  else
    let y := conversion TOUCH_CMD_Y (settle (drive .tCs 0#1 s))
    let x := conversion TOUCH_CMD_X y.2
    .next ((settle (drive .tCs 1#1 x.2)).giveResult (.rawPair x.1 y.1))

/-- TOUCH.PEN (R124): the level of T_PEN mapped through PEN_ACTIVE. -/
def execTouchPen (s : State) : Result :=
  .next ((sampleAfter .tPen s).giveResult
    (.lvl (if sampleLevel .tPen s = s.cfg.penActive then 1#1 else 0#1)))

/-- TOUCH.CAL (R125): no event; X maps to screen x, Y to screen y. -/
def execTouchCal (rx ry : Raw) (s : State) : Result :=
  .next (s.giveResult (.intPair (calibrate s.cfg.calX rx) (calibrate s.cfg.calY ry)))

/-- TCMD.Y: the command byte 0x90, sent and answered as R121 says. DESIGN CHOICE (log 7). -/
def execTcmdY (s : State) : Result := convertSelected TOUCH_CMD_Y s

/-- TCMD.X: the command byte 0xD0, sent and answered as R121 says. DESIGN CHOICE (log 7). -/
def execTcmdX (s : State) : Result := convertSelected TOUCH_CMD_X s

end Sys2Proof.Machine
end

