-- ==== Sys2Proof/Machine/Dispatch.lean ====
section
/-! DEFINITION. The meaning of every instruction, one arm for each row of spec/opcode_table.json. -/

namespace Sys2Proof.Machine

def exec (i : Instr) (s : State) : Host.Outcome State Fault Refusal :=
  match i with
  | .busWrcmd addr => Sys2Proof.Machine.execBusWrcmd addr s
  | .busWrdata value => Sys2Proof.Machine.execBusWrdata value s
  | .busRdbit => Sys2Proof.Machine.execBusRdbit s
  | .busSetclk level => Sys2Proof.Machine.execBusSetclk level s
  | .busSetcs level => Sys2Proof.Machine.execBusSetcs level s
  | .busSetdin level => Sys2Proof.Machine.execBusSetdin level s
  | .busRdpen => Sys2Proof.Machine.execBusRdpen s
  | .busSettle => Sys2Proof.Machine.execBusSettle s
  | .touchStart => Sys2Proof.Machine.execTouchStart s
  | .touchReadch cmd => Sys2Proof.Machine.execTouchReadch cmd s
  | .touchReadpos => Sys2Proof.Machine.execTouchReadpos s
  | .touchPen => Sys2Proof.Machine.execTouchPen s
  | .touchCal rx ry => Sys2Proof.Machine.execTouchCal rx ry s
  | .dispInit => Sys2Proof.Machine.execDispInit s
  | .dispWrreg addr value => Sys2Proof.Machine.execDispWrreg addr value s
  | .dispSetwin x1 y1 x2 y2 => Sys2Proof.Machine.execDispSetwin x1 y1 x2 y2 s
  | .dispWrpix color => Sys2Proof.Machine.execDispWrpix color s
  | .dispFill color => Sys2Proof.Machine.execDispFill color s
  | .rastPixel x y color => Sys2Proof.Machine.execRastPixel x y color s
  | .rastLine x1 y1 x2 y2 color => Sys2Proof.Machine.execRastLine x1 y1 x2 y2 color s
  | .rastBlock x y color scale => Sys2Proof.Machine.execRastBlock x y color scale s
  | .textChar x y scale fg bg ch => Sys2Proof.Machine.execTextChar x y scale fg bg ch s
  | .textString x y scale fg bg text => Sys2Proof.Machine.execTextString x y scale fg bg text s
  | .textStrrev x y scale fg bg text => Sys2Proof.Machine.execTextStrrev x y scale fg bg text s
  | .statRd => Sys2Proof.Machine.execStatRd s
  | .statClr => Sys2Proof.Machine.execStatClr s
  | .buscycCmd d => Sys2Proof.Machine.execBuscycCmd d s
  | .buscycData d => Sys2Proof.Machine.execBuscycData d s
  | .tcmdY => Sys2Proof.Machine.execTcmdY s
  | .tcmdX => Sys2Proof.Machine.execTcmdX s

end Sys2Proof.Machine
end

