-- ==== Sys2Proof/WellFormed.lean ====
section
/-! DEFINITION. Which instructions have operands that fit the types of 30_encoding.md R72. The bit-vector operands fit
by their own types; what is left to check is the range of a `coord` and of a `scale`. -/

namespace Sys2Proof

/-- COORD_BITS bits, signed (00_scope.md R10); for the default of 16 it is s16, −32768..32767 (R72 `coord`).
DESIGN CHOICE (log 24): a width of 0 is taken as a width of 1, −1..0. -/
def coordFits (bits : Nat) (v : Int) : Bool :=
  decide (-((2 ^ (bits - 1) : Nat) : Int) ≤ v ∧ v < ((2 ^ (bits - 1) : Nat) : Int))

/-- u8, 0..255 (R72 `scale`). -/
def scaleFits (n : Nat) : Bool := decide (n ≤ 255)

/-- Every operand fits its type (R72), for coordinates of `bits` bits (COORD_BITS). -/
def Instr.wellFormed (bits : Nat) : Instr → Bool
  | .busWrcmd _ => true
  | .busWrdata _ => true
  | .busRdbit => true
  | .busSetclk _ => true
  | .busSetcs _ => true
  | .busSetdin _ => true
  | .busRdpen => true
  | .busSettle => true
  | .touchStart => true
  | .touchReadch _ => true
  | .touchReadpos => true
  | .touchPen => true
  | .touchCal _ _ => true
  | .dispInit => true
  | .dispWrreg _ _ => true
  | .dispSetwin x1 y1 x2 y2 => coordFits bits x1 && coordFits bits y1 && coordFits bits x2 && coordFits bits y2
  | .dispWrpix _ => true
  | .dispFill _ => true
  | .rastPixel x y _ => coordFits bits x && coordFits bits y
  | .rastLine x1 y1 x2 y2 _ => coordFits bits x1 && coordFits bits y1 && coordFits bits x2 && coordFits bits y2
  | .rastBlock x y _ scale => coordFits bits x && coordFits bits y && scaleFits scale
  | .textChar x y scale _ _ _ => coordFits bits x && coordFits bits y && scaleFits scale
  | .textString x y scale _ _ _ => coordFits bits x && coordFits bits y && scaleFits scale
  | .textStrrev x y scale _ _ _ => coordFits bits x && coordFits bits y && scaleFits scale
  | .statRd => true
  | .statClr => true
  | .buscycCmd _ => true
  | .buscycData _ => true
  | .tcmdY => true
  | .tcmdX => true

end Sys2Proof
end

