-- ==== Sys2Proof/Decode.lean ====
section
/-! DEFINITION. The decoder, total on any word of any interface (30_encoding.md R70 to R75, R80), and after it the
encoder, written from the same tables. -/

namespace Sys2Proof

/-- Why a word is no instruction, by name. -/
inductive DecodeError where
  /-- A reserved selector (R73). -/
  | illegalOp
  /-- An operand that does not fit its type (R72). -/
  | operandType
  /-- A touch command byte other than 0x90 and 0xD0 (R75, R76). -/
  | touchCommand
  deriving DecidableEq, Repr

abbrev Decoded := Except DecodeError Instr

/-! Readers of one operand, one for each type of R72: the value, or none where the operand does not fit. -/

/-- A number from 0 up to 2^width − 1. -/
def readUnsigned (width : Nat) : Operand → Option (BitVec width)
  | .num (.ofNat n) => if n < 2 ^ width then some (BitVec.ofNat width n) else none
  | .num (.negSucc _) => none
  | .text _ => none

def readLvl : Operand → Option Level := readUnsigned 1
def readByte : Operand → Option Byte := readUnsigned 8
def readWord : Operand → Option Word := readUnsigned 16
def readRaw : Operand → Option Raw := readUnsigned 12

def readCoord (bits : Nat) : Operand → Option Int
  | .num v => if coordFits bits v then some v else none
  | .text _ => none

def readScale : Operand → Option Nat
  | .num v => if 0 ≤ v ∧ scaleFits v.toNat then some v.toNat else none
  | .text _ => none

/-- The bytes of a text, or none where an element is no byte. -/
def readBytes : List Int → Option (List Byte)
  | [] => some []
  | v :: vs =>
    match readByte (.num v), readBytes vs with
    | some b, some bs => some (b :: bs)
    | _, _ => none

def readText : Operand → Option (List Byte)
  | .num _ => none
  | .text vs => readBytes vs

/-- The instruction, or OperandType where a reader found no fitting operand. -/
def orOperandType : Option Instr → Decoded
  | some i => .ok i
  | none => .error .operandType

/-- DEDUCED (log 4): a host operation whose operands are not as many as R80 gives it is refused OperandType too. -/
def wrongArity : Decoded := .error .operandType

def decode0 (i : Instr) : List Operand → Decoded
  | [] => .ok i
  | _ => wrongArity

def decodeLevel (f : Level → Instr) : List Operand → Decoded
  | [a] => orOperandType (f <$> readLvl a)
  | _ => wrongArity

def decodeByte (f : Byte → Instr) : List Operand → Decoded
  | [a] => orOperandType (f <$> readByte a)
  | _ => wrongArity

def decodeWord (f : Word → Instr) : List Operand → Decoded
  | [a] => orOperandType (f <$> readWord a)
  | _ => wrongArity

def decodeWordWord (f : Word → Word → Instr) : List Operand → Decoded
  | [a, b] => orOperandType (f <$> readWord a <*> readWord b)
  | _ => wrongArity

def decodeRawRaw (f : Raw → Raw → Instr) : List Operand → Decoded
  | [a, b] => orOperandType (f <$> readRaw a <*> readRaw b)
  | _ => wrongArity

def decodeWindow (bits : Nat) (f : Int → Int → Int → Int → Instr) : List Operand → Decoded
  | [a, b, c, d] => orOperandType (f <$> readCoord bits a <*> readCoord bits b <*> readCoord bits c <*> readCoord bits d)
  | _ => wrongArity

def decodePoint (bits : Nat) (f : Int → Int → Word → Instr) : List Operand → Decoded
  | [a, b, c] => orOperandType (f <$> readCoord bits a <*> readCoord bits b <*> readWord c)
  | _ => wrongArity

def decodeLine (bits : Nat) (f : Int → Int → Int → Int → Word → Instr) : List Operand → Decoded
  | [a, b, c, d, e] =>
    orOperandType (f <$> readCoord bits a <*> readCoord bits b <*> readCoord bits c <*> readCoord bits d <*> readWord e)
  | _ => wrongArity

def decodeBlock (bits : Nat) (f : Int → Int → Word → Nat → Instr) : List Operand → Decoded
  | [a, b, c, d] => orOperandType (f <$> readCoord bits a <*> readCoord bits b <*> readWord c <*> readScale d)
  | _ => wrongArity

def decodeChar (bits : Nat) (f : Int → Int → Nat → Word → Word → Byte → Instr) : List Operand → Decoded
  | [a, b, c, d, e, g] =>
    orOperandType
      (f <$> readCoord bits a <*> readCoord bits b <*> readScale c <*> readWord d <*> readWord e <*> readByte g)
  | _ => wrongArity

def decodeString (bits : Nat) (f : Int → Int → Nat → Word → Word → List Byte → Instr) : List Operand → Decoded
  | [a, b, c, d, e, g] =>
    orOperandType
      (f <$> readCoord bits a <*> readCoord bits b <*> readScale c <*> readWord d <*> readWord e <*> readText g)
  | _ => wrongArity

/-- R80, the operation map: a selector and its operands; every other selector is reserved (R73). -/
def decodeHostOp (bits : Nat) (op : Byte) (args : List Operand) : Decoded :=
  if op = 0x01#8 then decodeWord .busWrcmd args
  else if op = 0x02#8 then decodeWord .busWrdata args
  else if op = 0x03#8 then decode0 .busRdbit args
  else if op = 0x04#8 then decodeLevel .busSetclk args
  else if op = 0x05#8 then decodeLevel .busSetcs args
  else if op = 0x06#8 then decodeLevel .busSetdin args
  else if op = 0x07#8 then decode0 .busRdpen args
  else if op = 0x08#8 then decode0 .busSettle args
  else if op = 0x10#8 then decode0 .touchStart args
  else if op = 0x11#8 then decodeByte .touchReadch args
  else if op = 0x12#8 then decode0 .touchReadpos args
  else if op = 0x13#8 then decode0 .touchPen args
  else if op = 0x14#8 then decodeRawRaw .touchCal args
  else if op = 0x20#8 then decode0 .dispInit args
  else if op = 0x21#8 then decodeWordWord .dispWrreg args
  else if op = 0x22#8 then decodeWindow bits .dispSetwin args
  else if op = 0x23#8 then decodeWord .dispWrpix args
  else if op = 0x24#8 then decodeWord .dispFill args
  else if op = 0x30#8 then decodePoint bits .rastPixel args
  else if op = 0x31#8 then decodeLine bits .rastLine args
  else if op = 0x32#8 then decodeBlock bits .rastBlock args
  else if op = 0x40#8 then decodeChar bits .textChar args
  else if op = 0x41#8 then decodeString bits .textString args
  else if op = 0x42#8 then decodeString bits .textStrrev args
  else if op = 0x50#8 then decode0 .statRd args
  else if op = 0x51#8 then decode0 .statClr args
  else .error .illegalOp

/-- R74: bit 16 is RS, bits 15..0 are DB. -/
def decodeBusCycle (w : BitVec 17) : Instr :=
  if w.extractLsb' 16 1 = 0#1 then .buscycCmd (w.extractLsb' 0 16) else .buscycData (w.extractLsb' 0 16)

/-- R75: the two command bytes the sources define; a model decodes no other (R76). -/
def decodeTouchCommand (b : Byte) : Decoded :=
  if b = TOUCH_CMD_Y then .ok .tcmdY
  else if b = TOUCH_CMD_X then .ok .tcmdX
  else .error .touchCommand

/-- The decoder, for coordinates of `bits` bits (COORD_BITS, 00_scope.md R10). The interface says the format (R70). -/
def decode (bits : Nat) : Packet → Decoded
  | .hostOp op args => decodeHostOp bits op args
  | .busCycle w => .ok (decodeBusCycle w)
  | .touchCommand b => decodeTouchCommand b

/-! The encoder. -/

def numOf {w : Nat} (v : BitVec w) : Operand := .num (v.toNat : Int)

def textOf (bytes : List Byte) : Operand := .text (bytes.map fun b => (b.toNat : Int))

/-- The word of an instruction on the interface that carries it (R71, R74, R75, R80). -/
def encode : Instr → Packet
  | .busWrcmd addr => .hostOp 0x01#8 [numOf addr]
  | .busWrdata value => .hostOp 0x02#8 [numOf value]
  | .busRdbit => .hostOp 0x03#8 []
  | .busSetclk level => .hostOp 0x04#8 [numOf level]
  | .busSetcs level => .hostOp 0x05#8 [numOf level]
  | .busSetdin level => .hostOp 0x06#8 [numOf level]
  | .busRdpen => .hostOp 0x07#8 []
  | .busSettle => .hostOp 0x08#8 []
  | .touchStart => .hostOp 0x10#8 []
  | .touchReadch cmd => .hostOp 0x11#8 [numOf cmd]
  | .touchReadpos => .hostOp 0x12#8 []
  | .touchPen => .hostOp 0x13#8 []
  | .touchCal rx ry => .hostOp 0x14#8 [numOf rx, numOf ry]
  | .dispInit => .hostOp 0x20#8 []
  | .dispWrreg addr value => .hostOp 0x21#8 [numOf addr, numOf value]
  | .dispSetwin x1 y1 x2 y2 => .hostOp 0x22#8 [.num x1, .num y1, .num x2, .num y2]
  | .dispWrpix color => .hostOp 0x23#8 [numOf color]
  | .dispFill color => .hostOp 0x24#8 [numOf color]
  | .rastPixel x y color => .hostOp 0x30#8 [.num x, .num y, numOf color]
  | .rastLine x1 y1 x2 y2 color => .hostOp 0x31#8 [.num x1, .num y1, .num x2, .num y2, numOf color]
  | .rastBlock x y color scale => .hostOp 0x32#8 [.num x, .num y, numOf color, .num (scale : Int)]
  | .textChar x y scale fg bg ch =>
    .hostOp 0x40#8 [.num x, .num y, .num (scale : Int), numOf fg, numOf bg, numOf ch]
  | .textString x y scale fg bg text =>
    .hostOp 0x41#8 [.num x, .num y, .num (scale : Int), numOf fg, numOf bg, textOf text]
  | .textStrrev x y scale fg bg text =>
    .hostOp 0x42#8 [.num x, .num y, .num (scale : Int), numOf fg, numOf bg, textOf text]
  | .statRd => .hostOp 0x50#8 []
  | .statClr => .hostOp 0x51#8 []
  | .buscycCmd d => .busCycle (0#1 ++ d)
  | .buscycData d => .busCycle (1#1 ++ d)
  | .tcmdY => .touchCommand TOUCH_CMD_Y
  | .tcmdX => .touchCommand TOUCH_CMD_X

/-! Words as spec/opcode_table.json numbers their bits. -/

/-- The operand types of each selector (R80); a reserved selector has none. -/
def signature (op : Byte) : List OperandType :=
  if op = 0x01#8 then [.word]
  else if op = 0x02#8 then [.word]
  else if op = 0x04#8 then [.lvl]
  else if op = 0x05#8 then [.lvl]
  else if op = 0x06#8 then [.lvl]
  else if op = 0x11#8 then [.byte]
  else if op = 0x14#8 then [.raw, .raw]
  else if op = 0x21#8 then [.word, .word]
  else if op = 0x22#8 then [.coord, .coord, .coord, .coord]
  else if op = 0x23#8 then [.word]
  else if op = 0x24#8 then [.word]
  else if op = 0x30#8 then [.coord, .coord, .word]
  else if op = 0x31#8 then [.coord, .coord, .coord, .coord, .word]
  else if op = 0x32#8 then [.coord, .coord, .word, .scale]
  else if op = 0x40#8 then [.coord, .coord, .scale, .word, .word, .byte]
  else if op = 0x41#8 then [.coord, .coord, .scale, .word, .word, .text]
  else if op = 0x42#8 then [.coord, .coord, .scale, .word, .word, .text]
  else []

/-- Does an operand fit a type (R72)? -/
def OperandType.fits (bits : Nat) : OperandType → Operand → Bool
  | .lvl, o => (readLvl o).isSome
  | .byte, o => (readByte o).isSome
  | .word, o => (readWord o).isSome
  | .coord, o => (readCoord bits o).isSome
  | .scale, o => (readScale o).isSome
  | .raw, o => (readRaw o).isSome
  | .text, o => (readText o).isSome

/-- The operand of zeros: the number 0, or the text of no bytes (log 4). -/
def OperandType.zero : OperandType → Operand
  | .text => .text []
  | _ => .num 0

/-- Does a byte stand in the TCMD rows of the table? Both bytes are reserved selectors, so no row is hidden. -/
def isTouchCommandByte (b : Byte) : Bool := decide (b = TOUCH_CMD_Y) || decide (b = TOUCH_CMD_X)

/-- The packet of a row's word: an 8-bit row is a touch command byte or a selector with operands of zeros, a 17-bit
row (three whole bytes) is a display cycle. -/
def Packet.ofTableWord (nbits w : Nat) : Option Packet :=
  if nbits ≤ 8 then
    if w < 256 then
      if isTouchCommandByte (BitVec.ofNat 8 w) then some (.touchCommand (BitVec.ofNat 8 w))
      else some (.hostOp (BitVec.ofNat 8 w) ((signature (BitVec.ofNat 8 w)).map OperandType.zero))
    else none
  else if w < 2 ^ 17 then some (.busCycle (BitVec.ofNat 17 w))
  else none

/-- The instruction the decoder reads from a row's word, at the default COORD_BITS; operands of zeros fit any. -/
def decodeTableWord (nbits w : Nat) : Option Instr :=
  match Packet.ofTableWord nbits w with
  | none => none
  | some p =>
    match decode COORD_BITS_DEFAULT p with
    | .ok i => some i
    | .error _ => none

end Sys2Proof
end

