-- ==== Sys2Proof/Machine/Fetch.lean ====
section
/-! DEFINITION. What a step does around the instruction it runs: taking the next word, the refusal of a word that is no
instruction, and retiring the word of an operation that completed (10_state.md R22, 60_exceptions.md R220). -/

namespace Sys2Proof.Machine

/-- The refusal reason of a word the decoder rejects (60_exceptions.md R222). -/
def reasonOf : DecodeError → RefusalReason
  | .illegalOp => .illegalOp
  | .operandType => .operandType
  | .touchCommand => .touchCommand

/-- The state after the word `p` has been run to completion: the word is gone from those presented, and k has risen
by 1 if it was a host operation (R22, log 5 and log 6). -/
def retire (p : Packet) (s : State) : State :=
  { s with pending := s.pending.tail, k := if p.isHostOp then s.k + 1 else s.k }

/-- The word `p` presented as the next one, in the place of the one that was. -/
def present (p : Packet) (s : State) : State := { s with pending := p :: s.pending.tail }

/-- Retire the word when its operation completed. -/
def finish (p : Packet) : Result → Result
  | .next t => .next (retire p t)
  | .fault e => .fault e
  | .refused e => .refused e

end Sys2Proof.Machine
end

