-- ==== Sys2Proof/Machine/Step.lean ====
section
/-! DEFINITION. One step of the block: the next word presented to it is decoded and run to completion (00_scope.md R8,
10_state.md R20, R22). -/

namespace Sys2Proof.Machine

/-- A faulted or refused block takes no further step and stays as it is (60_exceptions.md R220, R229); a block that
nothing is presented to waits (70_reset_and_hazards.md R243); otherwise the next word is run. -/
def step (s : State) : Host.Outcome State Fault Refusal :=
  match s.fault with
  | some r => .fault (Fault.of r s)
  | none =>
    match s.refused with
    | some r => .refused (Refusal.of r s)
    | none =>
      match s.pending with
      | [] => .next s
      | p :: _ =>
        match decode s.cfg.coordBits p with
        | .error e => refuse (reasonOf e) s
        | .ok i => finish p (exec i s)

/-- The state with a row's word presented as the next one (log 5). -/
def State.withFetchWord (s : State) (nbits w : Nat) : State :=
  match Packet.ofTableWord nbits w with
  | some p => present p s
  | none => s

end Sys2Proof.Machine
end

