-- ==== Sys2Proof/Safety.lean ====
section
/-! DEFINITION. What claims about the block are stated in: running states, the invariant of its data, and the parts of
the state an operation leaves alone. -/

namespace Sys2Proof.Machine

/-- The block has neither faulted nor been refused (60_exceptions.md R220). -/
def State.running (s : State) : Prop := s.fault = none ∧ s.refused = none

/-- The next word presented to the block is the instruction's. -/
def State.fetches (s : State) (i : Instr) : Prop := ∃ p rest, s.pending = p :: rest ∧ decode s.cfg.coordBits p = .ok i

/-- The bus events since reset in order of emission (10_state.md R28). -/
def State.trace (s : State) : List Event := s.events.reverse

/-- `t` has emitted exactly `evs` since `s`, in that order. -/
def emitted (evs : List Event) (s t : State) : Prop := t.trace = s.trace ++ evs

/-- The seven events of Cycle(rs, v) (40_bus.md R101). -/
def cycleEvents (rs : Level) (v : Word) : List Event :=
  [.drive .dRd 1#1, .drive .dRs rs, .drive .dCs 0#1, .driveDb v, .drive .dWr 0#1, .drive .dWr 1#1, .drive .dCs 1#1]

/-- The events of several cycles, one after the other. -/
def cyclesEvents (cycles : List (Level × Word)) : List Event := cycles.flatMap fun c => cycleEvents c.1 c.2

/-- The thirteen cycles of setWindow (42_display.md R141). -/
def windowCycles (c : Config) (x1 y1 x2 y2 : Word) : List (Level × Word) :=
  [(0#1, c.regHsa), (1#1, x1), (0#1, c.regHea), (1#1, x2), (0#1, c.regVsa), (1#1, y1), (0#1, c.regVea), (1#1, y2),
    (0#1, c.regGramX), (1#1, x1), (0#1, c.regGramY), (1#1, y1), (0#1, c.regGramWrite)]

/-- The lines after Cycle(rs, v) (40_bus.md R101): the touch lines are as before. -/
def Lines.afterCycle (rs : Level) (v : Word) (l : Lines) : Lines :=
  { l with dRs := some rs, dCs := some 1#1, dRd := some 1#1, dWr := some 1#1, dDb := some v }

/-- The touch lines are the same. -/
def Lines.sameTouch (l l' : Lines) : Prop := l'.tCs = l.tCs ∧ l'.tClk = l.tClk ∧ l'.tDin = l.tDin

/-- The display lines are the same. -/
def Lines.sameDisplay (l l' : Lines) : Prop :=
  l'.dRs = l.dRs ∧ l'.dCs = l.dCs ∧ l'.dRd = l.dRd ∧ l'.dWr = l.dWr ∧ l'.dDb = l.dDb

/-- What no operation writes while it runs: the configuration, the words presented, k, S.fault and S.refused. -/
def sameControl (s t : State) : Prop :=
  t.cfg = s.cfg ∧ t.pending = s.pending ∧ t.k = s.k ∧ t.fault = s.fault ∧ t.refused = s.refused

/-- What a display operation leaves alone: the above, STATUS, S.initDone, the value last returned, the environment
and the touch lines. -/
def sameButDisplay (s t : State) : Prop :=
  sameControl s t ∧ t.status = s.status ∧ t.initDone = s.initDone ∧ t.returned = s.returned ∧ t.env = s.env
    ∧ s.lines.sameTouch t.lines

/-- The level that the draw `n` draws from now reads on a line, if no sample of another line comes between: fixed
beforehand, or the free value of that draw (00_scope.md R14, log 10). -/
def Env.nextLevel (e : Env) (line : InLine) (n : Nat) : Level :=
  match (match line with | .tDout => e.dout[n]? | .tPen => e.pen[n]?) with
  | some b => b
  | none => Config.freeSample line (e.draws + n)

/-- The environment after `n` draws of a line. -/
def Env.afterDraws (e : Env) (line : InLine) (n : Nat) : Env :=
  match line with
  | .tDout => { e with dout := e.dout.drop n, draws := e.draws + n }
  | .tPen => { e with pen := e.pen.drop n, draws := e.draws + n }

/-- One clock pulse with its settle delays (41_touch.md R121). -/
def pulseEvents : List Event := [.drive .tClk 1#1, .settle, .drive .tClk 0#1, .settle]

/-- The 48 events of a command byte, bit 7 first (R121, 20_memory.md R53). -/
def commandEvents (cmd : Byte) : List Event :=
  (List.range 8).flatMap fun i => [.drive .tDin (BitVec.ofBool (cmd.getLsbD (7 - i))), .settle] ++ pulseEvents

/-- The 60 events of the twelve data bits (R121). -/
def dataEvents : List Event := (List.range 12).flatMap fun _ => pulseEvents ++ [.sample .tDout]

/-- The events of Conv(cmd) with `gap` gap pulses (R121). -/
def conversionEvents (gap : Nat) (cmd : Byte) : List Event :=
  commandEvents cmd ++ (List.range gap).flatMap (fun _ => pulseEvents) ++ dataEvents

/-- The conversion result that draws `n` to `n + 11` from now spell, the first of them bit 11 (R121). -/
def spells (e : Env) (n : Nat) (v : Raw) : Prop :=
  ∀ j, j < 12 → BitVec.ofBool (v.getLsbD (11 - j)) = e.nextLevel .tDout (n + j)

/-- Every GRAM cell of the panel reads as before. -/
def sameGram (s t : State) : Prop := ∀ x yd, x < WIDTH → yd < HEIGHT → t.panel.gramAt x yd = s.panel.gramAt x yd

/-- Every panel register outside `written` reads as before. -/
def sameRegsBut (written : List Word) (s t : State) : Prop :=
  ∀ a, a ∉ written → t.panel.regAt a = s.panel.regAt a

/-- The registers that setWindow writes (42_display.md R141). -/
def windowRegs (c : Config) : List Word := [c.regHsa, c.regHea, c.regVsa, c.regVea, c.regGramX, c.regGramY]

/-- The panel's window is hsa..hea × vsa..vea, its cursor is at (cx, cy) and it is in GRAM write mode. -/
def windowAt (t : State) (hsa hea vsa vea cx cy : Nat) : Prop :=
  t.window = some { hsa := hsa, hea := hea, vsa := vsa, vea := vea, cx := cx, cy := cy }
    ∧ t.panel.ir = some t.cfg.regGramWrite

/-- The colour of the last of some RAST.PIXEL calls that lands on device cell (x, yd): logical (x, HEIGHT − 1 − yd)
(43_raster.md R170, R171). -/
def lastColor (ds : List Dot) (x yd : Nat) : Option Word :=
  (ds.filter fun d => decide (d.x = (x : Int) ∧ d.y = (HEIGHT : Int) - 1 - (yd : Int))).getLast?.map Dot.color

/-- The calls that are in bounds. -/
def dotsInBounds (ds : List Dot) : List Dot := ds.filter fun d => inBounds d.x d.y

/-- The fourteen cycles of an in-bounds RAST.PIXEL (43_raster.md R171). -/
def dotCycles (c : Config) (d : Dot) : List (Level × Word) :=
  windowCycles c (coordWord d.x) (coordWord (deviceRow d.y)) (coordWord d.x) (coordWord (deviceRow d.y))
    ++ [(1#1, d.color)]

/-- The events of RAST.PIXEL calls: fourteen cycles for each one in bounds, none for another. -/
def dotsEvents (c : Config) (ds : List Dot) : List Event :=
  (dotsInBounds ds).flatMap fun d => cyclesEvents (dotCycles c d)

/-- GRAM after RAST.PIXEL calls: a cell some call lands on holds the last such call's colour, every other cell is as
before. -/
def gramAfterDots (ds : List Dot) (s t : State) : Prop :=
  ∀ x yd, x < WIDTH → yd < HEIGHT →
    t.panel.gramAt x yd = match lastColor ds x yd with
      | some c => some c
      | none => s.panel.gramAt x yd

/-- A DISP.* operation other than DISP.INIT, a RAST.* or a TEXT.* operation (10_state.md R27). -/
def needsInit : Instr → Bool
  | .dispWrreg _ _ => true
  | .dispSetwin _ _ _ _ => true
  | .dispWrpix _ => true
  | .dispFill _ => true
  | .rastPixel _ _ _ => true
  | .rastLine _ _ _ _ _ => true
  | .rastBlock _ _ _ _ => true
  | .textChar _ _ _ _ _ _ => true
  | .textString _ _ _ _ _ _ => true
  | .textStrrev _ _ _ _ _ _ => true
  | _ => false

/-- A TEXT.* operation. -/
def isText : Instr → Bool
  | .textChar _ _ _ _ _ _ => true
  | .textString _ _ _ _ _ _ => true
  | .textStrrev _ _ _ _ _ _ => true
  | _ => false

/-- An operation that makes no display cycle: the touch and bus lines, the samples, the calibration, the status. -/
def noDisplayCycle : Instr → Bool
  | .busRdbit => true
  | .busSetclk _ => true
  | .busSetcs _ => true
  | .busSetdin _ => true
  | .busRdpen => true
  | .busSettle => true
  | .touchStart => true
  | .touchReadch _ => true
  | .touchReadpos => true
  | .touchPen => true
  | .touchCal _ _ => true
  | .statRd => true
  | .statClr => true
  | .tcmdY => true
  | .tcmdX => true
  | _ => false

/-- The state under a configuration with another INIT_SEQ. -/
def withInitSeq (pairs : List (Word × Word)) (s : State) : State :=
  { s with cfg := { s.cfg with initSeq := pairs } }

/-- A panel field is ⊥ or below its bound (10_state.md R29). -/
def belowOrUnset (bound : Nat) (v : Option Nat) : Prop := ∀ n, v = some n → n < bound

/-- The invariant of the block's data, for a valid configuration: the memories are in canonical form, the window and
the cursor are on the panel or ⊥ (10_state.md R29), and STATUS holds 0 in bits 7..1 (R25). -/
structure State.Inv (s : State) : Prop where
  cfgValid : s.cfg.valid = true
  regWf : Memory.wf REG_SIZE s.panel.reg = true
  gramWf : Memory.wf GRAM_SIZE s.panel.gram = true
  hsaOnPanel : belowOrUnset WIDTH s.hsa
  heaOnPanel : belowOrUnset WIDTH s.hea
  vsaOnPanel : belowOrUnset HEIGHT s.vsa
  veaOnPanel : belowOrUnset HEIGHT s.vea
  cxOnPanel : belowOrUnset WIDTH s.panel.cx
  cyOnPanel : belowOrUnset HEIGHT s.panel.cy
  statusReserved : s.status &&& 0xFE#8 = 0#8

end Sys2Proof.Machine
end

