-- ==== Sys2Proof/Certificates/Slice0/Obligations.lean ====
section
/-! DEFINITION. The statements for the provers, rule by rule. "No other field changes" is said by giving the next state
whole, as a record update, or by `sameButDisplay`, `sameGram` and `sameRegsBut` of Sys2Proof/Safety.lean. Many of the
rules carry the specification's own decisions (92_eei_decisions.md); a docstring names the decision a clause rests
on, and the log entry where the choice is the model's. -/

namespace Sys2Proof.Machine.Claims

/-- The selectors that 30_encoding.md R80 lists. -/
def listedSelectors : List Nat :=
  [0x01, 0x02, 0x03, 0x04, 0x05, 0x06, 0x07, 0x08, 0x10, 0x11, 0x12, 0x13, 0x14, 0x20, 0x21, 0x22, 0x23, 0x24,
    0x30, 0x31, 0x32, 0x40, 0x41, 0x42, 0x50, 0x51]

/-- An operand is of a type, by the ranges of 30_encoding.md R72; a coordinate is signed with `bits` bits (COORD_BITS,
00_scope.md R10), −32768..32767 for 16; a width of 0 is taken as 1 (log 24). -/
def ofType (bits : Nat) : OperandType → Operand → Prop
  | .lvl, o => ∃ v, o = .num v ∧ 0 ≤ v ∧ v ≤ 1
  | .byte, o => ∃ v, o = .num v ∧ 0 ≤ v ∧ v ≤ 255
  | .word, o => ∃ v, o = .num v ∧ 0 ≤ v ∧ v ≤ 65535
  | .coord, o => ∃ v, o = .num v ∧ -(2 : Int) ^ (bits - 1) ≤ v ∧ v ≤ (2 : Int) ^ (bits - 1) - 1
  | .scale, o => ∃ v, o = .num v ∧ 0 ≤ v ∧ v ≤ 255
  | .raw, o => ∃ v, o = .num v ∧ 0 ≤ v ∧ v ≤ 4095
  | .text, o => ∃ vs, o = .text vs ∧ ∀ v ∈ vs, 0 ≤ v ∧ v ≤ 255

/-- The operands are those of R80 for the selector. -/
def operandsFit (bits : Nat) (op : Byte) (args : List Operand) : Prop :=
  List.Forall₂ (ofType bits) (signature op) args

/-- The two instructions that are a data cycle on the display bus: the host's and the bare bus word. -/
def isDataCycle (i : Instr) (v : Word) : Prop := i = .busWrdata v ∨ i = .buscycData v

/-- The state after the seven events of Cycle(rs, v), the panel as it was. -/
def cycleDone (rs : Level) (v : Word) (s : State) : State :=
  { s with lines := s.lines.afterCycle rs v, events := (cycleEvents rs v).reverse ++ s.events }

/-- The state after the index cycle of DISP.WRREG and the seven events of its value cycle. -/
def wrregDone (a v : Word) (s : State) : State :=
  { s with
    lines := s.lines.afterCycle 1#1 v
    events := (cyclesEvents [(0#1, a), (1#1, v)]).reverse ++ s.events
    panel := { s.panel with ir := some a } }

/-- An x register: its values are below WIDTH (42_display.md R153, R154). -/
def isXReg (c : Config) (a : Word) : Prop := a = c.regHsa ∨ a = c.regHea ∨ a = c.regGramX

/-- A y register: its values are below HEIGHT (42_display.md R153, R154). -/
def isYReg (c : Config) (a : Word) : Prop := a = c.regVsa ∨ a = c.regVea ∨ a = c.regGramY

/-- The value is on the panel for the register. -/
def onPanelFor (c : Config) (a v : Word) : Prop :=
  (isXReg c a ∧ v.toNat < WIDTH) ∨ (isYReg c a ∧ v.toNat < HEIGHT)

/-- The value is off the panel for the register. -/
def offPanelFor (c : Config) (a v : Word) : Prop :=
  (isXReg c a ∧ WIDTH ≤ v.toNat) ∨ (isYReg c a ∧ HEIGHT ≤ v.toNat)

/-- What a write of `v` to the window or cursor register `a` does to the panel (42_display.md R153, R154): the
register holds it, the cursor follows REG_GRAM_X and REG_GRAM_Y and nothing else, every other register and GRAM
stay. -/
def registerWritten (a v : Word) (s t : State) : Prop :=
  t.panel.regAt a = some v ∧ sameRegsBut [a] s t ∧ sameGram s t
    ∧ t.panel.cx = (if a = s.cfg.regGramX then some v.toNat else s.panel.cx)
    ∧ t.panel.cy = (if a = s.cfg.regGramY then some v.toNat else s.panel.cy)

/-- The window is set, on the panel and ordered, and the cursor is in it (42_display.md R157). -/
def pixelReady (s : State) (w : Window) : Prop :=
  s.window = some w ∧ w.hsa ≤ w.cx ∧ w.cx ≤ w.hea ∧ w.hea < WIDTH ∧ w.vsa ≤ w.cy ∧ w.cy ≤ w.vea ∧ w.vea < HEIGHT

/-- The condition of 42_display.md R157 does not hold. -/
def pixelNotReady (s : State) : Prop :=
  ∀ w, s.window = some w →
    ¬ (w.hsa ≤ w.hea ∧ w.vsa ≤ w.vea ∧ w.hsa ≤ w.cx ∧ w.cx ≤ w.hea ∧ w.vsa ≤ w.cy ∧ w.cy ≤ w.vea)

/-- P.CX after a pixel write (42_display.md R156). -/
def nextCx (o : AutoInc) (w : Window) : Nat :=
  match o with
  | .xy => if w.cx < w.hea then w.cx + 1 else w.hsa
  | .yx => if w.cy < w.vea then w.cx else if w.cx < w.hea then w.cx + 1 else w.hsa

/-- P.CY after a pixel write (42_display.md R156). -/
def nextCy (o : AutoInc) (w : Window) : Nat :=
  match o with
  | .xy => if w.cx < w.hea then w.cy else if w.cy < w.vea then w.cy + 1 else w.vsa
  | .yx => if w.cy < w.vea then w.cy + 1 else w.vsa

/-- What a pixel write of `v` does to the panel (42_display.md R155, R156): the cell at the cursor holds it, every
other cell is as before, the cursor advances, the registers stay. -/
def pixelWritten (w : Window) (v : Word) (s t : State) : Prop :=
  (∀ x yd, x < WIDTH → yd < HEIGHT →
      t.panel.gramAt x yd = if x = w.cx ∧ yd = w.cy then some v else s.panel.gramAt x yd)
    ∧ t.panel.cx = some (nextCx s.cfg.autoInc w) ∧ t.panel.cy = some (nextCy s.cfg.autoInc w)
    ∧ sameRegsBut [] s t

/-- The touch controller is selected with its clock low (41_touch.md R121). -/
def touchReady (s : State) : Prop := s.lines.tCs = some 0#1 ∧ s.lines.tClk = some 0#1

/-- The state after Conv(cmd) for one of the two command bytes, whose bit 0 is 0, with the result `v`. -/
def converted (cmd : Byte) (v : Raw) (s : State) : State :=
  { s with
    lines := { s.lines with tClk := some 0#1, tDin := some 0#1 }
    events := (conversionEvents s.cfg.touchGapClocks cmd).reverse ++ s.events
    env := s.env.afterDraws .tDout 12
    returned := some (.raw v) }

/-- A pair of INIT_SEQ that the panel accepts whatever came before: no pixel write, and an on-panel value for a window
or cursor register. -/
def acceptable (c : Config) (p : Word × Word) : Prop := p.1 ≠ c.regGramWrite ∧ ¬ offPanelFor c p.1 p.2

/-- The last value a list of pairs gives a register. -/
def lastValue (pairs : List (Word × Word)) (a : Word) : Option Word :=
  (pairs.filter fun p => decide (p.1 = a)).getLast?.map Prod.snd

/-- The cycles of a list of pairs, in order (42_display.md R140, R145). -/
def pairsCycles (pairs : List (Word × Word)) : List (Level × Word) :=
  pairs.flatMap fun p => [(0#1, p.1), (1#1, p.2)]

/-- The drawing rules hold (70_reset_and_hazards.md R244): a valid configuration, and DISP.INIT has run. -/
def drawReady (s : State) : Prop := s.cfg.valid = true ∧ s.initDone = true

/-- What these RAST.PIXEL calls leave on the panel and the bus (43_raster.md R171): GRAM, the events, the window and the
lines of the last call that is in bounds, and of the registers only those that setWindow writes. With no call in
bounds nothing changes. -/
def drawn (ds : List Dot) (s t : State) : Prop :=
  gramAfterDots ds s t ∧ emitted (dotsEvents s.cfg ds) s t ∧ sameRegsBut (windowRegs s.cfg) s t
    ∧ (∀ d, (dotsInBounds ds).getLast? = some d →
        windowAt t d.x.toNat d.x.toNat (deviceRow d.y).toNat (deviceRow d.y).toNat d.x.toNat (deviceRow d.y).toNat
          ∧ t.lines = s.lines.afterCycle 1#1 d.color)
    ∧ (dotsInBounds ds = [] → t.panel = s.panel ∧ t.lines = s.lines)

/-- The RAST.PIXEL calls of the characters at some positions: nothing for a character outside the font. -/
def placesDots (c : Config) (x y : Int) (scale : Nat) (fg bg : Word) (places : List (Byte × Nat)) : List Dot :=
  places.flatMap fun p =>
    if inFont c p.1 then charDots c (x + 6 * (p.2 : Int)) y scale fg bg p.1 else []

/-- STATUS after characters are drawn: bit 0 is set if one of them is outside the font (44_text.md R192, R193). -/
def statusAfter (c : Config) (places : List (Byte × Nat)) (b : Byte) : Byte :=
  if places.any (fun p => !inFont c p.1) then b ||| 0x01#8 else b

/-- A string operation has drawn the characters at `places`. -/
def placesDrawn (x y : Int) (scale : Nat) (fg bg : Word) (places : List (Byte × Nat)) (s t : State) : Prop :=
  drawn (placesDots s.cfg x y scale fg bg places) s t ∧ t.status = statusAfter s.cfg places s.status
    ∧ sameControl s t ∧ t.initDone = s.initDone ∧ t.returned = s.returned ∧ t.env = s.env
    ∧ s.lines.sameTouch t.lines

/-- The characters TEXT.STRREV draws, each with its position (44_text.md R194): the printable prefix is reversed and
the sentinel skipped, with or without its place. -/
def reversedChars (c : Config) (text : List Byte) : List (Byte × Nat) :=
  let r := (text.takeWhile fun b => decide (0x20 ≤ b.toNat ∧ b.toNat ≤ 0x7F)).reverse
  if c.sentinelAdvances then r.zipIdx.filter fun p => decide (p.1 ≠ c.sentinel)
  else (r.filter fun b => decide (b ≠ c.sentinel)).zipIdx

/-- How many of some logical points are in bounds (43_raster.md R170). -/
def inBoundsCount (points : List (Int × Int)) : Nat :=
  (points.filter fun p => decide (0 ≤ p.1 ∧ p.1 ≤ 239 ∧ 0 ≤ p.2 ∧ p.2 ≤ 319)).length

/-- The logical points of the width × height rectangle at (x, y). -/
def rectangle (x y : Int) (width height : Nat) : List (Int × Int) :=
  (List.range height).flatMap fun (j : Nat) => (List.range width).map fun (i : Nat) => (x + (i : Int), y + (j : Int))

/-- The events of one character: fourteen cycles for each in-bounds point of its rectangle (44_text.md R192). -/
def charEventCount (c : Config) (x y : Int) (scale : Nat) (ch : Byte) : Nat :=
  if 0x20 ≤ ch.toNat ∧ ch.toNat - 0x20 < c.fontCount then 98 * inBoundsCount (rectangle x y (5 * scale) (8 * scale))
  else 0

/-- The events of characters at some positions (44_text.md R193). -/
def placesEventCount (c : Config) (x y : Int) (scale : Nat) (places : List (Byte × Nat)) : Nat :=
  (places.map fun p => charEventCount c (x + 6 * (p.2 : Int)) y scale p.1).sum

/-- The events of an operation that completes, by the table of 70_reset_and_hazards.md R260, a cycle being 7 events;
for the operations the table does not list, by their own rules. -/
def eventCount (c : Config) : Instr → Nat
  | .busWrcmd _ => 7
  | .busWrdata _ => 7
  | .busRdbit => 1
  | .busSetclk _ => 1
  | .busSetcs _ => 1
  | .busSetdin _ => 1
  | .busRdpen => 1
  | .busSettle => 1
  | .touchStart => 3
  | .touchReadch _ => 108 + 4 * c.touchGapClocks
  | .touchReadpos => 220 + 8 * c.touchGapClocks
  | .touchPen => 1
  | .touchCal _ _ => 0
  | .dispInit => 7 * (2 * c.initSeq.length)
  | .dispWrreg _ _ => 7 * 2
  | .dispSetwin _ _ _ _ => 7 * 13
  | .dispWrpix _ => 7
  | .dispFill _ => 7 * 76813
  | .rastPixel x y _ => 98 * inBoundsCount [(x, y)]
  | .rastLine x1 y1 x2 y2 _ => 98 * inBoundsCount (linePoints x1 y1 x2 y2)
  | .rastBlock x y _ scale => 98 * inBoundsCount (rectangle x y scale scale)
  | .textChar x y scale _ _ ch => charEventCount c x y scale ch
  | .textString x y scale _ _ text =>
    placesEventCount c x y scale (text.takeWhile fun b => decide (0x20 ≤ b.toNat ∧ b.toNat ≤ 0x7F)).zipIdx
  | .textStrrev x y scale _ _ text => placesEventCount c x y scale (reversedChars c text)
  | .statRd => 0
  | .statClr => 0
  | .buscycCmd _ => 7
  | .buscycData _ => 7
  | .tcmdY => 108 + 4 * c.touchGapClocks
  | .tcmdX => 108 + 4 * c.touchGapClocks

end Sys2Proof.Machine.Claims

open Sys2Proof Sys2Proof.Machine Sys2Proof.Machine.Claims

/-! ## Encodings -/

/-- 30_encoding.md R70 to R75, R80: no bit of an encoding is dropped, for every instruction and every COORD_BITS (log
22). -/
def Obligations.DecodeOfEncode : Prop :=
  ∀ (bits : Nat) (i : Instr), i.wellFormed bits = true → decode bits (encode i) = .ok i

/-- 30_encoding.md R70 to R75, R80: a word has one meaning, and what is decoded has operands of the types of R72, for
every COORD_BITS (log 22). -/
def Obligations.EncodeOfDecode : Prop :=
  ∀ (bits : Nat) (p : Packet) (i : Instr), decode bits p = .ok i → encode i = p ∧ i.wellFormed bits = true

/-- 30_encoding.md R73 (decision D2): a selector that R80 does not list is refused IllegalOp, before any event, and a
listed one never is. -/
def Obligations.ReservedSelectorsAreIllegal : Prop :=
  ∀ (bits : Nat) (op : Byte) (args : List Operand),
    (op.toNat ∉ listedSelectors →
      decode bits (.hostOp op args) = .error .illegalOp
        ∧ ∀ s : State, s.running → s.pending.head? = some (.hostOp op args) →
            step s = .refused (.illegalOp { s with refused := some .illegalOp }))
      ∧ (op.toNat ∈ listedSelectors → decode bits (.hostOp op args) ≠ .error .illegalOp)

/-- 30_encoding.md R72 (decisions D2, D5, D6, D46): a listed selector with operands of its types is an instruction,
and with an operand that does not fit its type it is refused OperandType, before any event. Not R72's own words: that
a wrong number of operands is refused so too (log 4), and that a coordinate is bounded by another COORD_BITS than 16
(log 22), a width of 0 as a width of 1 (log 24). -/
def Obligations.OperandsMustFitTheirTypes : Prop :=
  ∀ (bits : Nat) (op : Byte) (args : List Operand), op.toNat ∈ listedSelectors →
    (operandsFit bits op args → ∃ i, decode bits (.hostOp op args) = .ok i)
      ∧ (¬ operandsFit bits op args →
          decode bits (.hostOp op args) = .error .operandType
            ∧ ∀ s : State, s.running → s.cfg.coordBits = bits → s.pending.head? = some (.hostOp op args) →
                step s = .refused (.operandType { s with refused := some .operandType }))

/-- 30_encoding.md R74: bit 16 of a display cycle's word is RS, bits 15..0 are DB. -/
def Obligations.BusCycleWordIsRsAndDb : Prop :=
  ∀ (bits : Nat) (w : BitVec 17),
    decode bits (.busCycle w) =
      .ok (if w.getLsbD 16 = false then .buscycCmd (w.setWidth 16) else .buscycData (w.setWidth 16))

/-- 30_encoding.md R75: the two touch command bytes. R76 and 41_touch.md R121 (decision D11) refuse every other byte
of TOUCH.READCH; that a bare byte is refused TouchCommand in the same way is the model's choice (log 7). -/
def Obligations.TouchCommandBytes : Prop :=
  ∀ (bits : Nat) (b : Byte),
    (b = 0x90 → decode bits (.touchCommand b) = .ok .tcmdY)
      ∧ (b = 0xD0 → decode bits (.touchCommand b) = .ok .tcmdX)
      ∧ (b ≠ 0x90 → b ≠ 0xD0 →
          decode bits (.touchCommand b) = .error .touchCommand
            ∧ ∀ s : State, s.running → s.pending.head? = some (.touchCommand b) →
                step s = .refused (.touchCommand { s with refused := some .touchCommand }))

/-- Words written out from 30_encoding.md R80, R74 and R75, one for each family. -/
def Obligations.WrittenOutWordsDecode : Prop :=
  decode COORD_BITS_DEFAULT (.hostOp 0x01#8 [.num 0x1234]) = .ok (.busWrcmd 0x1234)
    ∧ decode COORD_BITS_DEFAULT (.hostOp 0x14#8 [.num 0x800, .num 0x5A3]) = .ok (.touchCal 0x800 0x5A3)
    ∧ decode COORD_BITS_DEFAULT (.hostOp 0x21#8 [.num 0x20, .num 5]) = .ok (.dispWrreg 0x20 5)
    ∧ decode COORD_BITS_DEFAULT (.hostOp 0x31#8 [.num 0, .num 0, .num (-3), .num 3, .num 0xFFFF]) = .ok (.rastLine 0 0 (-3) 3 0xFFFF)
    ∧ decode COORD_BITS_DEFAULT (.hostOp 0x41#8 [.num 10, .num 20, .num 1, .num 0xFFFF, .num 0, .text [0x41, 0x42, 0x00, 0x43]])
        = .ok (.textString 10 20 1 0xFFFF 0 [0x41, 0x42, 0x00, 0x43])
    ∧ decode COORD_BITS_DEFAULT (.hostOp 0x51#8 []) = .ok .statClr
    ∧ decode COORD_BITS_DEFAULT (.busCycle 0x11234#17) = .ok (.buscycData 0x1234)
    ∧ decode COORD_BITS_DEFAULT (.touchCommand 0xD0) = .ok .tcmdX

/-! ## Steps -/

/-- 00_scope.md R8, 10_state.md R22, 60_exceptions.md R220 (decisions D1, D4): a step runs the instruction of the next
word; where it completes the word is retired, and k rises by 1 for a host operation (log 5) and not for a bare word
(log 6, log 7); where it faults or is refused so does the step. With nothing presented the block waits
(70_reset_and_hazards.md R243). -/
def Obligations.StepRunsDecodedInstruction : Prop :=
  (∀ (s : State) (p : Packet) (rest : List Packet) (i : Instr),
      s.running → s.pending = p :: rest → decode s.cfg.coordBits p = .ok i →
        (∀ t, exec i s = .next t →
            step s = .next { t with pending := rest, k := if p.isHostOp then s.k + 1 else s.k })
          ∧ (∀ e, exec i s = .fault e → step s = .fault e)
          ∧ (∀ e, exec i s = .refused e → step s = .refused e))
    ∧ ∀ s : State, s.running → s.pending = [] → step s = .next s

/-- 60_exceptions.md R220, R229: a block that has faulted or been refused takes no further step and stays as it is
(log 9). -/
def Obligations.StoppedBlockTakesNoStep : Prop :=
  (∀ (s : State) (r : FaultRecord), s.fault = some r → step s = .fault (Fault.of r s))
    ∧ ∀ (s : State) (r : RefusalReason), s.fault = none → s.refused = some r → step s = .refused (Refusal.of r s)

/-! ## Bus operations -/

/-- 40_bus.md R101, R102, 42_display.md R151: BUS.WRCMD makes the seven events of Cycle(0, addr), leaves the lines as
R101 says, sets P.IR, and changes nothing else. The selector is decision D2, the D_RD drive and the 0 then 1 strobe
decision D16. BUSCYC.CMD (30_encoding.md R74) is the same cycle; that a bare bus word makes the whole of it is the
model's choice (log 6). -/
def Obligations.CommandCyclesSetIndexRegister : Prop :=
  ∀ (addr : Word) (s : State),
    encode (.busWrcmd addr) = .hostOp 0x01#8 [.num (addr.toNat : Int)]
      ∧ exec (.busWrcmd addr) s =
          .next { s with
            lines := { s.lines with
              dRd := some 1#1, dRs := some 0#1, dCs := some 1#1, dDb := some addr, dWr := some 1#1 }
            events := [.drive .dRd 1#1, .drive .dRs 0#1, .drive .dCs 0#1, .driveDb addr, .drive .dWr 0#1,
              .drive .dWr 1#1, .drive .dCs 1#1].reverse ++ s.events
            panel := { s.panel with ir := some addr } }
      ∧ exec (.buscycCmd addr) s = .next { cycleDone 0#1 addr s with panel := { s.panel with ir := some addr } }

/-- 42_display.md R151: PanelCycle(0, v) sets P.IR and changes nothing else; with P.IR at REG_GRAM_WRITE every data cycle
is a pixel write, and P.IR stays there, so that the next one is a pixel write too. -/
def Obligations.PanelCommandSelectsRegister : Prop :=
  ∀ (inInit : Bool) (v : Word) (s : State),
    panelCycle inInit 0#1 v s = .next { s with panel := { s.panel with ir := some v } }
      ∧ (s.panel.ir = some s.cfg.regGramWrite →
        panelCycle inInit 1#1 v s = pixelWrite v s
          ∧ ∀ t, panelCycle inInit 1#1 v s = .next t → t.panel.ir = some t.cfg.regGramWrite)

/-- 42_display.md R150 (derived there): in every cycle the panel latches at the sixth event, D_WR rising while D_CS is
0 and D_RD is 1, with register-select and the bus holding the cycle's words, and no earlier or later drive of the
cycle latches. -/
def Obligations.CycleLatchesOnce : Prop :=
  ∀ (rs : Level) (v : Word) (s : State),
    let s1 := drive .dRd 1#1 s
    let s2 := drive .dRs rs s1
    let s3 := drive .dCs 0#1 s2
    let s4 := driveDb v s3
    let s5 := drive .dWr 0#1 s4
    let s6 := drive .dWr 1#1 s5
    let s7 := drive .dCs 1#1 s6
    latched s5.lines s6.lines = some (rs, v)
      ∧ latched s.lines s1.lines = none ∧ latched s1.lines s2.lines = none ∧ latched s2.lines s3.lines = none
      ∧ latched s3.lines s4.lines = none ∧ latched s4.lines s5.lines = none ∧ latched s6.lines s7.lines = none

/-- 40_bus.md R105, R109: BUS.SETCLK drives the touch clock, BUS.SETTLE appends one Settle event, and nothing else
changes. The specification's own decisions are the two selectors of 30_encoding.md R80 (D2) and that there is a
BUS.SETTLE at all (D15). -/
def Obligations.ClockAndSettleDriveOneLine : Prop :=
  ∀ (level : Level) (s : State),
    encode (.busSetclk level) = .hostOp 0x04#8 [.num (level.toNat : Int)] ∧ encode .busSettle = .hostOp 0x08#8 []
      ∧ exec (.busSetclk level) s =
        .next { s with lines := { s.lines with tClk := some level }, events := .drive .tClk level :: s.events }
      ∧ exec .busSettle s = .next { s with events := .settle :: s.events }

/-- 40_bus.md R104, R108, 41_touch.md R124: BUS.RDBIT and BUS.RDPEN return the level drawn, TOUCH.PEN whether it is
PEN_ACTIVE; each appends one Sample event and changes nothing else. How the model holds the draws (`nextLevel`,
`afterDraws`) is log 10's. The specification's own decisions are the three selectors (D2) and that there is a BUS.RDPEN
(D15). -/
def Obligations.SamplesReturnTheLineLevel : Prop :=
  ∀ s : State,
    (encode .busRdbit = .hostOp 0x03#8 [] ∧ encode .busRdpen = .hostOp 0x07#8 []
        ∧ encode .touchPen = .hostOp 0x13#8 [])
      ∧ exec .busRdbit s =
        .next { s with
          events := .sample .tDout :: s.events
          env := s.env.afterDraws .tDout 1
          returned := some (.lvl (s.env.nextLevel .tDout 0)) }
      ∧ exec .busRdpen s =
        .next { s with
          events := .sample .tPen :: s.events
          env := s.env.afterDraws .tPen 1
          returned := some (.lvl (s.env.nextLevel .tPen 0)) }
      ∧ exec .touchPen s =
        .next { s with
          events := .sample .tPen :: s.events
          env := s.env.afterDraws .tPen 1
          returned := some (.lvl (if s.env.nextLevel .tPen 0 = s.cfg.penActive then 1#1 else 0#1)) }

/-- 40_bus.md R103, 42_display.md R153, R154 (decision D21), and for BUSCYC.DATA log 6: a data cycle with an on-panel
value writes the window or cursor register that P.IR names. -/
def Obligations.DataCycleWritesRegister : Prop :=
  ∀ (i : Instr) (a v : Word) (s : State), isDataCycle i v → s.cfg.valid = true → s.panel.ir = some a →
    onPanelFor s.cfg a v →
      ∃ t, exec i s = .next t ∧ registerWritten a v s t ∧ t.panel.ir = some a
        ∧ t.lines = s.lines.afterCycle 1#1 v ∧ emitted (cycleEvents 1#1 v) s t ∧ sameButDisplay s t

/-- 40_bus.md R103, 42_display.md R155, R156 (decision D20), and for BUSCYC.DATA log 6: in GRAM write mode a data cycle
writes the cell at the cursor and advances the cursor. -/
def Obligations.DataCycleWritesPixel : Prop :=
  ∀ (i : Instr) (v : Word) (w : Window) (s : State), isDataCycle i v → s.panel.ir = some s.cfg.regGramWrite →
    pixelReady s w →
      ∃ t, exec i s = .next t ∧ pixelWritten w v s t ∧ t.panel.ir = s.panel.ir
        ∧ t.lines = s.lines.afterCycle 1#1 v ∧ emitted (cycleEvents 1#1 v) s t ∧ sameButDisplay s t

/-- 40_bus.md R103, 42_display.md R152 to R154, R157, R158 (decisions D21, D22): where a data cycle stops. The seven
events of a cycle that faults stay (log 8). A refusal comes before any event, by 60_exceptions.md R227 step 4 for
BUS.WRDATA; that BUSCYC.DATA makes the whole cycle and is refused before any event too is the model's choice (log 6),
and so is the `k` that its faults record (log 23). -/
def Obligations.DataCycleStops : Prop :=
  ∀ (i : Instr) (v : Word) (s : State), isDataCycle i v →
    (s.panel.ir = none →
        exec i s = .fault (.indexUnset { cycleDone 1#1 v s with fault := some (.indexUnset s.k v) }))
      ∧ (∀ a, s.panel.ir = some a → s.cfg.valid = true → offPanelFor s.cfg a v →
        exec i s = .fault (.panelValueRange { cycleDone 1#1 v s with fault := some (.panelValueRange s.k a v) }))
      ∧ (s.panel.ir = some s.cfg.regGramWrite → pixelNotReady s →
        exec i s = .fault (.pixelOutsideWindow { cycleDone 1#1 v s with
          fault := some (.pixelOutsideWindow s.k s.hsa s.hea s.vsa s.vea s.panel.cx s.panel.cy) }))
      ∧ (∀ a, s.panel.ir = some a → a ∉ s.cfg.knownRegs →
        exec i s = .refused (.opaqueRegister { s with refused := some .opaqueRegister }))

/-! ## Touch operations -/

/-- 40_bus.md R106, R107, 41_touch.md R120: BUS.SETCS and BUS.SETDIN drive one touch line each, TOUCH.START drives the
three idle levels, and nothing else changes. The specification's own decisions are that BUS.SETCS drives the touch
chip-select and what the idle levels are (D7), and BUS.SETDIN itself (D15). -/
def Obligations.TouchLinesAreDriven : Prop :=
  ∀ (level : Level) (s : State),
    exec (.busSetcs level) s =
        .next { s with lines := { s.lines with tCs := some level }, events := .drive .tCs level :: s.events }
      ∧ exec (.busSetdin level) s =
        .next { s with lines := { s.lines with tDin := some level }, events := .drive .tDin level :: s.events }
      ∧ exec .touchStart s =
        .next { s with
          lines := { s.lines with tCs := some 1#1, tClk := some 0#1, tDin := some 0#1 }
          events := [.drive .tCs 1#1, .drive .tClk 0#1, .drive .tDin 0#1].reverse ++ s.events }

/-- 41_touch.md R121, R122, 20_memory.md R53 (decisions D8, D9): with the chip selected and the clock low TOUCH.READCH
makes the events of Conv(cmd) and returns the twelve bits drawn, MSB first; nothing else changes. -/
def Obligations.ReadChannelReturnsSampledBits : Prop :=
  ∀ (cmd : Byte) (s : State), cmd = 0x90 ∨ cmd = 0xD0 → touchReady s →
    ∃ v, spells s.env 0 v ∧ exec (.touchReadch cmd) s = .next (converted cmd v s)

/-- 41_touch.md R121, 60_exceptions.md R227 (decisions D10, D11): where TOUCH.READCH stops, in order, before any event;
a line that is unset is not at the level required. -/
def Obligations.ReadChannelStops : Prop :=
  ∀ (cmd : Byte) (s : State),
    (cmd ≠ 0x90 → cmd ≠ 0xD0 →
        exec (.touchReadch cmd) s = .refused (.touchCommand { s with refused := some .touchCommand }))
      ∧ (cmd = 0x90 ∨ cmd = 0xD0 → s.lines.tCs ≠ some 0#1 →
        exec (.touchReadch cmd) s = .fault (.touchNotSelected { s with fault := some (.touchNotSelected s.k) }))
      ∧ (cmd = 0x90 ∨ cmd = 0xD0 → s.lines.tCs = some 0#1 → s.lines.tClk ≠ some 0#1 →
        exec (.touchReadch cmd) s = .fault (.touchClockState { s with fault := some (.touchClockState s.k) }))

/-- 30_encoding.md R75, 41_touch.md R121: TCMD.Y and TCMD.X run the conversion they request, with its checks. That a
bare command byte does so is the model's choice (log 7), and so is the `k` that its faults record (log 23). -/
def Obligations.TouchCommandByteConverts : Prop :=
  ∀ (i : Instr) (cmd : Byte) (s : State), (i = .tcmdY ∧ cmd = 0x90) ∨ (i = .tcmdX ∧ cmd = 0xD0) →
    (touchReady s → ∃ v, spells s.env 0 v ∧ exec i s = .next (converted cmd v s))
      ∧ (s.lines.tCs ≠ some 0#1 →
        exec i s = .fault (.touchNotSelected { s with fault := some (.touchNotSelected s.k) }))
      ∧ (s.lines.tCs = some 0#1 → s.lines.tClk ≠ some 0#1 →
        exec i s = .fault (.touchClockState { s with fault := some (.touchClockState s.k) }))

/-- 41_touch.md R123 (decision D12): TOUCH.READPOS brackets a Y and then an X conversion between chip-select 0 and 1,
returns (rx, ry) raw, and changes nothing else; it faults TouchClockState, before any event, unless the clock is
low. -/
def Obligations.ReadPositionReturnsBothChannels : Prop :=
  ∀ s : State,
    (s.lines.tClk = some 0#1 →
      ∃ rx ry, spells s.env 0 ry ∧ spells s.env 12 rx
        ∧ exec .touchReadpos s =
          .next { s with
            lines := { s.lines with tCs := some 1#1, tClk := some 0#1, tDin := some 0#1 }
            events := ([Event.drive .tCs 0#1, Event.settle] ++ conversionEvents s.cfg.touchGapClocks 0x90
              ++ conversionEvents s.cfg.touchGapClocks 0xD0 ++ [Event.drive .tCs 1#1, Event.settle]).reverse ++ s.events
            env := s.env.afterDraws .tDout 24
            returned := some (.rawPair rx ry) })
      ∧ (s.lines.tClk ≠ some 0#1 →
        exec .touchReadpos s = .fault (.touchClockState { s with fault := some (.touchClockState s.k) }))

/-- 41_touch.md R125, R126 (decisions D13, D45): TOUCH.CAL returns the calibrated pair, not clamped, without an event;
in the default form by truncating division, and otherwise the value the configuration gives. -/
def Obligations.CalibrationMapsRawToScreen : Prop :=
  ∀ (rx ry : Raw) (s : State),
    ∃ sx sy : Int, exec (.touchCal rx ry) s = .next { s with returned := some (.intPair sx sy) }
      ∧ (∀ off scale, s.cfg.calX = .linear off scale → scale ≠ 0 → sx = Int.tdiv ((rx.toNat : Int) - off) scale)
      ∧ (∀ off scale, s.cfg.calY = .linear off scale → scale ≠ 0 → sy = Int.tdiv ((ry.toNat : Int) - off) scale)
      ∧ (∀ vs, s.cfg.calX = .table vs → vs.length = 4096 → vs[rx.toNat]? = some sx)
      ∧ (∀ vs, s.cfg.calY = .table vs → vs.length = 4096 → vs[ry.toNat]? = some sy)

/-! ## Display operations -/

/-- 42_display.md R145, R158 (decision D22): DISP.INIT sends INIT_SEQ, each pair as an index and a value cycle, opaque
indices included, and sets S.initDone; it may be issued at any time. Stated for a sequence whose pairs the panel
accepts whatever came before. -/
def Obligations.InitSendsSequence : Prop :=
  ∀ s : State, s.cfg.valid = true → (∀ p ∈ s.cfg.initSeq, acceptable s.cfg p) →
    ∃ t, exec .dispInit s = .next t ∧ t.initDone = true
      ∧ emitted (cyclesEvents (pairsCycles s.cfg.initSeq)) s t
      ∧ (∀ a, t.panel.regAt a = (lastValue s.cfg.initSeq a).or (s.panel.regAt a))
      ∧ t.panel.ir = (s.cfg.initSeq.getLast?.map Prod.fst).or s.panel.ir
      ∧ t.panel.cx = ((lastValue s.cfg.initSeq s.cfg.regGramX).map BitVec.toNat).or s.panel.cx
      ∧ t.panel.cy = ((lastValue s.cfg.initSeq s.cfg.regGramY).map BitVec.toNat).or s.panel.cy
      ∧ t.lines = (match s.cfg.initSeq.getLast? with
          | none => s.lines
          | some p => s.lines.afterCycle 1#1 p.2)
      ∧ sameGram s t ∧ sameControl s t ∧ t.status = s.status ∧ t.returned = s.returned ∧ t.env = s.env

/-- 42_display.md R145, R158 (decision D22), for every sequence: an empty one only sets S.initDone, and one with a
pair more at its end does what it did without the pair and then writes that pair: the register, opaque ones included,
or the pixel at the cursor. A last pair that the panel does not accept faults, with the effects before it kept
(60_exceptions.md R220) and S.initDone as it was. That all seven events of the faulting cycle stay is log 8. -/
def Obligations.InitSendsEachPairInOrder : Prop :=
  ∀ (s : State) (before : List (Word × Word)) (a v : Word), s.cfg.valid = true →
    exec .dispInit (withInitSeq [] s) = .next { withInitSeq [] s with initDone := true }
      ∧ ∀ u, exec .dispInit (withInitSeq before s) = .next u →
        let seq := before ++ [(a, v)]
        let u' := withInitSeq seq u
        (acceptable s.cfg (a, v) →
            ∃ t, exec .dispInit (withInitSeq seq s) = .next t ∧ registerWritten a v u' t ∧ t.panel.ir = some a
              ∧ t.lines = u.lines.afterCycle 1#1 v ∧ emitted (cyclesEvents [(0#1, a), (1#1, v)]) u t
              ∧ sameButDisplay u' t)
          ∧ (∀ w, a = s.cfg.regGramWrite → pixelReady u w →
            ∃ t, exec .dispInit (withInitSeq seq s) = .next t ∧ pixelWritten w v u' t ∧ t.panel.ir = some a
              ∧ t.lines = u.lines.afterCycle 1#1 v ∧ emitted (cyclesEvents [(0#1, a), (1#1, v)]) u t
              ∧ sameButDisplay u' t)
          ∧ (offPanelFor s.cfg a v →
            exec .dispInit (withInitSeq seq s) =
              .fault (.panelValueRange { wrregDone a v u' with
                initDone := s.initDone, fault := some (.panelValueRange s.k a v) }))
          ∧ (a = s.cfg.regGramWrite → pixelNotReady u →
            exec .dispInit (withInitSeq seq s) =
              .fault (.pixelOutsideWindow { wrregDone a v u' with
                initDone := s.initDone
                fault := some (.pixelOutsideWindow s.k u.hsa u.hea u.vsa u.vea u.panel.cx u.panel.cy) }))

/-- 42_display.md R140, R153, R154 (decisions D18, D21): DISP.WRREG of a window or cursor register with an on-panel
value. -/
def Obligations.WriteRegisterWritesKnownRegister : Prop :=
  ∀ (a v : Word) (s : State), drawReady s → onPanelFor s.cfg a v →
    ∃ t, exec (.dispWrreg a v) s = .next t ∧ registerWritten a v s t ∧ t.panel.ir = some a
      ∧ t.lines = s.lines.afterCycle 1#1 v ∧ emitted (cyclesEvents [(0#1, a), (1#1, v)]) s t ∧ sameButDisplay s t

/-- 42_display.md R140: with addr = REG_GRAM_WRITE the value phase of DISP.WRREG is a pixel write at the cursor. -/
def Obligations.WriteRegisterWritesPixel : Prop :=
  ∀ (v : Word) (w : Window) (s : State), drawReady s → pixelReady s w →
    ∃ t, exec (.dispWrreg s.cfg.regGramWrite v) s = .next t ∧ pixelWritten w v s t
      ∧ t.panel.ir = some s.cfg.regGramWrite ∧ t.lines = s.lines.afterCycle 1#1 v
      ∧ emitted (cyclesEvents [(0#1, s.cfg.regGramWrite), (1#1, v)]) s t ∧ sameButDisplay s t

/-- 42_display.md R140, R153, R154, R157: where DISP.WRREG stops: an opaque index is refused before any event, an
off-panel value and a pixel without a window fault at the value cycle, whose index cycle has set P.IR. The fourteen
events stay (log 8). -/
def Obligations.WriteRegisterStops : Prop :=
  ∀ (a v : Word) (s : State), s.initDone = true →
    (a ∉ s.cfg.knownRegs →
        exec (.dispWrreg a v) s = .refused (.opaqueRegister { s with refused := some .opaqueRegister }))
      ∧ (s.cfg.valid = true → offPanelFor s.cfg a v →
        exec (.dispWrreg a v) s =
          .fault (.panelValueRange { wrregDone a v s with fault := some (.panelValueRange s.k a v) }))
      ∧ (a = s.cfg.regGramWrite → pixelNotReady s →
        exec (.dispWrreg a v) s =
          .fault (.pixelOutsideWindow { wrregDone a v s with
            fault := some (.pixelOutsideWindow s.k s.hsa s.hea s.vsa s.vea s.panel.cx s.panel.cy) }))

/-- 42_display.md R141 (decision D19): a window that is ordered and on the panel is programmed, the cursor is reset to
(x1, y1), and the panel is in GRAM write mode; thirteen cycles. -/
def Obligations.SetWindowProgramsWindow : Prop :=
  ∀ (x1 y1 x2 y2 : Nat) (s : State), drawReady s → x1 ≤ x2 → x2 ≤ 239 → y1 ≤ y2 → y2 ≤ 319 →
    ∃ t, exec (.dispSetwin x1 y1 x2 y2) s = .next t ∧ windowAt t x1 x2 y1 y2 x1 y1
      ∧ t.panel.regAt s.cfg.regGramX = some (BitVec.ofNat 16 x1)
      ∧ t.panel.regAt s.cfg.regGramY = some (BitVec.ofNat 16 y1)
      ∧ emitted (cyclesEvents (windowCycles s.cfg (BitVec.ofNat 16 x1) (BitVec.ofNat 16 y1) (BitVec.ofNat 16 x2)
          (BitVec.ofNat 16 y2))) s t
      ∧ t.lines = s.lines.afterCycle 0#1 s.cfg.regGramWrite ∧ sameGram s t
      ∧ sameRegsBut (windowRegs s.cfg) s t ∧ sameButDisplay s t

/-- 42_display.md R141 (decision D19): an inverted or off-panel window faults WindowInvalid before any event. -/
def Obligations.SetWindowRejectsInvalidWindow : Prop :=
  ∀ (x1 y1 x2 y2 : Int) (s : State), s.initDone = true →
    ¬ (0 ≤ x1 ∧ x1 ≤ x2 ∧ x2 ≤ 239 ∧ 0 ≤ y1 ∧ y1 ≤ y2 ∧ y2 ≤ 319) →
      exec (.dispSetwin x1 y1 x2 y2) s =
        .fault (.windowInvalid { s with fault := some (.windowInvalid s.k x1 y1 x2 y2) })

/-- 42_display.md R142, R155, R156 (decisions D20, D21): DISP.WRPIX writes the cell at the cursor and advances the
cursor; where it stops. The seven events of a cycle that faults stay (log 8). -/
def Obligations.WritePixelWritesAtCursor : Prop :=
  ∀ (color : Word) (s : State), s.initDone = true →
    (∀ w, s.panel.ir = some s.cfg.regGramWrite → pixelReady s w →
        ∃ t, exec (.dispWrpix color) s = .next t ∧ pixelWritten w color s t ∧ t.panel.ir = s.panel.ir
          ∧ t.lines = s.lines.afterCycle 1#1 color ∧ emitted (cycleEvents 1#1 color) s t ∧ sameButDisplay s t)
      ∧ (s.panel.ir ≠ some s.cfg.regGramWrite →
        exec (.dispWrpix color) s =
          .fault (.notInWriteMode { s with fault := some (.notInWriteMode s.k s.panel.ir) }))
      ∧ (s.panel.ir = some s.cfg.regGramWrite → pixelNotReady s →
        exec (.dispWrpix color) s =
          .fault (.pixelOutsideWindow { cycleDone 1#1 color s with
            fault := some (.pixelOutsideWindow s.k s.hsa s.hea s.vsa s.vea s.panel.cx s.panel.cy) }))

/-- 42_display.md R156 (derived there), for either AUTOINC: as many pixel writes as the window has cells, from its
start, give every cell of the window the colour, leave every other cell, and bring the cursor back to the start; the
events are one data cycle for each. -/
def Obligations.PixelSweepFillsWindow : Prop :=
  ∀ (color : Word) (w : Window) (s : State), s.panel.ir = some s.cfg.regGramWrite → pixelReady s w →
    w.cx = w.hsa → w.cy = w.vsa →
      ∃ t, repeatPixel color ((w.hea - w.hsa + 1) * (w.vea - w.vsa + 1)) s = .next t
        ∧ (∀ x yd, x < WIDTH → yd < HEIGHT →
            t.panel.gramAt x yd =
              if w.hsa ≤ x ∧ x ≤ w.hea ∧ w.vsa ≤ yd ∧ yd ≤ w.vea then some color else s.panel.gramAt x yd)
        ∧ windowAt t w.hsa w.hea w.vsa w.vea w.hsa w.vsa
        ∧ emitted (List.replicate ((w.hea - w.hsa + 1) * (w.vea - w.vsa + 1)) (cycleEvents 1#1 color)).flatten s t
        ∧ t.lines = s.lines.afterCycle 1#1 color ∧ sameRegsBut [] s t ∧ sameButDisplay s t

/-- 42_display.md R143: DISP.FILL gives every GRAM cell the colour; the window is the whole panel and the cursor is
back at (0, 0), for either AUTOINC; 76 813 cycles. -/
def Obligations.FillPaintsWholePanel : Prop :=
  ∀ (color : Word) (s : State), drawReady s →
    ∃ t, exec (.dispFill color) s = .next t
      ∧ (∀ x yd, x < WIDTH → yd < HEIGHT → t.panel.gramAt x yd = some color)
      ∧ windowAt t 0 239 0 319 0 0
      ∧ emitted (cyclesEvents (windowCycles s.cfg 0 0 239 319)
          ++ (List.replicate 76800 (cycleEvents 1#1 color)).flatten) s t
      ∧ t.lines = s.lines.afterCycle 1#1 color
      ∧ sameRegsBut (windowRegs s.cfg) s t ∧ sameButDisplay s t

/-- 10_state.md R27 (decision D23): before DISP.INIT every DISP.* operation but DISP.INIT, every RAST.* and every
TEXT.* operation is refused PanelNotInitialised, and nothing but S.refused changes; no other operation ever is. -/
def Obligations.DrawingNeedsInit : Prop :=
  ∀ (i : Instr) (s : State),
    (needsInit i = true → s.initDone = false →
        exec i s = .refused (.panelNotInitialised { s with refused := some .panelNotInitialised }))
      ∧ (needsInit i = false → ∀ t, exec i s ≠ .refused (.panelNotInitialised t))

/-! ## Rasterizer -/

/-- 43_raster.md R170, R171 (decisions D24, D25): an in-bounds pixel lands on device cell (x, 319 − y), and the window
is that one cell; every other cell is as before. -/
def Obligations.PixelInBoundsWritesOneCell : Prop :=
  ∀ (x y : Nat) (color : Word) (s : State), drawReady s → x ≤ 239 → y ≤ 319 →
    ∃ t, exec (.rastPixel x y color) s = .next t
      ∧ (∀ x' yd, x' < WIDTH → yd < HEIGHT →
          t.panel.gramAt x' yd = if x' = x ∧ yd = 319 - y then some color else s.panel.gramAt x' yd)
      ∧ windowAt t x x (319 - y) (319 - y) x (319 - y)
      ∧ emitted (cyclesEvents (windowCycles s.cfg (BitVec.ofNat 16 x) (BitVec.ofNat 16 (319 - y)) (BitVec.ofNat 16 x)
          (BitVec.ofNat 16 (319 - y)) ++ [(1#1, color)])) s t
      ∧ t.lines = s.lines.afterCycle 1#1 color
      ∧ sameRegsBut (windowRegs s.cfg) s t ∧ sameButDisplay s t

/-- 43_raster.md R171: "out-of-bounds is a silent no-op": no event and no change. -/
def Obligations.PixelOutOfBoundsDoesNothing : Prop :=
  ∀ (x y : Int) (color : Word) (s : State), s.initDone = true → ¬ (0 ≤ x ∧ x ≤ 239 ∧ 0 ≤ y ∧ y ≤ 319) →
    exec (.rastPixel x y color) s = .next s

/-- 43_raster.md R172 (decision D26): RAST.LINE calls RAST.PIXEL on the points of the line, in order, and changes
nothing else. -/
def Obligations.LineDrawsItsPoints : Prop :=
  ∀ (x1 y1 x2 y2 : Int) (color : Word) (s : State), drawReady s →
    ∃ t, exec (.rastLine x1 y1 x2 y2 color) s = .next t
      ∧ drawn ((linePoints x1 y1 x2 y2).map fun p => { x := p.1, y := p.2, color := color }) s t ∧ sameButDisplay s t

/-- 43_raster.md R172, R173 (d) (decision D26): swapping the endpoints changes nothing at all. -/
def Obligations.LineIsDirectionSymmetric : Prop :=
  ∀ (x1 y1 x2 y2 : Int) (color : Word) (s : State),
    exec (.rastLine x1 y1 x2 y2 color) s = exec (.rastLine x2 y2 x1 y1 color) s

/-- 43_raster.md R173 (c) (derived there from R172): the points of an x-major line, in order: one for each x, y the
nearest integer to the ideal line with a half broken toward the start, as ⌈(2·dy·n − dx) / (2·dx)⌉ steps. -/
def Obligations.XMajorLineClosedForm : Prop :=
  ∀ x1 y1 x2 y2 : Int, x1 < x2 → |y2 - y1| ≤ x2 - x1 →
    linePoints x1 y1 x2 y2 =
      (List.range ((x2 - x1).toNat + 1)).map fun (n : Nat) =>
        (x1 + (n : Int), y1 + (if y1 ≤ y2 then 1 else -1)
          * (-((x2 - x1 - 2 * |y2 - y1| * (n : Int)) / (2 * (x2 - x1)))))

/-- 43_raster.md R173 (c) (derived there from R172): the points of a y-major line, in order. -/
def Obligations.YMajorLineClosedForm : Prop :=
  ∀ x1 y1 x2 y2 : Int, y1 < y2 → |x2 - x1| < y2 - y1 →
    linePoints x1 y1 x2 y2 =
      (List.range ((y2 - y1).toNat + 1)).map fun (n : Nat) =>
        (x1 + (if x1 ≤ x2 then 1 else -1) * (-((y2 - y1 - 2 * |x2 - x1| * (n : Int)) / (2 * (y2 - y1)))),
          y1 + (n : Int))

/-- 43_raster.md R173 (a), (b) (derived there from R172): both endpoints are plotted, and max(|x2 − x1|, |y2 − y1|) + 1
distinct points. -/
def Obligations.LinePlotsBothEndpoints : Prop :=
  ∀ x1 y1 x2 y2 : Int,
    (x1, y1) ∈ linePoints x1 y1 x2 y2 ∧ (x2, y2) ∈ linePoints x1 y1 x2 y2 ∧ (linePoints x1 y1 x2 y2).Nodup
      ∧ (linePoints x1 y1 x2 y2).length = max (x2 - x1).natAbs (y2 - y1).natAbs + 1

/-- 43_raster.md R174 (decision D27): the in-bounds part of the scale×scale block at (x, y) holds the colour, every
other cell is as before; a scale of 0 changes nothing. -/
def Obligations.BlockFillsSquare : Prop :=
  ∀ (x y : Int) (color : Word) (scale : Nat) (s : State), drawReady s →
    ∃ t, exec (.rastBlock x y color scale) s = .next t
      ∧ (∀ x' yd, x' < WIDTH → yd < HEIGHT →
          t.panel.gramAt x' yd =
            if x ≤ (x' : Int) ∧ (x' : Int) < x + scale ∧ y ≤ 319 - (yd : Int) ∧ 319 - (yd : Int) < y + scale
            then some color else s.panel.gramAt x' yd)
      ∧ drawn (blockDots x y color scale) s t ∧ sameButDisplay s t ∧ (scale = 0 → t = s)

/-! ## Text -/

/-- 44_text.md R190, R191, 20_memory.md R54 (decision D28): the glyph bit of a character in the font is bit r of its
font byte 4 − k, or k where GLYPH_COL_REVERSED is false. -/
def Obligations.GlyphBitsComeFromFont : Prop :=
  ∀ (c : Config) (ch : Byte) (k r : Nat), c.valid = true → 0x20 ≤ ch.toNat → ch.toNat - 0x20 < c.fontCount →
    k ≤ 4 →
      inFont c ch = true
        ∧ ∃ entry b, c.font[ch.toNat - 0x20]? = some entry
            ∧ entry[if c.glyphColReversed then 4 - k else k]? = some b ∧ glyphBit c ch k r = b.getLsbD r

/-- 44_text.md R192: a character in the font fills its 5·scale × 8·scale rectangle, cell block by cell block, in fg
where the glyph bit is set and in bg where it is not; every other cell is as before, STATUS too. -/
def Obligations.CharacterDrawsGlyph : Prop :=
  ∀ (x y : Int) (scale : Nat) (fg bg : Word) (ch : Byte) (s : State), drawReady s → 0x20 ≤ ch.toNat →
    ch.toNat - 0x20 < s.cfg.fontCount →
      ∃ t, exec (.textChar x y scale fg bg ch) s = .next t
        ∧ (∀ x' yd k r : Nat, x' < WIDTH → yd < HEIGHT → k ≤ 4 → r ≤ 7 →
            x + k * scale ≤ x' → (x' : Int) < x + (k + 1) * scale →
            y + r * scale ≤ 319 - (yd : Int) → 319 - (yd : Int) < y + (r + 1) * scale →
              t.panel.gramAt x' yd = some (if glyphBit s.cfg ch k r then fg else bg))
        ∧ (∀ x' yd : Nat, x' < WIDTH → yd < HEIGHT →
            ¬ (x ≤ (x' : Int) ∧ (x' : Int) < x + 5 * scale ∧ y ≤ 319 - (yd : Int)
              ∧ 319 - (yd : Int) < y + 8 * scale) →
              t.panel.gramAt x' yd = s.panel.gramAt x' yd)
        ∧ drawn (charDots s.cfg x y scale fg bg ch) s t ∧ sameButDisplay s t

/-- 44_text.md R192, 60_exceptions.md R223 (decision D29): a character outside the font draws nothing, emits nothing and
sets STATUS bit 0; the operation completes. -/
def Obligations.CharacterOutsideFontSetsStatus : Prop :=
  ∀ (x y : Int) (scale : Nat) (fg bg : Word) (ch : Byte) (s : State), s.initDone = true →
    (ch.toNat < 0x20 ∨ s.cfg.fontCount ≤ ch.toNat - 0x20) →
      exec (.textChar x y scale fg bg ch) s = .next { s with status := s.status ||| 0x01#8 }

/-- 44_text.md R193 (decision D46 for the end of the text): TEXT.STRING draws the characters up to the first byte
outside 0x20..0x7F or the end, character n at x + 6·n at every scale, in order. -/
def Obligations.StringDrawsPrintablePrefix : Prop :=
  ∀ (x y : Int) (scale : Nat) (fg bg : Word) (text : List Byte) (s : State), drawReady s →
    ∃ t, exec (.textString x y scale fg bg text) s = .next t
      ∧ placesDrawn x y scale fg bg
          (text.takeWhile fun b => decide (0x20 ≤ b.toNat ∧ b.toNat ≤ 0x7F)).zipIdx s t

/-- 44_text.md R194 (decision D32): TEXT.STRREV draws the printable prefix reversed, skipping the sentinel, which leaves
a gap or not as SENTINEL_ADVANCES says. -/
def Obligations.ReversedStringSkipsSentinel : Prop :=
  ∀ (x y : Int) (scale : Nat) (fg bg : Word) (text : List Byte) (s : State), drawReady s →
    ∃ t, exec (.textStrrev x y scale fg bg text) s = .next t
      ∧ placesDrawn x y scale fg bg (reversedChars s.cfg text) s t

/-- 44_text.md R195 (derived there): at scale 1 a string leaves a one-pixel gap after each character: column x + 6n + 5
is as before. -/
def Obligations.StringLeavesGapColumn : Prop :=
  ∀ (x y : Int) (fg bg : Word) (text : List Byte) (s t : State) (n x' yd : Nat), drawReady s →
    exec (.textString x y 1 fg bg text) s = .next t → x' < WIDTH → yd < HEIGHT → (x' : Int) = x + 6 * n + 5 →
      t.panel.gramAt x' yd = s.panel.gramAt x' yd

/-! ## Status -/

/-- 45_status.md R210, R211, 10_state.md R25 (decision D33): STAT.RD returns STATUS, bits 7..1 as 0 (log 16), and does
not clear it; STAT.CLR sets STATUS to 0x00; neither changes anything else. -/
def Obligations.StatusReadsAndClears : Prop :=
  ∀ s : State,
    (∃ b : Byte, exec .statRd s = .next { s with returned := some (.byte b) }
        ∧ (b.getLsbD 0 = s.status.getLsbD 0) ∧ (∀ j, 1 ≤ j → b.getLsbD j = false)
        ∧ (s.status &&& 0xFE#8 = 0#8 → b = s.status))
      ∧ exec .statClr s = .next { s with status := 0x00#8 }


/-! ## The whole machine -/

/-- The invariant of the data (Sys2Proof/Safety.lean State.Inv: 10_state.md R25, R29, 20_memory.md R50 and the canonical
form, log 14) is kept by every step, from every state that has it. -/
def Obligations.InvariantIsKeptByEveryStep : Prop :=
  ∀ s t : State, s.Inv → step s = .next t → t.Inv

/-- The state after reset has the invariant; its configuration is a valid one whatever is installed (log 2). -/
def Obligations.InvariantHoldsAtReset : Prop := State.reset.Inv

/-- 70_reset_and_hazards.md R241, R242, 10_state.md R22 (decisions D23, D33, D34, D35): the state after reset. The
values of the model's own fields are left out. -/
def Obligations.ResetState : Prop :=
  State.reset.lines = { dRs := none, dCs := none, dRd := none, dWr := none, dDb := none, tCs := none, tClk := none, tDin := none }
    ∧ State.reset.status = 0x00 ∧ State.reset.fault = none ∧ State.reset.refused = none
    ∧ State.reset.initDone = false ∧ State.reset.events = [] ∧ State.reset.k = 0
    ∧ State.reset.panel.ir = none ∧ (∀ a, State.reset.panel.regAt a = none)
    ∧ State.reset.hsa = none ∧ State.reset.hea = none ∧ State.reset.vsa = none ∧ State.reset.vea = none
    ∧ State.reset.panel.cx = none ∧ State.reset.panel.cy = none
    ∧ ∀ x yd, State.reset.panel.gramAt x yd = none

/-- 00_scope.md R11, 60_exceptions.md R222, R227 step 1: a configuration that breaks R11 is refused ConfigInvalid before
the first operation, and no step runs; any other powers on as R241 and R242 say. That a FONT of another length than
FONT_COUNT and a short table count as invalid is log 3. -/
def Obligations.InvalidConfigurationNeverRuns : Prop :=
  ∀ c : Config,
    (c.valid = true ↔
        ([c.regHsa, c.regHea, c.regVsa, c.regVea, c.regGramX, c.regGramY, c.regGramWrite].Nodup
          ∧ (∀ entry ∈ c.font, entry.length = 5) ∧ c.font.length = c.fontCount ∧ 1 ≤ c.fontCount
          ∧ (∀ off scale, c.calX = .linear off scale → scale ≠ 0)
          ∧ (∀ off scale, c.calY = .linear off scale → scale ≠ 0)
          ∧ (∀ vs, c.calX = .table vs → vs.length = 4096) ∧ (∀ vs, c.calY = .table vs → vs.length = 4096)))
      ∧ (c.valid = false →
          (State.powerOn c).refused = some .configInvalid
            ∧ ∀ ps, step { State.powerOn c with pending := ps } =
                .refused (.configInvalid { State.powerOn c with pending := ps }))
      ∧ (c.valid = true → State.powerOn c = { State.reset with cfg := c })

/-- 10_state.md R22, R26, R32: an operation that completes writes neither the configuration nor the words presented,
and leaves k, S.fault and S.refused as they are (k rises in the step around it, log 5). -/
def Obligations.OperationsLeaveControlAlone : Prop :=
  ∀ (i : Instr) (s t : State), exec i s = .next t → sameControl s t

/-- 10_state.md R28, 20_memory.md R51, R62: every step only appends to S.events, and no event it appends pulses the
read strobe. -/
def Obligations.EventsOnlyGrowAndNeverReadThePanel : Prop :=
  ∀ s t : State, step s = .next t →
    ∃ new, emitted new s t ∧ ∀ v, Event.drive .dRd v ∈ new → v = 1#1

/-- 40_bus.md R101, 41_touch.md R120 to R123, 42_display.md R150: an operation without a display cycle leaves the panel
and the display lines as they are; one that makes display cycles leaves the touch lines, the environment and the
value last returned as they are. -/
def Obligations.OperationsReachTheirOwnLines : Prop :=
  ∀ (i : Instr) (s t : State), exec i s = .next t →
    (noDisplayCycle i = true → t.panel = s.panel ∧ s.lines.sameDisplay t.lines)
      ∧ (noDisplayCycle i = false → s.lines.sameTouch t.lines ∧ t.env = s.env ∧ t.returned = s.returned)

/-- 10_state.md R25, R27: STATUS bit 0 is set by the TEXT.* operations and by nothing else, STATUS is cleared by
STAT.CLR and by nothing else, no operation sets bits 7..1, and DISP.INIT sets S.initDone, which nothing clears. -/
def Obligations.OnlyTextSetsStatusOnlyInitSetsInitDone : Prop :=
  ∀ (i : Instr) (s t : State), exec i s = .next t →
    (isText i = true → t.status = s.status ∨ t.status = s.status ||| 0x01#8)
      ∧ (isText i = false → t.status = if i = .statClr then 0x00#8 else s.status)
      ∧ t.initDone = (s.initDone || decide (i = .dispInit))

/-- 60_exceptions.md R220: where an operation faults, S.fault of the stopped state is the fault raised, the events before
the operation stay, and nothing of the control state but S.fault changes. What the operation itself has done before
the fault is in the statements of the operations that fault after an event: `DataCycleStops`,
`InitSendsEachPairInOrder`, `WriteRegisterStops` and `WritePixelWritesAtCursor`. -/
def Obligations.FaultsKeepEarlierEvents : Prop :=
  ∀ (i : Instr) (s : State) (e : Fault), exec i s = .fault e →
    ∃ r u, e = Fault.of r u ∧ u.fault = some r ∧ (∃ new, emitted new s u)
      ∧ u.cfg = s.cfg ∧ u.pending = s.pending ∧ u.k = s.k ∧ u.refused = s.refused ∧ u.initDone = s.initDone
      ∧ u.returned = s.returned

/-- 60_exceptions.md R220: an operation that is refused emits no event and changes nothing but S.refused. -/
def Obligations.RefusalsChangeNothing : Prop :=
  ∀ (i : Instr) (s : State) (e : Refusal), exec i s = .refused e →
    ∃ r, e = Refusal.of r { s with refused := some r }

/-- 70_reset_and_hazards.md R260 (derived there): how many events each operation that completes has emitted. The two bare
words are log 6's and log 7's. -/
def Obligations.EventCounts : Prop :=
  ∀ (i : Instr) (s t : State), exec i s = .next t →
    t.events.length = s.events.length + eventCount s.cfg i
end

