-- ==== Sys2Proof/Laws/State.lean ====
section
/-! SUPPORT. One lemma for each field and each update of State, true by rfl, so that no later proof unfolds a record
update. -/

namespace Sys2Proof.Machine

/-! ### emit -/

@[simp] theorem State.emit_cfg (e : Event) (s : State) : (s.emit e).cfg = s.cfg := rfl
@[simp] theorem State.emit_pending (e : Event) (s : State) : (s.emit e).pending = s.pending := rfl
@[simp] theorem State.emit_k (e : Event) (s : State) : (s.emit e).k = s.k := rfl
@[simp] theorem State.emit_lines (e : Event) (s : State) : (s.emit e).lines = s.lines := rfl
@[simp] theorem State.emit_status (e : Event) (s : State) : (s.emit e).status = s.status := rfl
@[simp] theorem State.emit_fault (e : Event) (s : State) : (s.emit e).fault = s.fault := rfl
@[simp] theorem State.emit_refused (e : Event) (s : State) : (s.emit e).refused = s.refused := rfl
@[simp] theorem State.emit_initDone (e : Event) (s : State) : (s.emit e).initDone = s.initDone := rfl
@[simp] theorem State.emit_events (e : Event) (s : State) : (s.emit e).events = e :: s.events := rfl
@[simp] theorem State.emit_panel (e : Event) (s : State) : (s.emit e).panel = s.panel := rfl
@[simp] theorem State.emit_returned (e : Event) (s : State) : (s.emit e).returned = s.returned := rfl
@[simp] theorem State.emit_env (e : Event) (s : State) : (s.emit e).env = s.env := rfl

/-! ### setLines -/

@[simp] theorem State.setLines_cfg (l : Lines) (s : State) : (s.setLines l).cfg = s.cfg := rfl
@[simp] theorem State.setLines_pending (l : Lines) (s : State) : (s.setLines l).pending = s.pending := rfl
@[simp] theorem State.setLines_k (l : Lines) (s : State) : (s.setLines l).k = s.k := rfl
@[simp] theorem State.setLines_lines (l : Lines) (s : State) : (s.setLines l).lines = l := rfl
@[simp] theorem State.setLines_status (l : Lines) (s : State) : (s.setLines l).status = s.status := rfl
@[simp] theorem State.setLines_fault (l : Lines) (s : State) : (s.setLines l).fault = s.fault := rfl
@[simp] theorem State.setLines_refused (l : Lines) (s : State) : (s.setLines l).refused = s.refused := rfl
@[simp] theorem State.setLines_initDone (l : Lines) (s : State) : (s.setLines l).initDone = s.initDone := rfl
@[simp] theorem State.setLines_events (l : Lines) (s : State) : (s.setLines l).events = s.events := rfl
@[simp] theorem State.setLines_panel (l : Lines) (s : State) : (s.setLines l).panel = s.panel := rfl
@[simp] theorem State.setLines_returned (l : Lines) (s : State) : (s.setLines l).returned = s.returned := rfl
@[simp] theorem State.setLines_env (l : Lines) (s : State) : (s.setLines l).env = s.env := rfl

/-! ### setPanel -/

@[simp] theorem State.setPanel_cfg (p : Panel) (s : State) : (s.setPanel p).cfg = s.cfg := rfl
@[simp] theorem State.setPanel_pending (p : Panel) (s : State) : (s.setPanel p).pending = s.pending := rfl
@[simp] theorem State.setPanel_k (p : Panel) (s : State) : (s.setPanel p).k = s.k := rfl
@[simp] theorem State.setPanel_lines (p : Panel) (s : State) : (s.setPanel p).lines = s.lines := rfl
@[simp] theorem State.setPanel_status (p : Panel) (s : State) : (s.setPanel p).status = s.status := rfl
@[simp] theorem State.setPanel_fault (p : Panel) (s : State) : (s.setPanel p).fault = s.fault := rfl
@[simp] theorem State.setPanel_refused (p : Panel) (s : State) : (s.setPanel p).refused = s.refused := rfl
@[simp] theorem State.setPanel_initDone (p : Panel) (s : State) : (s.setPanel p).initDone = s.initDone := rfl
@[simp] theorem State.setPanel_events (p : Panel) (s : State) : (s.setPanel p).events = s.events := rfl
@[simp] theorem State.setPanel_panel (p : Panel) (s : State) : (s.setPanel p).panel = p := rfl
@[simp] theorem State.setPanel_returned (p : Panel) (s : State) : (s.setPanel p).returned = s.returned := rfl
@[simp] theorem State.setPanel_env (p : Panel) (s : State) : (s.setPanel p).env = s.env := rfl

/-! ### setStatus -/

@[simp] theorem State.setStatus_cfg (b : Byte) (s : State) : (s.setStatus b).cfg = s.cfg := rfl
@[simp] theorem State.setStatus_pending (b : Byte) (s : State) : (s.setStatus b).pending = s.pending := rfl
@[simp] theorem State.setStatus_k (b : Byte) (s : State) : (s.setStatus b).k = s.k := rfl
@[simp] theorem State.setStatus_lines (b : Byte) (s : State) : (s.setStatus b).lines = s.lines := rfl
@[simp] theorem State.setStatus_status (b : Byte) (s : State) : (s.setStatus b).status = b := rfl
@[simp] theorem State.setStatus_fault (b : Byte) (s : State) : (s.setStatus b).fault = s.fault := rfl
@[simp] theorem State.setStatus_refused (b : Byte) (s : State) : (s.setStatus b).refused = s.refused := rfl
@[simp] theorem State.setStatus_initDone (b : Byte) (s : State) : (s.setStatus b).initDone = s.initDone := rfl
@[simp] theorem State.setStatus_events (b : Byte) (s : State) : (s.setStatus b).events = s.events := rfl
@[simp] theorem State.setStatus_panel (b : Byte) (s : State) : (s.setStatus b).panel = s.panel := rfl
@[simp] theorem State.setStatus_returned (b : Byte) (s : State) : (s.setStatus b).returned = s.returned := rfl
@[simp] theorem State.setStatus_env (b : Byte) (s : State) : (s.setStatus b).env = s.env := rfl

/-! ### setEnv -/

@[simp] theorem State.setEnv_cfg (e : Env) (s : State) : (s.setEnv e).cfg = s.cfg := rfl
@[simp] theorem State.setEnv_pending (e : Env) (s : State) : (s.setEnv e).pending = s.pending := rfl
@[simp] theorem State.setEnv_k (e : Env) (s : State) : (s.setEnv e).k = s.k := rfl
@[simp] theorem State.setEnv_lines (e : Env) (s : State) : (s.setEnv e).lines = s.lines := rfl
@[simp] theorem State.setEnv_status (e : Env) (s : State) : (s.setEnv e).status = s.status := rfl
@[simp] theorem State.setEnv_fault (e : Env) (s : State) : (s.setEnv e).fault = s.fault := rfl
@[simp] theorem State.setEnv_refused (e : Env) (s : State) : (s.setEnv e).refused = s.refused := rfl
@[simp] theorem State.setEnv_initDone (e : Env) (s : State) : (s.setEnv e).initDone = s.initDone := rfl
@[simp] theorem State.setEnv_events (e : Env) (s : State) : (s.setEnv e).events = s.events := rfl
@[simp] theorem State.setEnv_panel (e : Env) (s : State) : (s.setEnv e).panel = s.panel := rfl
@[simp] theorem State.setEnv_returned (e : Env) (s : State) : (s.setEnv e).returned = s.returned := rfl
@[simp] theorem State.setEnv_env (e : Env) (s : State) : (s.setEnv e).env = e := rfl

/-! ### setInitDone -/

@[simp] theorem State.setInitDone_cfg (b : Bool) (s : State) : (s.setInitDone b).cfg = s.cfg := rfl
@[simp] theorem State.setInitDone_pending (b : Bool) (s : State) : (s.setInitDone b).pending = s.pending := rfl
@[simp] theorem State.setInitDone_k (b : Bool) (s : State) : (s.setInitDone b).k = s.k := rfl
@[simp] theorem State.setInitDone_lines (b : Bool) (s : State) : (s.setInitDone b).lines = s.lines := rfl
@[simp] theorem State.setInitDone_status (b : Bool) (s : State) : (s.setInitDone b).status = s.status := rfl
@[simp] theorem State.setInitDone_fault (b : Bool) (s : State) : (s.setInitDone b).fault = s.fault := rfl
@[simp] theorem State.setInitDone_refused (b : Bool) (s : State) : (s.setInitDone b).refused = s.refused := rfl
@[simp] theorem State.setInitDone_initDone (b : Bool) (s : State) : (s.setInitDone b).initDone = b := rfl
@[simp] theorem State.setInitDone_events (b : Bool) (s : State) : (s.setInitDone b).events = s.events := rfl
@[simp] theorem State.setInitDone_panel (b : Bool) (s : State) : (s.setInitDone b).panel = s.panel := rfl
@[simp] theorem State.setInitDone_returned (b : Bool) (s : State) : (s.setInitDone b).returned = s.returned := rfl
@[simp] theorem State.setInitDone_env (b : Bool) (s : State) : (s.setInitDone b).env = s.env := rfl

/-! ### giveResult -/

@[simp] theorem State.giveResult_cfg (v : Value) (s : State) : (s.giveResult v).cfg = s.cfg := rfl
@[simp] theorem State.giveResult_pending (v : Value) (s : State) : (s.giveResult v).pending = s.pending := rfl
@[simp] theorem State.giveResult_k (v : Value) (s : State) : (s.giveResult v).k = s.k := rfl
@[simp] theorem State.giveResult_lines (v : Value) (s : State) : (s.giveResult v).lines = s.lines := rfl
@[simp] theorem State.giveResult_status (v : Value) (s : State) : (s.giveResult v).status = s.status := rfl
@[simp] theorem State.giveResult_fault (v : Value) (s : State) : (s.giveResult v).fault = s.fault := rfl
@[simp] theorem State.giveResult_refused (v : Value) (s : State) : (s.giveResult v).refused = s.refused := rfl
@[simp] theorem State.giveResult_initDone (v : Value) (s : State) : (s.giveResult v).initDone = s.initDone := rfl
@[simp] theorem State.giveResult_events (v : Value) (s : State) : (s.giveResult v).events = s.events := rfl
@[simp] theorem State.giveResult_panel (v : Value) (s : State) : (s.giveResult v).panel = s.panel := rfl
@[simp] theorem State.giveResult_returned (v : Value) (s : State) : (s.giveResult v).returned = some v := rfl
@[simp] theorem State.giveResult_env (v : Value) (s : State) : (s.giveResult v).env = s.env := rfl

/-! ### setFault -/

@[simp] theorem State.setFault_cfg (r : FaultRecord) (s : State) : (s.setFault r).cfg = s.cfg := rfl
@[simp] theorem State.setFault_pending (r : FaultRecord) (s : State) : (s.setFault r).pending = s.pending := rfl
@[simp] theorem State.setFault_k (r : FaultRecord) (s : State) : (s.setFault r).k = s.k := rfl
@[simp] theorem State.setFault_lines (r : FaultRecord) (s : State) : (s.setFault r).lines = s.lines := rfl
@[simp] theorem State.setFault_status (r : FaultRecord) (s : State) : (s.setFault r).status = s.status := rfl
@[simp] theorem State.setFault_fault (r : FaultRecord) (s : State) : (s.setFault r).fault = some r := rfl
@[simp] theorem State.setFault_refused (r : FaultRecord) (s : State) : (s.setFault r).refused = s.refused := rfl
@[simp] theorem State.setFault_initDone (r : FaultRecord) (s : State) : (s.setFault r).initDone = s.initDone := rfl
@[simp] theorem State.setFault_events (r : FaultRecord) (s : State) : (s.setFault r).events = s.events := rfl
@[simp] theorem State.setFault_panel (r : FaultRecord) (s : State) : (s.setFault r).panel = s.panel := rfl
@[simp] theorem State.setFault_returned (r : FaultRecord) (s : State) : (s.setFault r).returned = s.returned := rfl
@[simp] theorem State.setFault_env (r : FaultRecord) (s : State) : (s.setFault r).env = s.env := rfl

/-! ### setRefused -/

@[simp] theorem State.setRefused_cfg (r : RefusalReason) (s : State) : (s.setRefused r).cfg = s.cfg := rfl
@[simp] theorem State.setRefused_pending (r : RefusalReason) (s : State) : (s.setRefused r).pending = s.pending := rfl
@[simp] theorem State.setRefused_k (r : RefusalReason) (s : State) : (s.setRefused r).k = s.k := rfl
@[simp] theorem State.setRefused_lines (r : RefusalReason) (s : State) : (s.setRefused r).lines = s.lines := rfl
@[simp] theorem State.setRefused_status (r : RefusalReason) (s : State) : (s.setRefused r).status = s.status := rfl
@[simp] theorem State.setRefused_fault (r : RefusalReason) (s : State) : (s.setRefused r).fault = s.fault := rfl
@[simp] theorem State.setRefused_refused (r : RefusalReason) (s : State) : (s.setRefused r).refused = some r := rfl
@[simp] theorem State.setRefused_initDone (r : RefusalReason) (s : State) :
    (s.setRefused r).initDone = s.initDone := rfl
@[simp] theorem State.setRefused_events (r : RefusalReason) (s : State) : (s.setRefused r).events = s.events := rfl
@[simp] theorem State.setRefused_panel (r : RefusalReason) (s : State) : (s.setRefused r).panel = s.panel := rfl
@[simp] theorem State.setRefused_returned (r : RefusalReason) (s : State) :
    (s.setRefused r).returned = s.returned := rfl
@[simp] theorem State.setRefused_env (r : RefusalReason) (s : State) : (s.setRefused r).env = s.env := rfl

/-! ### drive -/

@[simp] theorem drive_cfg (l : OutLine) (v : Level) (s : State) : (drive l v s).cfg = s.cfg := rfl
@[simp] theorem drive_pending (l : OutLine) (v : Level) (s : State) : (drive l v s).pending = s.pending := rfl
@[simp] theorem drive_k (l : OutLine) (v : Level) (s : State) : (drive l v s).k = s.k := rfl
@[simp] theorem drive_lines (l : OutLine) (v : Level) (s : State) : (drive l v s).lines = s.lines.put l v := rfl
@[simp] theorem drive_status (l : OutLine) (v : Level) (s : State) : (drive l v s).status = s.status := rfl
@[simp] theorem drive_fault (l : OutLine) (v : Level) (s : State) : (drive l v s).fault = s.fault := rfl
@[simp] theorem drive_refused (l : OutLine) (v : Level) (s : State) : (drive l v s).refused = s.refused := rfl
@[simp] theorem drive_initDone (l : OutLine) (v : Level) (s : State) : (drive l v s).initDone = s.initDone := rfl
@[simp] theorem drive_events (l : OutLine) (v : Level) (s : State) :
    (drive l v s).events = .drive l v :: s.events := rfl
@[simp] theorem drive_panel (l : OutLine) (v : Level) (s : State) : (drive l v s).panel = s.panel := rfl
@[simp] theorem drive_returned (l : OutLine) (v : Level) (s : State) : (drive l v s).returned = s.returned := rfl
@[simp] theorem drive_env (l : OutLine) (v : Level) (s : State) : (drive l v s).env = s.env := rfl

/-! ### driveDb -/

@[simp] theorem driveDb_cfg (v : Word) (s : State) : (driveDb v s).cfg = s.cfg := rfl
@[simp] theorem driveDb_pending (v : Word) (s : State) : (driveDb v s).pending = s.pending := rfl
@[simp] theorem driveDb_k (v : Word) (s : State) : (driveDb v s).k = s.k := rfl
@[simp] theorem driveDb_lines (v : Word) (s : State) : (driveDb v s).lines = { s.lines with dDb := some v } := rfl
@[simp] theorem driveDb_status (v : Word) (s : State) : (driveDb v s).status = s.status := rfl
@[simp] theorem driveDb_fault (v : Word) (s : State) : (driveDb v s).fault = s.fault := rfl
@[simp] theorem driveDb_refused (v : Word) (s : State) : (driveDb v s).refused = s.refused := rfl
@[simp] theorem driveDb_initDone (v : Word) (s : State) : (driveDb v s).initDone = s.initDone := rfl
@[simp] theorem driveDb_events (v : Word) (s : State) : (driveDb v s).events = .driveDb v :: s.events := rfl
@[simp] theorem driveDb_panel (v : Word) (s : State) : (driveDb v s).panel = s.panel := rfl
@[simp] theorem driveDb_returned (v : Word) (s : State) : (driveDb v s).returned = s.returned := rfl
@[simp] theorem driveDb_env (v : Word) (s : State) : (driveDb v s).env = s.env := rfl

/-! ### settle -/

@[simp] theorem settle_cfg (s : State) : (settle s).cfg = s.cfg := rfl
@[simp] theorem settle_pending (s : State) : (settle s).pending = s.pending := rfl
@[simp] theorem settle_k (s : State) : (settle s).k = s.k := rfl
@[simp] theorem settle_lines (s : State) : (settle s).lines = s.lines := rfl
@[simp] theorem settle_status (s : State) : (settle s).status = s.status := rfl
@[simp] theorem settle_fault (s : State) : (settle s).fault = s.fault := rfl
@[simp] theorem settle_refused (s : State) : (settle s).refused = s.refused := rfl
@[simp] theorem settle_initDone (s : State) : (settle s).initDone = s.initDone := rfl
@[simp] theorem settle_events (s : State) : (settle s).events = .settle :: s.events := rfl
@[simp] theorem settle_panel (s : State) : (settle s).panel = s.panel := rfl
@[simp] theorem settle_returned (s : State) : (settle s).returned = s.returned := rfl
@[simp] theorem settle_env (s : State) : (settle s).env = s.env := rfl

/-! ### sampleAfter -/

@[simp] theorem sampleAfter_cfg (l : InLine) (s : State) : (sampleAfter l s).cfg = s.cfg := rfl
@[simp] theorem sampleAfter_pending (l : InLine) (s : State) : (sampleAfter l s).pending = s.pending := rfl
@[simp] theorem sampleAfter_k (l : InLine) (s : State) : (sampleAfter l s).k = s.k := rfl
@[simp] theorem sampleAfter_lines (l : InLine) (s : State) : (sampleAfter l s).lines = s.lines := rfl
@[simp] theorem sampleAfter_status (l : InLine) (s : State) : (sampleAfter l s).status = s.status := rfl
@[simp] theorem sampleAfter_fault (l : InLine) (s : State) : (sampleAfter l s).fault = s.fault := rfl
@[simp] theorem sampleAfter_refused (l : InLine) (s : State) : (sampleAfter l s).refused = s.refused := rfl
@[simp] theorem sampleAfter_initDone (l : InLine) (s : State) : (sampleAfter l s).initDone = s.initDone := rfl
@[simp] theorem sampleAfter_events (l : InLine) (s : State) : (sampleAfter l s).events = .sample l :: s.events := rfl
@[simp] theorem sampleAfter_panel (l : InLine) (s : State) : (sampleAfter l s).panel = s.panel := rfl
@[simp] theorem sampleAfter_returned (l : InLine) (s : State) : (sampleAfter l s).returned = s.returned := rfl
@[simp] theorem sampleAfter_env (l : InLine) (s : State) : (sampleAfter l s).env = (s.env.draw l).2 := rfl

/-! ### panelCommand -/

@[simp] theorem panelCommand_cfg (v : Word) (s : State) : (panelCommand v s).cfg = s.cfg := rfl
@[simp] theorem panelCommand_pending (v : Word) (s : State) : (panelCommand v s).pending = s.pending := rfl
@[simp] theorem panelCommand_k (v : Word) (s : State) : (panelCommand v s).k = s.k := rfl
@[simp] theorem panelCommand_lines (v : Word) (s : State) : (panelCommand v s).lines = s.lines := rfl
@[simp] theorem panelCommand_status (v : Word) (s : State) : (panelCommand v s).status = s.status := rfl
@[simp] theorem panelCommand_fault (v : Word) (s : State) : (panelCommand v s).fault = s.fault := rfl
@[simp] theorem panelCommand_refused (v : Word) (s : State) : (panelCommand v s).refused = s.refused := rfl
@[simp] theorem panelCommand_initDone (v : Word) (s : State) : (panelCommand v s).initDone = s.initDone := rfl
@[simp] theorem panelCommand_events (v : Word) (s : State) : (panelCommand v s).events = s.events := rfl
@[simp] theorem panelCommand_panel (v : Word) (s : State) :
    (panelCommand v s).panel = { s.panel with ir := some v } := rfl
@[simp] theorem panelCommand_returned (v : Word) (s : State) : (panelCommand v s).returned = s.returned := rfl
@[simp] theorem panelCommand_env (v : Word) (s : State) : (panelCommand v s).env = s.env := rfl

/-! ### setGlyph -/

@[simp] theorem setGlyph_cfg (s : State) : (setGlyph s).cfg = s.cfg := rfl
@[simp] theorem setGlyph_pending (s : State) : (setGlyph s).pending = s.pending := rfl
@[simp] theorem setGlyph_k (s : State) : (setGlyph s).k = s.k := rfl
@[simp] theorem setGlyph_lines (s : State) : (setGlyph s).lines = s.lines := rfl
@[simp] theorem setGlyph_status (s : State) : (setGlyph s).status = s.status ||| 0x01#8 := rfl
@[simp] theorem setGlyph_fault (s : State) : (setGlyph s).fault = s.fault := rfl
@[simp] theorem setGlyph_refused (s : State) : (setGlyph s).refused = s.refused := rfl
@[simp] theorem setGlyph_initDone (s : State) : (setGlyph s).initDone = s.initDone := rfl
@[simp] theorem setGlyph_events (s : State) : (setGlyph s).events = s.events := rfl
@[simp] theorem setGlyph_panel (s : State) : (setGlyph s).panel = s.panel := rfl
@[simp] theorem setGlyph_returned (s : State) : (setGlyph s).returned = s.returned := rfl
@[simp] theorem setGlyph_env (s : State) : (setGlyph s).env = s.env := rfl

/-! ### clearStatus -/

@[simp] theorem clearStatus_cfg (s : State) : (clearStatus s).cfg = s.cfg := rfl
@[simp] theorem clearStatus_pending (s : State) : (clearStatus s).pending = s.pending := rfl
@[simp] theorem clearStatus_k (s : State) : (clearStatus s).k = s.k := rfl
@[simp] theorem clearStatus_lines (s : State) : (clearStatus s).lines = s.lines := rfl
@[simp] theorem clearStatus_status (s : State) : (clearStatus s).status = 0x00#8 := rfl
@[simp] theorem clearStatus_fault (s : State) : (clearStatus s).fault = s.fault := rfl
@[simp] theorem clearStatus_refused (s : State) : (clearStatus s).refused = s.refused := rfl
@[simp] theorem clearStatus_initDone (s : State) : (clearStatus s).initDone = s.initDone := rfl
@[simp] theorem clearStatus_events (s : State) : (clearStatus s).events = s.events := rfl
@[simp] theorem clearStatus_panel (s : State) : (clearStatus s).panel = s.panel := rfl
@[simp] theorem clearStatus_returned (s : State) : (clearStatus s).returned = s.returned := rfl
@[simp] theorem clearStatus_env (s : State) : (clearStatus s).env = s.env := rfl

/-! ### retire -/

@[simp] theorem retire_cfg (p : Packet) (s : State) : (retire p s).cfg = s.cfg := rfl
@[simp] theorem retire_pending (p : Packet) (s : State) : (retire p s).pending = s.pending.tail := rfl
@[simp] theorem retire_k (p : Packet) (s : State) : (retire p s).k = if p.isHostOp then s.k + 1 else s.k := rfl
@[simp] theorem retire_lines (p : Packet) (s : State) : (retire p s).lines = s.lines := rfl
@[simp] theorem retire_status (p : Packet) (s : State) : (retire p s).status = s.status := rfl
@[simp] theorem retire_fault (p : Packet) (s : State) : (retire p s).fault = s.fault := rfl
@[simp] theorem retire_refused (p : Packet) (s : State) : (retire p s).refused = s.refused := rfl
@[simp] theorem retire_initDone (p : Packet) (s : State) : (retire p s).initDone = s.initDone := rfl
@[simp] theorem retire_events (p : Packet) (s : State) : (retire p s).events = s.events := rfl
@[simp] theorem retire_panel (p : Packet) (s : State) : (retire p s).panel = s.panel := rfl
@[simp] theorem retire_returned (p : Packet) (s : State) : (retire p s).returned = s.returned := rfl
@[simp] theorem retire_env (p : Packet) (s : State) : (retire p s).env = s.env := rfl

/-! ### present -/

@[simp] theorem present_cfg (p : Packet) (s : State) : (present p s).cfg = s.cfg := rfl
@[simp] theorem present_pending (p : Packet) (s : State) : (present p s).pending = p :: s.pending.tail := rfl
@[simp] theorem present_k (p : Packet) (s : State) : (present p s).k = s.k := rfl
@[simp] theorem present_lines (p : Packet) (s : State) : (present p s).lines = s.lines := rfl
@[simp] theorem present_status (p : Packet) (s : State) : (present p s).status = s.status := rfl
@[simp] theorem present_fault (p : Packet) (s : State) : (present p s).fault = s.fault := rfl
@[simp] theorem present_refused (p : Packet) (s : State) : (present p s).refused = s.refused := rfl
@[simp] theorem present_initDone (p : Packet) (s : State) : (present p s).initDone = s.initDone := rfl
@[simp] theorem present_events (p : Packet) (s : State) : (present p s).events = s.events := rfl
@[simp] theorem present_panel (p : Packet) (s : State) : (present p s).panel = s.panel := rfl
@[simp] theorem present_returned (p : Packet) (s : State) : (present p s).returned = s.returned := rfl
@[simp] theorem present_env (p : Packet) (s : State) : (present p s).env = s.env := rfl

/-! ### Lines.put -/

@[simp] theorem Lines.put_dRs_dRs (l : Lines) (v : Level) : (l.put .dRs v).dRs = some v := rfl
@[simp] theorem Lines.put_dRs_dCs (l : Lines) (v : Level) : (l.put .dRs v).dCs = l.dCs := rfl
@[simp] theorem Lines.put_dRs_dRd (l : Lines) (v : Level) : (l.put .dRs v).dRd = l.dRd := rfl
@[simp] theorem Lines.put_dRs_dWr (l : Lines) (v : Level) : (l.put .dRs v).dWr = l.dWr := rfl
@[simp] theorem Lines.put_dRs_tCs (l : Lines) (v : Level) : (l.put .dRs v).tCs = l.tCs := rfl
@[simp] theorem Lines.put_dRs_tClk (l : Lines) (v : Level) : (l.put .dRs v).tClk = l.tClk := rfl
@[simp] theorem Lines.put_dRs_tDin (l : Lines) (v : Level) : (l.put .dRs v).tDin = l.tDin := rfl
@[simp] theorem Lines.put_dRs_dDb (l : Lines) (v : Level) : (l.put .dRs v).dDb = l.dDb := rfl
@[simp] theorem Lines.put_dCs_dRs (l : Lines) (v : Level) : (l.put .dCs v).dRs = l.dRs := rfl
@[simp] theorem Lines.put_dCs_dCs (l : Lines) (v : Level) : (l.put .dCs v).dCs = some v := rfl
@[simp] theorem Lines.put_dCs_dRd (l : Lines) (v : Level) : (l.put .dCs v).dRd = l.dRd := rfl
@[simp] theorem Lines.put_dCs_dWr (l : Lines) (v : Level) : (l.put .dCs v).dWr = l.dWr := rfl
@[simp] theorem Lines.put_dCs_tCs (l : Lines) (v : Level) : (l.put .dCs v).tCs = l.tCs := rfl
@[simp] theorem Lines.put_dCs_tClk (l : Lines) (v : Level) : (l.put .dCs v).tClk = l.tClk := rfl
@[simp] theorem Lines.put_dCs_tDin (l : Lines) (v : Level) : (l.put .dCs v).tDin = l.tDin := rfl
@[simp] theorem Lines.put_dCs_dDb (l : Lines) (v : Level) : (l.put .dCs v).dDb = l.dDb := rfl
@[simp] theorem Lines.put_dRd_dRs (l : Lines) (v : Level) : (l.put .dRd v).dRs = l.dRs := rfl
@[simp] theorem Lines.put_dRd_dCs (l : Lines) (v : Level) : (l.put .dRd v).dCs = l.dCs := rfl
@[simp] theorem Lines.put_dRd_dRd (l : Lines) (v : Level) : (l.put .dRd v).dRd = some v := rfl
@[simp] theorem Lines.put_dRd_dWr (l : Lines) (v : Level) : (l.put .dRd v).dWr = l.dWr := rfl
@[simp] theorem Lines.put_dRd_tCs (l : Lines) (v : Level) : (l.put .dRd v).tCs = l.tCs := rfl
@[simp] theorem Lines.put_dRd_tClk (l : Lines) (v : Level) : (l.put .dRd v).tClk = l.tClk := rfl
@[simp] theorem Lines.put_dRd_tDin (l : Lines) (v : Level) : (l.put .dRd v).tDin = l.tDin := rfl
@[simp] theorem Lines.put_dRd_dDb (l : Lines) (v : Level) : (l.put .dRd v).dDb = l.dDb := rfl
@[simp] theorem Lines.put_dWr_dRs (l : Lines) (v : Level) : (l.put .dWr v).dRs = l.dRs := rfl
@[simp] theorem Lines.put_dWr_dCs (l : Lines) (v : Level) : (l.put .dWr v).dCs = l.dCs := rfl
@[simp] theorem Lines.put_dWr_dRd (l : Lines) (v : Level) : (l.put .dWr v).dRd = l.dRd := rfl
@[simp] theorem Lines.put_dWr_dWr (l : Lines) (v : Level) : (l.put .dWr v).dWr = some v := rfl
@[simp] theorem Lines.put_dWr_tCs (l : Lines) (v : Level) : (l.put .dWr v).tCs = l.tCs := rfl
@[simp] theorem Lines.put_dWr_tClk (l : Lines) (v : Level) : (l.put .dWr v).tClk = l.tClk := rfl
@[simp] theorem Lines.put_dWr_tDin (l : Lines) (v : Level) : (l.put .dWr v).tDin = l.tDin := rfl
@[simp] theorem Lines.put_dWr_dDb (l : Lines) (v : Level) : (l.put .dWr v).dDb = l.dDb := rfl
@[simp] theorem Lines.put_tCs_dRs (l : Lines) (v : Level) : (l.put .tCs v).dRs = l.dRs := rfl
@[simp] theorem Lines.put_tCs_dCs (l : Lines) (v : Level) : (l.put .tCs v).dCs = l.dCs := rfl
@[simp] theorem Lines.put_tCs_dRd (l : Lines) (v : Level) : (l.put .tCs v).dRd = l.dRd := rfl
@[simp] theorem Lines.put_tCs_dWr (l : Lines) (v : Level) : (l.put .tCs v).dWr = l.dWr := rfl
@[simp] theorem Lines.put_tCs_tCs (l : Lines) (v : Level) : (l.put .tCs v).tCs = some v := rfl
@[simp] theorem Lines.put_tCs_tClk (l : Lines) (v : Level) : (l.put .tCs v).tClk = l.tClk := rfl
@[simp] theorem Lines.put_tCs_tDin (l : Lines) (v : Level) : (l.put .tCs v).tDin = l.tDin := rfl
@[simp] theorem Lines.put_tCs_dDb (l : Lines) (v : Level) : (l.put .tCs v).dDb = l.dDb := rfl
@[simp] theorem Lines.put_tClk_dRs (l : Lines) (v : Level) : (l.put .tClk v).dRs = l.dRs := rfl
@[simp] theorem Lines.put_tClk_dCs (l : Lines) (v : Level) : (l.put .tClk v).dCs = l.dCs := rfl
@[simp] theorem Lines.put_tClk_dRd (l : Lines) (v : Level) : (l.put .tClk v).dRd = l.dRd := rfl
@[simp] theorem Lines.put_tClk_dWr (l : Lines) (v : Level) : (l.put .tClk v).dWr = l.dWr := rfl
@[simp] theorem Lines.put_tClk_tCs (l : Lines) (v : Level) : (l.put .tClk v).tCs = l.tCs := rfl
@[simp] theorem Lines.put_tClk_tClk (l : Lines) (v : Level) : (l.put .tClk v).tClk = some v := rfl
@[simp] theorem Lines.put_tClk_tDin (l : Lines) (v : Level) : (l.put .tClk v).tDin = l.tDin := rfl
@[simp] theorem Lines.put_tClk_dDb (l : Lines) (v : Level) : (l.put .tClk v).dDb = l.dDb := rfl
@[simp] theorem Lines.put_tDin_dRs (l : Lines) (v : Level) : (l.put .tDin v).dRs = l.dRs := rfl
@[simp] theorem Lines.put_tDin_dCs (l : Lines) (v : Level) : (l.put .tDin v).dCs = l.dCs := rfl
@[simp] theorem Lines.put_tDin_dRd (l : Lines) (v : Level) : (l.put .tDin v).dRd = l.dRd := rfl
@[simp] theorem Lines.put_tDin_dWr (l : Lines) (v : Level) : (l.put .tDin v).dWr = l.dWr := rfl
@[simp] theorem Lines.put_tDin_tCs (l : Lines) (v : Level) : (l.put .tDin v).tCs = l.tCs := rfl
@[simp] theorem Lines.put_tDin_tClk (l : Lines) (v : Level) : (l.put .tDin v).tClk = l.tClk := rfl
@[simp] theorem Lines.put_tDin_tDin (l : Lines) (v : Level) : (l.put .tDin v).tDin = some v := rfl
@[simp] theorem Lines.put_tDin_dDb (l : Lines) (v : Level) : (l.put .tDin v).dDb = l.dDb := rfl

end Sys2Proof.Machine
end

