-- ==== Sys2Proof/Laws/Memory.lean ====
section
/-! SUPPORT. The laws of the two memories: a read after a write, the canonical form, and GRAM by device
coordinates. -/

namespace Sys2Proof.Machine

theorem Memory.read_write_same (a : Nat) (v : Word) (m : Memory) : (m.write a v).read a = some v := by
  induction m with
  | nil => simp [Memory.write, Memory.read]
  | cons cell rest ih =>
    obtain ⟨n, w⟩ := cell
    simp only [Memory.write]
    split
    · simp [Memory.read]
    · split
      · simp [Memory.read]
      · rename_i hne
        simp [Memory.read, hne, ih]

theorem Memory.read_write_other {a b : Nat} (v : Word) (m : Memory) (h : b ≠ a) :
    (m.write a v).read b = m.read b := by
  induction m with
  | nil => simp [Memory.write, Memory.read, h]
  | cons cell rest ih =>
    obtain ⟨n, w⟩ := cell
    simp only [Memory.write]
    split
    · simp [Memory.read, h]
    · split
      · rename_i heq
        subst heq
        simp [Memory.read, h]
      · simp [Memory.read, ih]

/-- A read after a write, at any cell. -/
theorem Memory.read_write (a b : Nat) (v : Word) (m : Memory) :
    (m.write a v).read b = if b = a then some v else m.read b := by
  split
  · rename_i h
    subst h
    exact Memory.read_write_same b v m
  · rename_i h
    exact Memory.read_write_other v m h

theorem Memory.risesFrom_mono {lo hi : Nat} {m : Memory} (h : m.risesFrom hi = true) (hle : lo ≤ hi) :
    m.risesFrom lo = true := by
  cases m with
  | nil => rfl
  | cons cell rest =>
    obtain ⟨n, w⟩ := cell
    simp only [Memory.risesFrom, Bool.and_eq_true, decide_eq_true_eq] at h ⊢
    exact ⟨by omega, h.2⟩

theorem Memory.risesFrom_write {a : Nat} (v : Word) (m : Memory) {lo : Nat} (h : m.risesFrom lo = true)
    (hlo : lo ≤ a) : (m.write a v).risesFrom lo = true := by
  induction m generalizing lo with
  | nil => simp [Memory.write, Memory.risesFrom, hlo]
  | cons cell rest ih =>
    obtain ⟨n, w⟩ := cell
    simp only [Memory.risesFrom, Bool.and_eq_true, decide_eq_true_eq] at h
    simp only [Memory.write]
    split
    · simp only [Memory.risesFrom, Bool.and_eq_true, decide_eq_true_eq]
      exact ⟨hlo, by omega, h.2⟩
    · split
      · rename_i heq
        subst heq
        simpa [Memory.risesFrom, hlo] using h.2
      · simp only [Memory.risesFrom, Bool.and_eq_true, decide_eq_true_eq]
        exact ⟨h.1, ih h.2 (by omega)⟩

theorem Memory.below_write {a size : Nat} (v : Word) (m : Memory)
    (h : (m.all fun cell => decide (cell.1 < size)) = true) (ha : a < size) :
    ((m.write a v).all fun cell => decide (cell.1 < size)) = true := by
  induction m with
  | nil => simp [Memory.write, ha]
  | cons cell rest ih =>
    obtain ⟨n, w⟩ := cell
    simp only [List.all_cons, Bool.and_eq_true, decide_eq_true_eq] at h
    simp only [Memory.write]
    split
    · simp only [List.all_cons, Bool.and_eq_true, decide_eq_true_eq]
      exact ⟨ha, h.1, h.2⟩
    · split
      · simp only [List.all_cons, Bool.and_eq_true, decide_eq_true_eq]
        exact ⟨ha, h.2⟩
      · simp only [List.all_cons, Bool.and_eq_true, decide_eq_true_eq]
        exact ⟨h.1, ih h.2⟩

/-- The one memory operation that writes keeps the canonical form. -/
theorem Memory.wf_write {a size : Nat} (v : Word) {m : Memory} (h : Memory.wf size m = true) (ha : a < size) :
    Memory.wf size (m.write a v) = true := by
  simp only [Memory.wf, Bool.and_eq_true] at h ⊢
  exact ⟨Memory.risesFrom_write v m h.1 (Nat.zero_le a), Memory.below_write v m h.2 ha⟩

theorem Memory.read_below {a lo : Nat} {m : Memory} (h : m.risesFrom lo = true) (ha : a < lo) : m.read a = none := by
  induction m generalizing lo with
  | nil => rfl
  | cons cell rest ih =>
    obtain ⟨n, w⟩ := cell
    simp only [Memory.risesFrom, Bool.and_eq_true, decide_eq_true_eq] at h
    simp only [Memory.read]
    rw [if_neg (by omega), ih h.2 (by omega)]

/-- Equal memories are equal data: canonical memories that read alike everywhere are the same list. -/
theorem Memory.eq_of_read_eq {m n : Memory} {lo : Nat} (hm : m.risesFrom lo = true) (hn : n.risesFrom lo = true)
    (h : ∀ a, m.read a = n.read a) : m = n := by
  induction m generalizing n lo with
  | nil =>
    cases n with
    | nil => rfl
    | cons cell rest =>
      have := h cell.1
      simp [Memory.read] at this
  | cons cell rest ih =>
    obtain ⟨a, v⟩ := cell
    cases n with
    | nil =>
      have := h a
      simp [Memory.read] at this
    | cons cell' rest' =>
      obtain ⟨b, w⟩ := cell'
      simp only [Memory.risesFrom, Bool.and_eq_true, decide_eq_true_eq] at hm hn
      have hab : a = b := by
        rcases Nat.lt_trichotomy a b with hlt | heq | hgt
        · have := h a
          simp only [Memory.read, if_true] at this
          rw [if_neg (by omega), Memory.read_below hn.2 (by omega)] at this
          simp at this
        · exact heq
        · have := h b
          simp only [Memory.read, if_true] at this
          rw [if_neg (by omega), Memory.read_below hm.2 (by omega)] at this
          simp at this
      subst hab
      have hvw : v = w := by
        have := h a
        simpa [Memory.read] using this
      subst hvw
      have hrest : rest = rest' := by
        apply ih hm.2 hn.2
        intro c
        by_cases hc : c = a
        · subst hc
          rw [Memory.read_below hm.2 (by omega), Memory.read_below hn.2 (by omega)]
        · have := h c
          simpa [Memory.read, hc] using this
      rw [hrest]

/-! ### GRAM by device coordinates -/

theorem cellNumber_lt (x yd : Nat) : cellNumber x yd < GRAM_SIZE := by
  simp only [cellNumber, GRAM_SIZE, WIDTH, HEIGHT]
  omega

theorem cellNumber_inj {x yd x' yd' : Nat} (hx : x < WIDTH) (hy : yd < HEIGHT) (hx' : x' < WIDTH) (hy' : yd' < HEIGHT) :
    cellNumber x yd = cellNumber x' yd' ↔ x = x' ∧ yd = yd' := by
  simp only [cellNumber, WIDTH, HEIGHT] at *
  omega

theorem Panel.gramAt_gramWrite {x yd x' yd' : Nat} (v : Word) (p : Panel) (hx : x < WIDTH) (hy : yd < HEIGHT)
    (hx' : x' < WIDTH) (hy' : yd' < HEIGHT) :
    (p.gramWrite x yd v).gramAt x' yd' = if x' = x ∧ yd' = yd then some v else p.gramAt x' yd' := by
  simp only [Panel.gramAt, Panel.gramWrite, Memory.read_write, cellNumber_inj hx' hy' hx hy]

@[simp] theorem Panel.gramWrite_ir (x yd : Nat) (v : Word) (p : Panel) : (p.gramWrite x yd v).ir = p.ir := rfl
@[simp] theorem Panel.gramWrite_reg (x yd : Nat) (v : Word) (p : Panel) : (p.gramWrite x yd v).reg = p.reg := rfl
@[simp] theorem Panel.gramWrite_cx (x yd : Nat) (v : Word) (p : Panel) : (p.gramWrite x yd v).cx = p.cx := rfl
@[simp] theorem Panel.gramWrite_cy (x yd : Nat) (v : Word) (p : Panel) : (p.gramWrite x yd v).cy = p.cy := rfl
@[simp] theorem Panel.gramWrite_regAt (x yd : Nat) (v a : Word) (p : Panel) :
    (p.gramWrite x yd v).regAt a = p.regAt a := rfl

theorem Panel.gramWrite_wf (x yd : Nat) (v : Word) {p : Panel} (h : Memory.wf GRAM_SIZE p.gram = true) :
    Memory.wf GRAM_SIZE (p.gramWrite x yd v).gram = true := Memory.wf_write v h (cellNumber_lt x yd)

/-! ### The panel's registers -/

theorem Panel.regAt_regWrite (a b v : Word) (p : Panel) :
    (p.regWrite a v).regAt b = if b = a then some v else p.regAt b := by
  simp only [Panel.regAt, Panel.regWrite, Memory.read_write, BitVec.toNat_inj]

@[simp] theorem Panel.regWrite_ir (a v : Word) (p : Panel) : (p.regWrite a v).ir = p.ir := rfl
@[simp] theorem Panel.regWrite_gram (a v : Word) (p : Panel) : (p.regWrite a v).gram = p.gram := rfl
@[simp] theorem Panel.regWrite_cx (a v : Word) (p : Panel) : (p.regWrite a v).cx = p.cx := rfl
@[simp] theorem Panel.regWrite_cy (a v : Word) (p : Panel) : (p.regWrite a v).cy = p.cy := rfl

theorem Panel.regWrite_wf (a v : Word) {p : Panel} (h : Memory.wf REG_SIZE p.reg = true) :
    Memory.wf REG_SIZE (p.regWrite a v).reg = true := Memory.wf_write v h a.isLt

end Sys2Proof.Machine
end

