-- ==== Sys2Proof/Laws/Cycle.lean ====
section
/-! SUPPORT. The display write cycle as one step: its events and lines, then the panel's reaction (40_bus.md R101,
42_display.md R150), and what each reaction can do. -/

namespace Sys2Proof.Machine

@[simp] theorem andThen_next (s : State) (f : State → Result) : andThen (.next s) f = f s := rfl
@[simp] theorem andThen_fault (e : Fault) (f : State → Result) : andThen (.fault e) f = .fault e := rfl
@[simp] theorem andThen_refused (e : Refusal) (f : State → Result) : andThen (.refused e) f = .refused e := rfl

/-- A sequence completes only through its first part. -/
theorem andThen_eq_next {r : Result} {f : State → Result} {t : State} (h : andThen r f = .next t) :
    ∃ s, r = .next s ∧ f s = .next t := by
  cases r with
  | next s => exact ⟨s, rfl, h⟩
  | fault e => simp at h
  | refused e => simp at h

theorem andThen_assoc (r : Result) (f g : State → Result) :
    andThen (andThen r f) g = andThen r fun s => andThen (f s) g := by
  cases r <;> rfl

@[simp] theorem raise_ne_next (r : FaultRecord) (s t : State) : raise r s ≠ .next t := by simp [raise]

@[simp] theorem refuse_ne_next (r : RefusalReason) (s t : State) : refuse r s ≠ .next t := by simp [refuse]

/-- The state after the seven events of a cycle, the panel not yet changed. -/
def afterCycle (rs : Level) (v : Word) (s : State) : State :=
  { s with lines := s.lines.afterCycle rs v, events := (cycleEvents rs v).reverse ++ s.events }

@[simp] theorem afterCycle_cfg (rs : Level) (v : Word) (s : State) : (afterCycle rs v s).cfg = s.cfg := rfl
@[simp] theorem afterCycle_pending (rs : Level) (v : Word) (s : State) :
    (afterCycle rs v s).pending = s.pending := rfl
@[simp] theorem afterCycle_k (rs : Level) (v : Word) (s : State) : (afterCycle rs v s).k = s.k := rfl
@[simp] theorem afterCycle_lines (rs : Level) (v : Word) (s : State) :
    (afterCycle rs v s).lines = s.lines.afterCycle rs v := rfl
@[simp] theorem afterCycle_status (rs : Level) (v : Word) (s : State) : (afterCycle rs v s).status = s.status := rfl
@[simp] theorem afterCycle_fault (rs : Level) (v : Word) (s : State) : (afterCycle rs v s).fault = s.fault := rfl
@[simp] theorem afterCycle_refused (rs : Level) (v : Word) (s : State) :
    (afterCycle rs v s).refused = s.refused := rfl
@[simp] theorem afterCycle_initDone (rs : Level) (v : Word) (s : State) :
    (afterCycle rs v s).initDone = s.initDone := rfl
@[simp] theorem afterCycle_events (rs : Level) (v : Word) (s : State) :
    (afterCycle rs v s).events = (cycleEvents rs v).reverse ++ s.events := rfl
@[simp] theorem afterCycle_panel (rs : Level) (v : Word) (s : State) : (afterCycle rs v s).panel = s.panel := rfl
@[simp] theorem afterCycle_returned (rs : Level) (v : Word) (s : State) :
    (afterCycle rs v s).returned = s.returned := rfl
@[simp] theorem afterCycle_env (rs : Level) (v : Word) (s : State) : (afterCycle rs v s).env = s.env := rfl

/-- The panel latches the words of the cycle, at its sixth event and nowhere else (R150). -/
theorem cycle_latches (rs : Level) (v : Word) (s : State) :
    latched (cycleLow rs v s).lines (drive .dWr 1#1 (cycleLow rs v s)).lines = some (rs, v) := by
  simp [latched, cycleLow]

theorem cycle_eq (inInit : Bool) (rs : Level) (v : Word) (s : State) :
    cycle inInit rs v s = panelCycle inInit rs v (afterCycle rs v s) := by
  have hdone : drive .dCs 1#1 (drive .dWr 1#1 (cycleLow rs v s)) = afterCycle rs v s := by
    simp [afterCycle, cycleLow, drive, driveDb, State.emit, State.setLines, Lines.put, Lines.afterCycle, cycleEvents]
  simp only [cycle, cycle_latches, hdone]

/-- A command cycle always completes (R151). -/
theorem cycle_command (inInit : Bool) (v : Word) (s : State) :
    cycle inInit 0#1 v s = .next (panelCommand v (afterCycle 0#1 v s)) := by
  simp [cycle_eq, panelCycle]

theorem cycle_data (inInit : Bool) (v : Word) (s : State) :
    cycle inInit 1#1 v s = panelData inInit v (afterCycle 1#1 v s) := by
  simp [cycle_eq, panelCycle]

/-! ### What a data cycle can do -/

/-- The panels a data cycle can leave when it completes (R152 to R158). -/
inductive DataEffect (inInit : Bool) (v : Word) (s : State) : Panel → Prop where
  | pixel (w : Window) (hir : s.panel.ir = some s.cfg.regGramWrite) (hw : s.window = some w)
      (hin : w.holdsCursor = true) : DataEffect inInit v s (s.panel.pixel s.cfg.autoInc w v)
  | window (a : Word) (hir : s.panel.ir = some a) (ha : isWindowReg s.cfg a = true)
      (hv : v.toNat < windowLimit s.cfg a) : DataEffect inInit v s (s.panel.regWrite a v)
  | cursorX (hir : s.panel.ir = some s.cfg.regGramX) (hv : v.toNat < WIDTH) :
      DataEffect inInit v s { s.panel.regWrite s.cfg.regGramX v with cx := some v.toNat }
  | cursorY (a : Word) (hir : s.panel.ir = some a) (ha : isCursorReg s.cfg a = true) (hne : a ≠ s.cfg.regGramX)
      (hv : v.toNat < HEIGHT) : DataEffect inInit v s { s.panel.regWrite a v with cy := some v.toNat }
  | config (a : Word) (hir : s.panel.ir = some a) (hinit : inInit = true) (hne : a ≠ s.cfg.regGramWrite)
      (hw : isWindowReg s.cfg a = false) (hc : isCursorReg s.cfg a = false) :
      DataEffect inInit v s (s.panel.regWrite a v)

/-- A data cycle that completes changes the panel only, in one of these ways. -/
theorem panelData_eq_next {inInit : Bool} {v : Word} {s t : State} (h : panelData inInit v s = .next t) :
    ∃ p, DataEffect inInit v s p ∧ t = s.setPanel p := by
  unfold panelData at h
  split at h
  · simp at h
  · rename_i a hir
    split at h
    · rename_i ha
      unfold pixelWrite at h
      split at h
      · rename_i w hw
        split at h
        · rename_i hin
          exact ⟨_, .pixel w (ha ▸ hir) hw hin, by simpa using h.symm⟩
        · simp at h
      · simp at h
    · rename_i hgw
      split at h
      · rename_i hwin
        unfold windowWrite at h
        split at h
        · simp at h
        · rename_i hv
          exact ⟨_, .window a hir hwin (by omega), by simpa using h.symm⟩
      · rename_i hwin
        split at h
        · rename_i hcur
          unfold cursorWrite at h
          split at h
          · rename_i hx
            subst hx
            split at h
            · simp at h
            · exact ⟨_, .cursorX hir (by omega), by simpa using h.symm⟩
          · rename_i hx
            split at h
            · simp at h
            · exact ⟨_, .cursorY a hir hcur hx (by omega), by simpa using h.symm⟩
        · rename_i hcur
          unfold configWrite at h
          split at h
          · rename_i hinit
            exact ⟨_, .config a hir hinit hgw (by simpa using hwin) (by simpa using hcur), by simpa using h.symm⟩
          · simp at h

/-- Everything a cycle can do when it completes: its seven events, and one reaction of the panel. -/
theorem cycle_eq_next {inInit : Bool} {rs : Level} {v : Word} {s t : State} (h : cycle inInit rs v s = .next t) :
    (rs = 0#1 ∧ t = panelCommand v (afterCycle rs v s)) ∨
      (rs ≠ 0#1 ∧ ∃ p, DataEffect inInit v (afterCycle rs v s) p ∧ t = (afterCycle rs v s).setPanel p) := by
  rw [cycle_eq, panelCycle] at h
  split at h
  · rename_i hrs
    exact .inl ⟨hrs, by simpa using h.symm⟩
  · rename_i hrs
    exact .inr ⟨hrs, panelData_eq_next h⟩

/-! ### The seven indices of a valid configuration -/

theorem Config.valid_knownRegs_nodup {c : Config} (h : c.valid = true) : c.knownRegs.Nodup := by
  simp only [Config.valid, Bool.and_eq_true, decide_eq_true_eq] at h
  exact h.1.1.1.1.1

end Sys2Proof.Machine
end

