-- ==== Sys2Proof/Laws/Draw.lean ====
section
/-! SUPPORT. setWindow, writePixel and RAST.PIXEL calls as one step each, under a valid configuration
(42_display.md R141, R142, 43_raster.md R171), and GRAM after any list of RAST.PIXEL calls. -/

namespace Sys2Proof.Machine

/-! ### Writing a register -/

/-- The state after the two cycles of DISP.WRREG, the panel's reaction to the second still to come. -/
def afterReg (a v : Word) (s : State) : State := afterCycle 1#1 v (panelCommand a (afterCycle 0#1 a s))

@[simp] theorem afterReg_cfg (a v : Word) (s : State) : (afterReg a v s).cfg = s.cfg := rfl
@[simp] theorem afterReg_pending (a v : Word) (s : State) : (afterReg a v s).pending = s.pending := rfl
@[simp] theorem afterReg_k (a v : Word) (s : State) : (afterReg a v s).k = s.k := rfl
@[simp] theorem afterReg_status (a v : Word) (s : State) : (afterReg a v s).status = s.status := rfl
@[simp] theorem afterReg_fault (a v : Word) (s : State) : (afterReg a v s).fault = s.fault := rfl
@[simp] theorem afterReg_refused (a v : Word) (s : State) : (afterReg a v s).refused = s.refused := rfl
@[simp] theorem afterReg_initDone (a v : Word) (s : State) : (afterReg a v s).initDone = s.initDone := rfl
@[simp] theorem afterReg_returned (a v : Word) (s : State) : (afterReg a v s).returned = s.returned := rfl
@[simp] theorem afterReg_env (a v : Word) (s : State) : (afterReg a v s).env = s.env := rfl
@[simp] theorem afterReg_panel (a v : Word) (s : State) : (afterReg a v s).panel = { s.panel with ir := some a } := rfl
@[simp] theorem afterReg_lines (a v : Word) (s : State) : (afterReg a v s).lines = s.lines.afterCycle 1#1 v := rfl
@[simp] theorem afterReg_events (a v : Word) (s : State) :
    (afterReg a v s).events = (cyclesEvents [(0#1, a), (1#1, v)]).reverse ++ s.events := by
  simp [afterReg, cyclesEvents]

theorem writeReg_eq (inInit : Bool) (a v : Word) (s : State) :
    writeReg inInit a v s = panelData inInit v (afterReg a v s) := by
  simp [writeReg, cycle_command, cycle_data, afterReg]

theorem Config.window_ne_write {c : Config} (h : c.valid = true) {a : Word} (ha : isWindowReg c a = true) :
    a ≠ c.regGramWrite := by
  have hn := Config.valid_knownRegs_nodup h
  simp only [Config.knownRegs, List.nodup_cons, List.mem_cons, List.not_mem_nil, or_false, not_or] at hn
  simp only [isWindowReg, decide_eq_true_eq] at ha
  rcases ha with rfl | rfl | rfl | rfl <;> tauto

theorem Config.cursor_ne_write {c : Config} (h : c.valid = true) {a : Word} (ha : isCursorReg c a = true) :
    a ≠ c.regGramWrite := by
  have hn := Config.valid_knownRegs_nodup h
  simp only [Config.knownRegs, List.nodup_cons, List.mem_cons, List.not_mem_nil, or_false, not_or] at hn
  simp only [isCursorReg, decide_eq_true_eq] at ha
  rcases ha with rfl | rfl <;> tauto

theorem Config.cursor_not_window {c : Config} (h : c.valid = true) {a : Word} (ha : isCursorReg c a = true) :
    isWindowReg c a = false := by
  have hn := Config.valid_knownRegs_nodup h
  simp only [Config.knownRegs, List.nodup_cons, List.mem_cons, List.not_mem_nil, or_false, not_or] at hn
  simp only [isCursorReg, decide_eq_true_eq] at ha
  simp only [isWindowReg, decide_eq_false_iff_not, not_or]
  rcases ha with rfl | rfl <;> refine ⟨?_, ?_, ?_, ?_⟩ <;> intro heq <;> simp_all

/-- A data cycle to a window register in range (R153). -/
theorem panelData_window {inInit : Bool} {c : Config} {a v : Word} {s : State} (hc : s.cfg = c) (h : c.valid = true)
    (hir : s.panel.ir = some a) (ha : isWindowReg c a = true) (hv : v.toNat < windowLimit c a) :
    panelData inInit v s = .next (s.setPanel (s.panel.regWrite a v)) := by
  subst hc
  simp [panelData, hir, Config.window_ne_write h ha, ha, windowWrite, hv]

/-- A data cycle to REG_GRAM_X in range moves the cursor (R154). -/
theorem panelData_cursorX {inInit : Bool} {c : Config} {v : Word} {s : State} (hc : s.cfg = c) (h : c.valid = true)
    (hir : s.panel.ir = some c.regGramX) (hv : v.toNat < WIDTH) :
    panelData inInit v s = .next (s.setPanel { s.panel.regWrite c.regGramX v with cx := some v.toNat }) := by
  subst hc
  have ha : isCursorReg s.cfg s.cfg.regGramX = true := by simp [isCursorReg]
  simp [panelData, hir, Config.cursor_ne_write h ha, Config.cursor_not_window h ha, ha, cursorWrite, hv]

theorem Config.gramY_ne_gramX {c : Config} (h : c.valid = true) : c.regGramY ≠ c.regGramX := by
  have hn := Config.valid_knownRegs_nodup h
  simp only [Config.knownRegs, List.nodup_cons, List.mem_cons, List.not_mem_nil, or_false, not_or] at hn
  tauto

/-- A data cycle to REG_GRAM_Y in range moves the cursor (R154). -/
theorem panelData_cursorY {inInit : Bool} {c : Config} {v : Word} {s : State} (hc : s.cfg = c) (h : c.valid = true)
    (hir : s.panel.ir = some c.regGramY) (hv : v.toNat < HEIGHT) :
    panelData inInit v s = .next (s.setPanel { s.panel.regWrite c.regGramY v with cy := some v.toNat }) := by
  subst hc
  have ha : isCursorReg s.cfg s.cfg.regGramY = true := by simp [isCursorReg]
  simp [panelData, hir, Config.cursor_ne_write h ha, Config.cursor_not_window h ha, ha, cursorWrite,
    Config.gramY_ne_gramX h, hv]

/-- A data cycle with a valid window and cursor writes a pixel (R155). -/
theorem panelData_pixel {inInit : Bool} {c : Config} {v : Word} {w : Window} {s : State} (hc : s.cfg = c)
    (hir : s.panel.ir = some c.regGramWrite) (hw : s.window = some w) (hin : w.holdsCursor = true) :
    panelData inInit v s = .next (s.setPanel (s.panel.pixel c.autoInc w v)) := by
  subst hc
  simp [panelData, hir, pixelWrite, hw, hin]

/-! ### The three kinds of register write as states -/

/-- The state after DISP.WRREG of a window or configuration register. -/
def putReg (a v : Word) (s : State) : State := (afterReg a v s).setPanel ((afterReg a v s).panel.regWrite a v)

/-- The state after DISP.WRREG of REG_GRAM_X, `a`. -/
def putCursorX (a v : Word) (s : State) : State :=
  (afterReg a v s).setPanel { (afterReg a v s).panel.regWrite a v with cx := some v.toNat }

/-- The state after DISP.WRREG of REG_GRAM_Y, `a`. -/
def putCursorY (a v : Word) (s : State) : State :=
  (afterReg a v s).setPanel { (afterReg a v s).panel.regWrite a v with cy := some v.toNat }

@[simp] theorem putReg_cfg (a v : Word) (s : State) : (putReg a v s).cfg = s.cfg := rfl
@[simp] theorem putReg_pending (a v : Word) (s : State) : (putReg a v s).pending = s.pending := rfl
@[simp] theorem putReg_k (a v : Word) (s : State) : (putReg a v s).k = s.k := rfl
@[simp] theorem putReg_status (a v : Word) (s : State) : (putReg a v s).status = s.status := rfl
@[simp] theorem putReg_fault (a v : Word) (s : State) : (putReg a v s).fault = s.fault := rfl
@[simp] theorem putReg_refused (a v : Word) (s : State) : (putReg a v s).refused = s.refused := rfl
@[simp] theorem putReg_initDone (a v : Word) (s : State) : (putReg a v s).initDone = s.initDone := rfl
@[simp] theorem putReg_returned (a v : Word) (s : State) : (putReg a v s).returned = s.returned := rfl
@[simp] theorem putReg_env (a v : Word) (s : State) : (putReg a v s).env = s.env := rfl
@[simp] theorem putReg_lines (a v : Word) (s : State) : (putReg a v s).lines = s.lines.afterCycle 1#1 v := rfl
@[simp] theorem putReg_events (a v : Word) (s : State) :
    (putReg a v s).events = (cyclesEvents [(0#1, a), (1#1, v)]).reverse ++ s.events := afterReg_events a v s
@[simp] theorem putReg_panel_ir (a v : Word) (s : State) : (putReg a v s).panel.ir = some a := rfl
@[simp] theorem putReg_panel_reg (a v : Word) (s : State) : (putReg a v s).panel.reg = s.panel.reg.write a.toNat v := rfl
@[simp] theorem putReg_panel_cx (a v : Word) (s : State) : (putReg a v s).panel.cx = s.panel.cx := rfl
@[simp] theorem putReg_panel_cy (a v : Word) (s : State) : (putReg a v s).panel.cy = s.panel.cy := rfl
@[simp] theorem putReg_panel_gram (a v : Word) (s : State) : (putReg a v s).panel.gram = s.panel.gram := rfl

@[simp] theorem putCursorX_cfg (a v : Word) (s : State) : (putCursorX a v s).cfg = s.cfg := rfl
@[simp] theorem putCursorX_pending (a v : Word) (s : State) : (putCursorX a v s).pending = s.pending := rfl
@[simp] theorem putCursorX_k (a v : Word) (s : State) : (putCursorX a v s).k = s.k := rfl
@[simp] theorem putCursorX_status (a v : Word) (s : State) : (putCursorX a v s).status = s.status := rfl
@[simp] theorem putCursorX_fault (a v : Word) (s : State) : (putCursorX a v s).fault = s.fault := rfl
@[simp] theorem putCursorX_refused (a v : Word) (s : State) : (putCursorX a v s).refused = s.refused := rfl
@[simp] theorem putCursorX_initDone (a v : Word) (s : State) : (putCursorX a v s).initDone = s.initDone := rfl
@[simp] theorem putCursorX_returned (a v : Word) (s : State) : (putCursorX a v s).returned = s.returned := rfl
@[simp] theorem putCursorX_env (a v : Word) (s : State) : (putCursorX a v s).env = s.env := rfl
@[simp] theorem putCursorX_lines (a v : Word) (s : State) : (putCursorX a v s).lines = s.lines.afterCycle 1#1 v := rfl
@[simp] theorem putCursorX_events (a v : Word) (s : State) :
    (putCursorX a v s).events = (cyclesEvents [(0#1, a), (1#1, v)]).reverse ++ s.events := afterReg_events a v s
@[simp] theorem putCursorX_panel_ir (a v : Word) (s : State) : (putCursorX a v s).panel.ir = some a := rfl
@[simp] theorem putCursorX_panel_reg (a v : Word) (s : State) : (putCursorX a v s).panel.reg = s.panel.reg.write a.toNat v := rfl
@[simp] theorem putCursorX_panel_cx (a v : Word) (s : State) : (putCursorX a v s).panel.cx = some v.toNat := rfl
@[simp] theorem putCursorX_panel_cy (a v : Word) (s : State) : (putCursorX a v s).panel.cy = s.panel.cy := rfl
@[simp] theorem putCursorX_panel_gram (a v : Word) (s : State) : (putCursorX a v s).panel.gram = s.panel.gram := rfl

@[simp] theorem putCursorY_cfg (a v : Word) (s : State) : (putCursorY a v s).cfg = s.cfg := rfl
@[simp] theorem putCursorY_pending (a v : Word) (s : State) : (putCursorY a v s).pending = s.pending := rfl
@[simp] theorem putCursorY_k (a v : Word) (s : State) : (putCursorY a v s).k = s.k := rfl
@[simp] theorem putCursorY_status (a v : Word) (s : State) : (putCursorY a v s).status = s.status := rfl
@[simp] theorem putCursorY_fault (a v : Word) (s : State) : (putCursorY a v s).fault = s.fault := rfl
@[simp] theorem putCursorY_refused (a v : Word) (s : State) : (putCursorY a v s).refused = s.refused := rfl
@[simp] theorem putCursorY_initDone (a v : Word) (s : State) : (putCursorY a v s).initDone = s.initDone := rfl
@[simp] theorem putCursorY_returned (a v : Word) (s : State) : (putCursorY a v s).returned = s.returned := rfl
@[simp] theorem putCursorY_env (a v : Word) (s : State) : (putCursorY a v s).env = s.env := rfl
@[simp] theorem putCursorY_lines (a v : Word) (s : State) : (putCursorY a v s).lines = s.lines.afterCycle 1#1 v := rfl
@[simp] theorem putCursorY_events (a v : Word) (s : State) :
    (putCursorY a v s).events = (cyclesEvents [(0#1, a), (1#1, v)]).reverse ++ s.events := afterReg_events a v s
@[simp] theorem putCursorY_panel_ir (a v : Word) (s : State) : (putCursorY a v s).panel.ir = some a := rfl
@[simp] theorem putCursorY_panel_reg (a v : Word) (s : State) : (putCursorY a v s).panel.reg = s.panel.reg.write a.toNat v := rfl
@[simp] theorem putCursorY_panel_cx (a v : Word) (s : State) : (putCursorY a v s).panel.cx = s.panel.cx := rfl
@[simp] theorem putCursorY_panel_cy (a v : Word) (s : State) : (putCursorY a v s).panel.cy = some v.toNat := rfl
@[simp] theorem putCursorY_panel_gram (a v : Word) (s : State) : (putCursorY a v s).panel.gram = s.panel.gram := rfl

theorem writeReg_window {inInit : Bool} {c : Config} {a v : Word} {s : State} (hc : s.cfg = c) (h : c.valid = true)
    (ha : isWindowReg c a = true) (hv : v.toNat < windowLimit c a) :
    writeReg inInit a v s = .next (putReg a v s) := by
  rw [writeReg_eq, panelData_window (c := c) (by simp [hc]) h (by simp) ha hv, putReg]

theorem writeReg_cursorX {inInit : Bool} {c : Config} {v : Word} {s : State} (hc : s.cfg = c) (h : c.valid = true)
    (hv : v.toNat < WIDTH) : writeReg inInit c.regGramX v s = .next (putCursorX c.regGramX v s) := by
  rw [writeReg_eq, panelData_cursorX (c := c) (by simp [hc]) h (by simp) hv, putCursorX]

theorem writeReg_cursorY {inInit : Bool} {c : Config} {v : Word} {s : State} (hc : s.cfg = c) (h : c.valid = true)
    (hv : v.toNat < HEIGHT) : writeReg inInit c.regGramY v s = .next (putCursorY c.regGramY v s) := by
  rw [writeReg_eq, panelData_cursorY (c := c) (by simp [hc]) h (by simp) hv, putCursorY]

/-! ### setWindow -/

/-- The panel after setWindow. -/
def Panel.afterWindow (c : Config) (x1 y1 x2 y2 : Word) (p : Panel) : Panel :=
  { (((((((p.regWrite c.regHsa x1).regWrite c.regHea x2).regWrite c.regVsa y1).regWrite c.regVea y2).regWrite
      c.regGramX x1).regWrite c.regGramY y1)) with
    ir := some c.regGramWrite, cx := some x1.toNat, cy := some y1.toNat }

/-- The state after setWindow. -/
def afterWindow (x1 y1 x2 y2 : Word) (s : State) : State :=
  { s with
    lines := s.lines.afterCycle 0#1 s.cfg.regGramWrite
    events := (cyclesEvents (windowCycles s.cfg x1 y1 x2 y2)).reverse ++ s.events
    panel := s.panel.afterWindow s.cfg x1 y1 x2 y2 }

theorem coordWord_toNat {x : Int} (h0 : 0 ≤ x) (h1 : x < 65536) : (coordWord x).toNat = x.toNat := by
  simp only [coordWord, BitVec.toNat_ofInt, BUS_WIDTH]
  omega

theorem setWindow_eq {x1 y1 x2 y2 : Int} {s : State} (h : s.cfg.valid = true)
    (hw : windowOnPanel x1 y1 x2 y2 = true) :
    setWindow x1 y1 x2 y2 s = .next (afterWindow (coordWord x1) (coordWord y1) (coordWord x2) (coordWord y2) s) := by
  have hb := hw
  simp only [windowOnPanel, WIDTH, HEIGHT, decide_eq_true_eq] at hb
  have hx1 : (coordWord x1).toNat < 240 := by rw [coordWord_toNat] <;> omega
  have hx2 : (coordWord x2).toNat < 240 := by rw [coordWord_toNat] <;> omega
  have hy1 : (coordWord y1).toNat < 320 := by rw [coordWord_toNat] <;> omega
  have hy2 : (coordWord y2).toNat < 320 := by rw [coordWord_toNat] <;> omega
  have hn := Config.valid_knownRegs_nodup h
  simp only [Config.knownRegs, List.nodup_cons, List.mem_cons, List.not_mem_nil, or_false, not_or] at hn
  have l1 : windowLimit s.cfg s.cfg.regHsa = 240 := by simp [windowLimit]
  have l2 : windowLimit s.cfg s.cfg.regHea = 240 := by simp [windowLimit]
  have l3 : windowLimit s.cfg s.cfg.regVsa = 320 := by
    simp only [windowLimit]
    rw [if_neg (by tauto)]
  have l4 : windowLimit s.cfg s.cfg.regVea = 320 := by
    simp only [windowLimit]
    rw [if_neg (by tauto)]
  have w1 : isWindowReg s.cfg s.cfg.regHsa = true := by simp [isWindowReg]
  have w2 : isWindowReg s.cfg s.cfg.regHea = true := by simp [isWindowReg]
  have w3 : isWindowReg s.cfg s.cfg.regVsa = true := by simp [isWindowReg]
  have w4 : isWindowReg s.cfg s.cfg.regVea = true := by simp [isWindowReg]
  simp only [setWindow, if_pos hw]
  rw [writeReg_window (c := s.cfg) (by simp) h w1 (by omega), andThen_next]
  simp only [putReg_cfg]
  rw [writeReg_window (c := s.cfg) (by simp) h w2 (by omega), andThen_next]
  simp only [putReg_cfg]
  rw [writeReg_window (c := s.cfg) (by simp) h w3 (by omega), andThen_next]
  simp only [putReg_cfg]
  rw [writeReg_window (c := s.cfg) (by simp) h w4 (by omega), andThen_next]
  simp only [putReg_cfg]
  rw [writeReg_cursorX (c := s.cfg) (by simp) h (by omega), andThen_next]
  simp only [putReg_cfg, putCursorX_cfg]
  rw [writeReg_cursorY (c := s.cfg) (by simp) h (by omega), andThen_next]
  simp only [putReg_cfg, putCursorX_cfg, putCursorY_cfg]
  rw [cycle_command]
  refine congrArg Host.Outcome.next ?_
  apply State.ext
  case events => simp [afterWindow, cyclesEvents, windowCycles]
  case panel => apply Panel.ext <;> simp [afterWindow, Panel.afterWindow, Panel.regWrite]
  all_goals simp [afterWindow, Lines.afterCycle]

@[simp] theorem afterWindow_cfg (x1 y1 x2 y2 : Word) (s : State) :
    (afterWindow x1 y1 x2 y2 s).cfg = s.cfg := rfl
@[simp] theorem afterWindow_pending (x1 y1 x2 y2 : Word) (s : State) :
    (afterWindow x1 y1 x2 y2 s).pending = s.pending := rfl
@[simp] theorem afterWindow_k (x1 y1 x2 y2 : Word) (s : State) :
    (afterWindow x1 y1 x2 y2 s).k = s.k := rfl
@[simp] theorem afterWindow_status (x1 y1 x2 y2 : Word) (s : State) :
    (afterWindow x1 y1 x2 y2 s).status = s.status := rfl
@[simp] theorem afterWindow_fault (x1 y1 x2 y2 : Word) (s : State) :
    (afterWindow x1 y1 x2 y2 s).fault = s.fault := rfl
@[simp] theorem afterWindow_refused (x1 y1 x2 y2 : Word) (s : State) :
    (afterWindow x1 y1 x2 y2 s).refused = s.refused := rfl
@[simp] theorem afterWindow_initDone (x1 y1 x2 y2 : Word) (s : State) :
    (afterWindow x1 y1 x2 y2 s).initDone = s.initDone := rfl
@[simp] theorem afterWindow_returned (x1 y1 x2 y2 : Word) (s : State) :
    (afterWindow x1 y1 x2 y2 s).returned = s.returned := rfl
@[simp] theorem afterWindow_env (x1 y1 x2 y2 : Word) (s : State) :
    (afterWindow x1 y1 x2 y2 s).env = s.env := rfl
@[simp] theorem afterWindow_panel (x1 y1 x2 y2 : Word) (s : State) :
    (afterWindow x1 y1 x2 y2 s).panel = s.panel.afterWindow s.cfg x1 y1 x2 y2 := rfl
@[simp] theorem afterWindow_lines (x1 y1 x2 y2 : Word) (s : State) :
    (afterWindow x1 y1 x2 y2 s).lines = s.lines.afterCycle 0#1 s.cfg.regGramWrite := rfl
@[simp] theorem afterWindow_events (x1 y1 x2 y2 : Word) (s : State) :
    (afterWindow x1 y1 x2 y2 s).events = (cyclesEvents (windowCycles s.cfg x1 y1 x2 y2)).reverse ++ s.events := rfl

@[simp] theorem Panel.afterWindow_ir (c : Config) (x1 y1 x2 y2 : Word) (p : Panel) :
    (p.afterWindow c x1 y1 x2 y2).ir = some c.regGramWrite := rfl
@[simp] theorem Panel.afterWindow_gram (c : Config) (x1 y1 x2 y2 : Word) (p : Panel) :
    (p.afterWindow c x1 y1 x2 y2).gram = p.gram := rfl
@[simp] theorem Panel.afterWindow_gramAt (c : Config) (x1 y1 x2 y2 : Word) (p : Panel) (x yd : Nat) :
    (p.afterWindow c x1 y1 x2 y2).gramAt x yd = p.gramAt x yd := rfl

theorem Panel.afterWindow_regAt (c : Config) (x1 y1 x2 y2 : Word) (p : Panel) (a : Word) :
    (p.afterWindow c x1 y1 x2 y2).regAt a =
      if a = c.regGramY then some y1 else if a = c.regGramX then some x1 else if a = c.regVea then some y2
      else if a = c.regVsa then some y1 else if a = c.regHea then some x2 else if a = c.regHsa then some x1
      else p.regAt a := by
  have h : (p.afterWindow c x1 y1 x2 y2).regAt a =
      (((((((p.regWrite c.regHsa x1).regWrite c.regHea x2).regWrite c.regVsa y1).regWrite c.regVea y2).regWrite
        c.regGramX x1).regWrite c.regGramY y1)).regAt a := rfl
  rw [h]
  simp only [Panel.regAt_regWrite]

theorem Panel.afterWindow_wf (c : Config) (x1 y1 x2 y2 : Word) {p : Panel} (h : Memory.wf REG_SIZE p.reg = true) :
    Memory.wf REG_SIZE (p.afterWindow c x1 y1 x2 y2).reg = true :=
  Panel.regWrite_wf _ _ (Panel.regWrite_wf _ _ (Panel.regWrite_wf _ _ (Panel.regWrite_wf _ _
    (Panel.regWrite_wf _ _ (Panel.regWrite_wf _ _ h)))))

/-- setWindow leaves the window it was given, the cursor at its start (R141). -/
theorem afterWindow_window {x1 y1 x2 y2 : Word} {s : State} (h : s.cfg.valid = true) :
    (afterWindow x1 y1 x2 y2 s).window =
      some { hsa := x1.toNat, hea := x2.toNat, vsa := y1.toNat, vea := y2.toNat, cx := x1.toNat, cy := y1.toNat } := by
  have hn := Config.valid_knownRegs_nodup h
  simp only [Config.knownRegs, List.nodup_cons, List.mem_cons, List.not_mem_nil, or_false, not_or] at hn
  obtain ⟨⟨_, _, _, _, _, _⟩, ⟨_, _, _, _, _⟩, ⟨_, _, _, _⟩, ⟨_, _, _⟩, ⟨_, _⟩, _, _⟩ := hn
  have e1 : (afterWindow x1 y1 x2 y2 s).hsa = some x1.toNat := by
    simp [State.hsa, Panel.afterWindow_regAt, *]
  have e2 : (afterWindow x1 y1 x2 y2 s).hea = some x2.toNat := by
    simp [State.hea, Panel.afterWindow_regAt, *]
  have e3 : (afterWindow x1 y1 x2 y2 s).vsa = some y1.toNat := by
    simp [State.vsa, Panel.afterWindow_regAt, *]
  have e4 : (afterWindow x1 y1 x2 y2 s).vea = some y2.toNat := by
    simp [State.vea, Panel.afterWindow_regAt, *]
  simp [State.window, e1, e2, e3, e4, Panel.afterWindow]

/-! ### writePixel -/

/-- The state after writePixel with the window and cursor `w` (R155, R156). -/
def afterPixel (w : Window) (color : Word) (s : State) : State :=
  (afterCycle 1#1 color s).setPanel (s.panel.pixel s.cfg.autoInc w color)

@[simp] theorem afterPixel_cfg (w : Window) (color : Word) (s : State) : (afterPixel w color s).cfg = s.cfg := rfl
@[simp] theorem afterPixel_pending (w : Window) (color : Word) (s : State) : (afterPixel w color s).pending = s.pending := rfl
@[simp] theorem afterPixel_k (w : Window) (color : Word) (s : State) : (afterPixel w color s).k = s.k := rfl
@[simp] theorem afterPixel_status (w : Window) (color : Word) (s : State) : (afterPixel w color s).status = s.status := rfl
@[simp] theorem afterPixel_fault (w : Window) (color : Word) (s : State) : (afterPixel w color s).fault = s.fault := rfl
@[simp] theorem afterPixel_refused (w : Window) (color : Word) (s : State) : (afterPixel w color s).refused = s.refused := rfl
@[simp] theorem afterPixel_initDone (w : Window) (color : Word) (s : State) : (afterPixel w color s).initDone = s.initDone := rfl
@[simp] theorem afterPixel_returned (w : Window) (color : Word) (s : State) : (afterPixel w color s).returned = s.returned := rfl
@[simp] theorem afterPixel_env (w : Window) (color : Word) (s : State) : (afterPixel w color s).env = s.env := rfl
@[simp] theorem afterPixel_panel (w : Window) (color : Word) (s : State) :
    (afterPixel w color s).panel = s.panel.pixel s.cfg.autoInc w color := rfl
@[simp] theorem afterPixel_lines (w : Window) (color : Word) (s : State) :
    (afterPixel w color s).lines = s.lines.afterCycle 1#1 color := rfl
@[simp] theorem afterPixel_events (w : Window) (color : Word) (s : State) :
    (afterPixel w color s).events = (cycleEvents 1#1 color).reverse ++ s.events := rfl

@[simp] theorem Panel.pixel_ir (o : AutoInc) (w : Window) (v : Word) (p : Panel) : (p.pixel o w v).ir = p.ir := rfl
@[simp] theorem Panel.pixel_reg (o : AutoInc) (w : Window) (v : Word) (p : Panel) : (p.pixel o w v).reg = p.reg := rfl
@[simp] theorem Panel.pixel_regAt (o : AutoInc) (w : Window) (v a : Word) (p : Panel) :
    (p.pixel o w v).regAt a = p.regAt a := rfl
@[simp] theorem Panel.pixel_cx (o : AutoInc) (w : Window) (v : Word) (p : Panel) :
    (p.pixel o w v).cx = some (w.advance o).cx := rfl
@[simp] theorem Panel.pixel_cy (o : AutoInc) (w : Window) (v : Word) (p : Panel) :
    (p.pixel o w v).cy = some (w.advance o).cy := rfl

theorem Panel.pixel_gramAt {o : AutoInc} {w : Window} {v : Word} {p : Panel} (hx : w.cx < WIDTH) (hy : w.cy < HEIGHT)
    {x yd : Nat} (hx' : x < WIDTH) (hy' : yd < HEIGHT) :
    (p.pixel o w v).gramAt x yd = if x = w.cx ∧ yd = w.cy then some v else p.gramAt x yd :=
  Panel.gramAt_gramWrite v p hx hy hx' hy'

theorem writePixel_eq {w : Window} {color : Word} {s : State} (hir : s.panel.ir = some s.cfg.regGramWrite)
    (hw : s.window = some w) (hin : w.holdsCursor = true) :
    writePixel color s = .next (afterPixel w color s) := by
  rw [writePixel, if_pos hir, cycle_data]
  exact panelData_pixel (c := s.cfg) (s := afterCycle 1#1 color s) rfl hir hw hin

@[simp] theorem Window.advance_hsa (w : Window) (o : AutoInc) : (w.advance o).hsa = w.hsa := by
  cases o <;> simp only [Window.advance] <;> split <;> try rfl
  all_goals split <;> rfl
@[simp] theorem Window.advance_hea (w : Window) (o : AutoInc) : (w.advance o).hea = w.hea := by
  cases o <;> simp only [Window.advance] <;> split <;> try rfl
  all_goals split <;> rfl
@[simp] theorem Window.advance_vsa (w : Window) (o : AutoInc) : (w.advance o).vsa = w.vsa := by
  cases o <;> simp only [Window.advance] <;> split <;> try rfl
  all_goals split <;> rfl
@[simp] theorem Window.advance_vea (w : Window) (o : AutoInc) : (w.advance o).vea = w.vea := by
  cases o <;> simp only [Window.advance] <;> split <;> try rfl
  all_goals split <;> rfl

/-- What a window reads when all six fields are set. -/
theorem State.window_eq_some {s : State} {w : Window} :
    s.window = some w ↔ s.hsa = some w.hsa ∧ s.hea = some w.hea ∧ s.vsa = some w.vsa ∧ s.vea = some w.vea
      ∧ s.panel.cx = some w.cx ∧ s.panel.cy = some w.cy := by
  constructor
  · intro h
    unfold State.window at h
    split at h
    · simp only [Option.some.injEq] at h
      subst h
      exact ⟨by assumption, by assumption, by assumption, by assumption, by assumption, by assumption⟩
    · simp at h
  · rintro ⟨h1, h2, h3, h4, h5, h6⟩
    simp [State.window, h1, h2, h3, h4, h5, h6]

/-- After a pixel write the window is the same and the cursor has advanced (R156). -/
theorem afterPixel_window {w : Window} {color : Word} {s : State} (hw : s.window = some w) :
    (afterPixel w color s).window = some (w.advance s.cfg.autoInc) := by
  rw [State.window_eq_some] at hw ⊢
  obtain ⟨h1, h2, h3, h4, -, -⟩ := hw
  refine ⟨?_, ?_, ?_, ?_, rfl, rfl⟩
  · simpa [State.hsa] using h1
  · simpa [State.hea] using h2
  · simpa [State.vsa] using h3
  · simpa [State.vea] using h4

/-- The advance never leaves the window (R156). -/
theorem Window.advance_holdsCursor {w : Window} (o : AutoInc) (h : w.holdsCursor = true) :
    (w.advance o).holdsCursor = true := by
  simp only [Window.holdsCursor, decide_eq_true_eq] at h ⊢
  cases o <;> simp only [Window.advance] <;> split <;> (try split) <;> simp only <;> omega

/-! ### RAST.PIXEL calls -/

/-- The state after one RAST.PIXEL call (R171). -/
def afterDot (d : Dot) (s : State) : State :=
  if inBounds d.x d.y then
    { s with
      lines := s.lines.afterCycle 1#1 d.color
      events := (cyclesEvents (dotCycles s.cfg d)).reverse ++ s.events
      panel := (s.panel.afterWindow s.cfg (coordWord d.x) (coordWord (deviceRow d.y)) (coordWord d.x)
        (coordWord (deviceRow d.y))).gramWrite d.x.toNat (deviceRow d.y).toNat d.color }
  else s

theorem drawDot_eq {d : Dot} {s : State} (h : s.cfg.valid = true) : drawDot d s = .next (afterDot d s) := by
  unfold drawDot afterDot
  split
  case isFalse => rfl
  case isTrue hb =>
    simp only [inBounds, WIDTH, HEIGHT, decide_eq_true_eq] at hb
    have hw : windowOnPanel d.x (deviceRow d.y) d.x (deviceRow d.y) = true := by
      rw [windowOnPanel, decide_eq_true_eq]
      simp only [deviceRow, WIDTH, HEIGHT]
      omega
    have hx : (coordWord d.x).toNat = d.x.toNat := coordWord_toNat (by omega) (by omega)
    have hy : (coordWord (deviceRow d.y)).toNat = (deviceRow d.y).toNat := by
      apply coordWord_toNat <;> simp only [deviceRow, HEIGHT] <;> omega
    rw [setWindow_eq h hw, andThen_next, writePixel_eq (by simp) (afterWindow_window h) (by simp [Window.holdsCursor])]
    refine congrArg Host.Outcome.next ?_
    apply State.ext
    case events => simp [dotCycles, cyclesEvents]
    case panel =>
      cases hc : s.cfg.autoInc <;>
        simp [Panel.pixel, Panel.gramWrite, Panel.afterWindow, Window.advance, hc, hx, hy]
    all_goals simp [Lines.afterCycle]

@[simp] theorem afterDot_cfg (d : Dot) (s : State) : (afterDot d s).cfg = s.cfg := by
  unfold afterDot; split <;> rfl

/-- The state after RAST.PIXEL calls. -/
def afterDots (ds : List Dot) (s : State) : State := ds.foldl (fun s d => afterDot d s) s

@[simp] theorem afterDots_nil (s : State) : afterDots [] s = s := rfl
@[simp] theorem afterDots_cons (d : Dot) (ds : List Dot) (s : State) :
    afterDots (d :: ds) s = afterDots ds (afterDot d s) := rfl

@[simp] theorem afterDots_cfg (ds : List Dot) (s : State) : (afterDots ds s).cfg = s.cfg := by
  induction ds generalizing s with
  | nil => rfl
  | cons d ds ih => simp [ih]

/-- RAST.PIXEL calls always complete under a valid configuration. -/
theorem drawDots_eq {ds : List Dot} {s : State} (h : s.cfg.valid = true) :
    drawDots ds s = .next (afterDots ds s) := by
  induction ds generalizing s with
  | nil => rfl
  | cons d ds ih => rw [drawDots, drawDot_eq h, andThen_next, ih (by simpa using h), afterDots_cons]

theorem drawDots_append (ds es : List Dot) (s : State) :
    drawDots (ds ++ es) s = andThen (drawDots ds s) (drawDots es) := by
  induction ds generalizing s with
  | nil => rfl
  | cons d ds ih =>
    rw [List.cons_append, drawDots, drawDots, andThen_assoc]
    congr 1
    funext t
    exact ih t

theorem afterDots_append (ds es : List Dot) (s : State) :
    afterDots (ds ++ es) s = afterDots es (afterDots ds s) := by
  simp [afterDots, List.foldl_append]

theorem afterDot_sameButDisplay (d : Dot) (s : State) : sameButDisplay s (afterDot d s) := by
  unfold afterDot
  split <;> exact ⟨⟨rfl, rfl, rfl, rfl, rfl⟩, rfl, rfl, rfl, rfl, rfl, rfl, rfl⟩

theorem sameButDisplay_refl (s : State) : sameButDisplay s s :=
  ⟨⟨rfl, rfl, rfl, rfl, rfl⟩, rfl, rfl, rfl, rfl, rfl, rfl, rfl⟩

theorem sameButDisplay_trans {s t u : State} (h : sameButDisplay s t) (h' : sameButDisplay t u) :
    sameButDisplay s u := by
  obtain ⟨⟨a1, a2, a3, a4, a5⟩, a6, a7, a8, a9, a10, a11, a12⟩ := h
  obtain ⟨⟨b1, b2, b3, b4, b5⟩, b6, b7, b8, b9, b10, b11, b12⟩ := h'
  exact ⟨⟨b1.trans a1, b2.trans a2, b3.trans a3, b4.trans a4, b5.trans a5⟩, b6.trans a6, b7.trans a7, b8.trans a8,
    b9.trans a9, b10.trans a10, b11.trans a11, b12.trans a12⟩

theorem afterDots_sameButDisplay (ds : List Dot) (s : State) : sameButDisplay s (afterDots ds s) := by
  induction ds generalizing s with
  | nil => exact sameButDisplay_refl s
  | cons d ds ih => exact sameButDisplay_trans (afterDot_sameButDisplay d s) (ih _)

theorem afterDots_trace (ds : List Dot) (s : State) : emitted (dotsEvents s.cfg ds) s (afterDots ds s) := by
  induction ds generalizing s with
  | nil => simp [emitted, dotsEvents, dotsInBounds]
  | cons d ds ih =>
    have h := ih (afterDot d s)
    simp only [emitted, State.trace, afterDots_cons, afterDot_cfg, dotsEvents, dotsInBounds] at h ⊢
    rw [h]
    unfold afterDot
    split
    · rename_i hb
      simp [hb]
    · rename_i hb
      simp [hb]

/-- One call's effect on GRAM. -/
theorem afterDot_gramAt {d : Dot} {s : State} {x yd : Nat} (hx : x < WIDTH) (hy : yd < HEIGHT) :
    (afterDot d s).panel.gramAt x yd =
      if d.x = (x : Int) ∧ d.y = (HEIGHT : Int) - 1 - (yd : Int) then some d.color else s.panel.gramAt x yd := by
  unfold afterDot
  split
  · rename_i hb
    simp only [inBounds, WIDTH, HEIGHT, decide_eq_true_eq] at hb
    have hx' : d.x.toNat < WIDTH := by simp only [WIDTH]; omega
    have hy' : (deviceRow d.y).toNat < HEIGHT := by simp only [deviceRow, HEIGHT]; omega
    rw [Panel.gramAt_gramWrite d.color _ hx' hy' hx hy, Panel.afterWindow_gramAt]
    have : (x = d.x.toNat ∧ yd = (deviceRow d.y).toNat) ↔ (d.x = (x : Int) ∧ d.y = (HEIGHT : Int) - 1 - (yd : Int)) := by
      simp only [deviceRow, HEIGHT, WIDTH] at *
      omega
    simp only [this]
  · rename_i hb
    simp only [inBounds, WIDTH, HEIGHT, decide_eq_true_eq] at hb
    rw [if_neg]
    simp only [WIDTH, HEIGHT] at *
    omega

/-- GRAM after any list of RAST.PIXEL calls. -/
theorem afterDots_gram (ds : List Dot) (s : State) : gramAfterDots ds s (afterDots ds s) := by
  intro x yd hx hy
  induction ds generalizing s with
  | nil => simp [lastColor]
  | cons d ds ih =>
    rw [afterDots_cons, ih, afterDot_gramAt hx hy]
    simp only [lastColor]
    by_cases hd : d.x = (x : Int) ∧ d.y = (HEIGHT : Int) - 1 - (yd : Int)
    · rw [List.filter_cons_of_pos (by simpa using hd), if_pos hd]
      cases hl : ds.filter fun d => decide (d.x = (x : Int) ∧ d.y = (HEIGHT : Int) - 1 - (yd : Int)) with
      | nil => simp
      | cons e es => simp [List.getLast?_cons]
    · rw [List.filter_cons_of_neg (by simpa using hd), if_neg hd]

/-! ### Registers, window and lines after RAST.PIXEL calls -/

theorem afterWindow_regs {x1 y1 x2 y2 a : Word} {c : Config} {p : Panel} (h : a ∉ windowRegs c) :
    (p.afterWindow c x1 y1 x2 y2).regAt a = p.regAt a := by
  simp only [windowRegs, List.mem_cons, List.not_mem_nil, or_false, not_or] at h
  obtain ⟨h1, h2, h3, h4, h5, h6⟩ := h
  rw [Panel.afterWindow_regAt, if_neg h6, if_neg h5, if_neg h4, if_neg h3, if_neg h2, if_neg h1]

theorem afterDot_regs (d : Dot) (s : State) : sameRegsBut (windowRegs s.cfg) s (afterDot d s) := by
  intro a ha
  unfold afterDot
  split
  · simp only [Panel.gramWrite_regAt, afterWindow_regs ha]
  · rfl

theorem afterDots_regs (ds : List Dot) (s : State) : sameRegsBut (windowRegs s.cfg) s (afterDots ds s) := by
  induction ds generalizing s with
  | nil => exact fun _ _ => rfl
  | cons d ds ih =>
    intro a ha
    have h := ih (afterDot d s)
    rw [afterDot_cfg] at h
    rw [afterDots_cons, h a ha, afterDot_regs d s a ha]

/-- With no call in bounds nothing changes (R171). -/
theorem afterDots_none {ds : List Dot} (s : State) (h : dotsInBounds ds = []) : afterDots ds s = s := by
  induction ds with
  | nil => rfl
  | cons d ds ih =>
    simp only [dotsInBounds, List.filter_eq_nil_iff, List.mem_cons, forall_eq_or_imp] at h ih
    rw [afterDots_cons]
    have hd : afterDot d s = s := by simp [afterDot, h.1]
    rw [hd, ih h.2]

/-- One call in bounds leaves its one-cell window and its colour on the bus (R171). -/
theorem afterDot_window {d : Dot} {s : State} (hv : s.cfg.valid = true) (hb : inBounds d.x d.y = true) :
    windowAt (afterDot d s) d.x.toNat d.x.toNat (deviceRow d.y).toNat (deviceRow d.y).toNat d.x.toNat
      (deviceRow d.y).toNat := by
  have hb' := hb
  simp only [inBounds, WIDTH, HEIGHT, decide_eq_true_eq] at hb'
  have hx : (coordWord d.x).toNat = d.x.toNat := coordWord_toNat (by omega) (by omega)
  have hy : (coordWord (deviceRow d.y)).toNat = (deviceRow d.y).toNat := by
    apply coordWord_toNat <;> simp only [deviceRow, HEIGHT] <;> omega
  have hw := afterWindow_window (x1 := coordWord d.x) (y1 := coordWord (deviceRow d.y)) (x2 := coordWord d.x)
    (y2 := coordWord (deviceRow d.y)) hv
  rw [hx, hy] at hw
  rw [State.window_eq_some] at hw
  obtain ⟨h1, h2, h3, h4, h5, h6⟩ := hw
  unfold afterDot
  rw [if_pos hb]
  exact ⟨State.window_eq_some.mpr ⟨h1, h2, h3, h4, h5, h6⟩, rfl⟩

theorem Lines.afterCycle_of_sameTouch {l l' : Lines} (rs : Level) (v : Word) (h : l.sameTouch l') :
    l'.afterCycle rs v = l.afterCycle rs v := by
  obtain ⟨h1, h2, h3⟩ := h
  simp [Lines.afterCycle, h1, h2, h3]

theorem dotsInBounds_cons_in {d : Dot} (ds : List Dot) (h : inBounds d.x d.y = true) :
    dotsInBounds (d :: ds) = d :: dotsInBounds ds := by simp [dotsInBounds, h]

theorem dotsInBounds_cons_out {d : Dot} (ds : List Dot) (h : ¬ inBounds d.x d.y = true) :
    dotsInBounds (d :: ds) = dotsInBounds ds := by simp [dotsInBounds, h]

/-- After some calls the window and the lines are those of the last one that is in bounds. -/
theorem afterDots_last {ds : List Dot} {d : Dot} {s : State} (hv : s.cfg.valid = true)
    (h : (dotsInBounds ds).getLast? = some d) :
    windowAt (afterDots ds s) d.x.toNat d.x.toNat (deviceRow d.y).toNat (deviceRow d.y).toNat d.x.toNat
        (deviceRow d.y).toNat
      ∧ (afterDots ds s).lines = s.lines.afterCycle 1#1 d.color := by
  induction ds generalizing s with
  | nil => simp [dotsInBounds] at h
  | cons e ds ih =>
    rw [afterDots_cons]
    cases hn : dotsInBounds ds with
    | nil =>
      rw [afterDots_none _ hn]
      by_cases hb : inBounds e.x e.y = true
      · rw [dotsInBounds_cons_in ds hb, hn] at h
        obtain rfl : e = d := by simpa using h
        refine ⟨afterDot_window hv hb, ?_⟩
        unfold afterDot
        rw [if_pos hb]
      · rw [dotsInBounds_cons_out ds hb, hn] at h
        simp at h
    | cons a as =>
      have hl : (dotsInBounds ds).getLast? = some d := by
        by_cases hb : inBounds e.x e.y = true
        · rw [dotsInBounds_cons_in ds hb, hn, List.getLast?_cons_cons] at h
          rw [hn]
          exact h
        · rw [dotsInBounds_cons_out ds hb] at h
          exact h
      obtain ⟨h1, h2⟩ := ih (s := afterDot e s) (by simpa using hv) hl
      exact ⟨h1, h2.trans (Lines.afterCycle_of_sameTouch _ _ (afterDot_sameButDisplay e s).2.2.2.2.2)⟩

/-- Everything some RAST.PIXEL calls leave behind, beside the frame `afterDots_sameButDisplay`. -/
theorem afterDots_outcome (ds : List Dot) {s : State} (hv : s.cfg.valid = true) :
    gramAfterDots ds s (afterDots ds s) ∧ emitted (dotsEvents s.cfg ds) s (afterDots ds s)
      ∧ sameRegsBut (windowRegs s.cfg) s (afterDots ds s)
      ∧ (∀ d, (dotsInBounds ds).getLast? = some d →
          windowAt (afterDots ds s) d.x.toNat d.x.toNat (deviceRow d.y).toNat (deviceRow d.y).toNat d.x.toNat
              (deviceRow d.y).toNat
            ∧ (afterDots ds s).lines = s.lines.afterCycle 1#1 d.color)
      ∧ (dotsInBounds ds = [] → (afterDots ds s).panel = s.panel ∧ (afterDots ds s).lines = s.lines) :=
  ⟨afterDots_gram ds s, afterDots_trace ds s, afterDots_regs ds s, fun _ h => afterDots_last hv h,
    fun h => by rw [afterDots_none s h]; exact ⟨rfl, rfl⟩⟩

end Sys2Proof.Machine
end

