-- ==== Sys2Proof/Laws/Touch.lean ====
section
/-! SUPPORT. Samples and conversions (41_touch.md R121): the events, the lines, the environment and the result of
Conv(cmd), each said once. -/

namespace Sys2Proof.Machine

/-! ### Draws -/

theorem Env.draw_level (e : Env) (line : InLine) : (e.draw line).1 = e.nextLevel line 0 := by
  cases line
  · simp only [Env.draw, Env.nextLevel]
    cases e.dout <;> simp
  · simp only [Env.draw, Env.nextLevel]
    cases e.pen <;> simp

theorem Env.draw_env (e : Env) (line : InLine) : (e.draw line).2 = e.afterDraws line 1 := by
  cases line
  · simp only [Env.draw, Env.afterDraws]
    cases e.dout <;> simp
  · simp only [Env.draw, Env.afterDraws]
    cases e.pen <;> simp

theorem Env.nextLevel_afterDraws (e : Env) (line : InLine) (m n : Nat) :
    (e.afterDraws line m).nextLevel line n = e.nextLevel line (m + n) := by
  cases line <;> simp [Env.nextLevel, Env.afterDraws, List.getElem?_drop, Nat.add_assoc]

theorem Env.afterDraws_afterDraws (e : Env) (line : InLine) (m n : Nat) :
    (e.afterDraws line m).afterDraws line n = e.afterDraws line (m + n) := by
  cases line <;> simp [Env.afterDraws, List.drop_drop, Nat.add_assoc]

@[simp] theorem Env.afterDraws_zero (e : Env) (line : InLine) : e.afterDraws line 0 = e := by
  cases line <;> simp [Env.afterDraws]

/-! ### The shape every part of a conversion has -/

/-- `t` is `s` with the touch clock low, D_IN at `din`, `evs` emitted and `n` samples of T_DOUT drawn, and nothing
else different. -/
def touchMove (evs : List Event) (din : Option Level) (n : Nat) (s t : State) : Prop :=
  t = { s with
    lines := { s.lines with tClk := some 0#1, tDin := din }
    events := evs.reverse ++ s.events
    env := s.env.afterDraws .tDout n }

theorem touchMove_trans {es fs : List Event} {d d' : Option Level} {m n : Nat} {s t u : State}
    (h : touchMove es d m s t) (h' : touchMove fs d' n t u) : touchMove (es ++ fs) d' (m + n) s u := by
  unfold touchMove at *
  subst h h'
  simp [Env.afterDraws_afterDraws]

theorem pulse_move (s : State) : touchMove pulseEvents s.lines.tDin 0 s (pulse s) := by
  unfold touchMove
  apply State.ext <;> simp [pulse, pulseEvents]
  rfl

theorem sendBit_move (b : Level) (s : State) :
    touchMove ([.drive .tDin b, .settle] ++ pulseEvents) (some b) 0 s (sendBit b s) := by
  unfold touchMove
  apply State.ext <;> simp [sendBit, pulse, pulseEvents]
  rfl

/-- Sending the low `n` bits of a command, when the clock is low before. -/
theorem sendBits_move (cmd : Byte) (n : Nat) (s : State) (hclk : s.lines.tClk = some 0#1) :
    touchMove
      ((List.range n).flatMap fun i =>
        [.drive .tDin (BitVec.ofBool (cmd.getLsbD (n - 1 - i))), .settle] ++ pulseEvents)
      (if n = 0 then s.lines.tDin else some (BitVec.ofBool (cmd.getLsbD 0))) 0 s (sendBits cmd n s) := by
  induction n generalizing s with
  | zero =>
    simp only [sendBits, touchMove, List.range_zero, List.flatMap_nil, List.reverse_nil, List.nil_append, if_true,
      Env.afterDraws_zero]
    rw [← hclk]
  | succ n ih =>
    have h1 := sendBit_move (BitVec.ofBool (cmd.getLsbD n)) s
    have hclk' : (sendBit (BitVec.ofBool (cmd.getLsbD n)) s).lines.tClk = some 0#1 := by
      unfold touchMove at h1
      rw [h1]
    have h2 := touchMove_trans h1 (ih _ hclk')
    have hdin : (sendBit (BitVec.ofBool (cmd.getLsbD n)) s).lines.tDin = some (BitVec.ofBool (cmd.getLsbD n)) := by
      unfold touchMove at h1
      rw [h1]
    rw [sendBits]
    convert h2 using 1
    · rw [List.range_succ_eq_map, List.flatMap_cons, List.flatMap_map]
      simp [Nat.sub_sub, Nat.add_comm]
    · rw [hdin]
      cases n <;> simp

theorem gapPulses_move (n : Nat) (s : State) (hclk : s.lines.tClk = some 0#1) :
    touchMove ((List.range n).flatMap fun _ => pulseEvents) s.lines.tDin 0 s (gapPulses n s) := by
  induction n generalizing s with
  | zero =>
    simp only [gapPulses, touchMove, List.range_zero, List.flatMap_nil, List.reverse_nil, List.nil_append,
      Env.afterDraws_zero]
    rw [← hclk]
  | succ n ih =>
    have h1 := pulse_move s
    have hclk' : (pulse s).lines.tClk = some 0#1 := rfl
    have h2 := touchMove_trans h1 (ih _ hclk')
    rw [gapPulses]
    rw [List.range_succ_eq_map, List.flatMap_cons, List.flatMap_map]
    exact h2

/-- A pulse and the sample after it. -/
theorem sampledPulse_move (s : State) :
    touchMove (pulseEvents ++ [.sample .tDout]) s.lines.tDin 1 s (sampleAfter .tDout (pulse s)) := by
  unfold touchMove
  apply State.ext <;> simp [pulse, pulseEvents, Env.draw_env]
  rfl

theorem sampledPulse_level (s : State) : sampleLevel .tDout (pulse s) = s.env.nextLevel .tDout 0 := by
  rw [sampleLevel, Env.draw_level]
  rfl

theorem receiveBits_move (n : Nat) (v : Raw) (s : State) (hclk : s.lines.tClk = some 0#1) :
    touchMove ((List.range n).flatMap fun _ => pulseEvents ++ [.sample .tDout]) s.lines.tDin n s
      (receiveBits n v s).2 := by
  induction n generalizing v s with
  | zero =>
    simp only [receiveBits, touchMove, List.range_zero, List.flatMap_nil, List.reverse_nil, List.nil_append,
      Env.afterDraws_zero]
    rw [← hclk]
  | succ n ih =>
    have h1 := sampledPulse_move s
    have h2 := touchMove_trans h1 (ih (putBit v n (sampleLevel .tDout (pulse s))) (sampleAfter .tDout (pulse s)) rfl)
    rw [receiveBits]
    rw [List.range_succ_eq_map, List.flatMap_cons, List.flatMap_map, Nat.add_comm n 1]
    exact h2

theorem putBit_getLsbD (v : Raw) (n : Nat) (b : Level) (j : Nat) :
    (putBit v n b).getLsbD j = (v.getLsbD j || (decide (j < 12) && decide (n = j) && b.getLsbD 0)) := by
  simp only [putBit, BitVec.getLsbD_or, BitVec.getLsbD_shiftLeft, BitVec.getLsbD_setWidth]
  by_cases hj : j < 12
  · by_cases hn : n = j
    · subst hn
      simp [hj]
    · by_cases hlt : j < n
      · simp [hj, hn, hlt]
      · have : b.getLsbD (j - n) = false := BitVec.getLsbD_of_ge b (j - n) (by omega)
        simp [hj, hn, hlt, this]
  · have : v.getLsbD j = false := BitVec.getLsbD_of_ge v j (Nat.le_of_not_lt hj)
    simp [hj, this]

/-- The bits from `n` up keep their value, the bits below are drawn in order, the highest first. -/
theorem receiveBits_bit (n : Nat) (hn : n ≤ 12) (v : Raw) (hv : ∀ j, j < n → v.getLsbD j = false) (s : State) (j : Nat) :
    (receiveBits n v s).1.getLsbD j =
      if j < n then (s.env.nextLevel .tDout (n - 1 - j)).getLsbD 0 else v.getLsbD j := by
  induction n generalizing v s with
  | zero => simp [receiveBits]
  | succ n ih =>
    rw [receiveBits, ih (by omega)]
    · have henv : (sampleAfter .tDout (pulse s)).env = s.env.afterDraws .tDout 1 := by
        rw [sampleAfter_env, Env.draw_env]
        rfl
      rw [henv, Env.nextLevel_afterDraws, putBit_getLsbD, sampledPulse_level]
      by_cases h1 : j < n
      · rw [if_pos h1, if_pos (by omega)]
        congr 2
        omega
      · by_cases h2 : j = n
        · subst h2
          rw [if_neg h1, if_pos (by omega), hv j (by omega)]
          simp [show j < 12 by omega]
        · rw [if_neg h1, if_neg (by omega)]
          simp [show n ≠ j by omega]
    · intro i hi
      rw [putBit_getLsbD, hv i (by omega)]
      simp [show n ≠ i by omega]

theorem level_eq_ofBool (b : Level) : BitVec.ofBool (b.getLsbD 0) = b := by
  revert b
  decide

/-- Conv(cmd), everything it does (R121), when the clock is low before it. -/
theorem conversion_move (cmd : Byte) (s : State) (hclk : s.lines.tClk = some 0#1) :
    touchMove (conversionEvents s.cfg.touchGapClocks cmd) (some (BitVec.ofBool (cmd.getLsbD 0))) 12 s
      (conversion cmd s).2 := by
  have h1 := sendBits_move cmd 8 s hclk
  have hcfg : (sendBits cmd 8 s).cfg = s.cfg := by unfold touchMove at h1; rw [h1]
  have hclk1 : (sendBits cmd 8 s).lines.tClk = some 0#1 := by unfold touchMove at h1; rw [h1]
  have hdin1 : (sendBits cmd 8 s).lines.tDin = some (BitVec.ofBool (cmd.getLsbD 0)) := by
    unfold touchMove at h1; rw [h1]; simp
  have h2 := gapPulses_move s.cfg.touchGapClocks (sendBits cmd 8 s) hclk1
  have hclk2 : (gapPulses s.cfg.touchGapClocks (sendBits cmd 8 s)).lines.tClk = some 0#1 := by
    unfold touchMove at h2; rw [h2]
  have hdin2 : (gapPulses s.cfg.touchGapClocks (sendBits cmd 8 s)).lines.tDin =
      some (BitVec.ofBool (cmd.getLsbD 0)) := by
    unfold touchMove at h2; rw [h2]; simpa using hdin1
  have h3 := receiveBits_move 12 0#12 (gapPulses s.cfg.touchGapClocks (sendBits cmd 8 s)) hclk2
  have h := touchMove_trans (touchMove_trans h1 h2) h3
  rw [hdin2] at h
  simpa [conversion, conversionEvents, commandEvents, dataEvents] using h

/-- The result of Conv(cmd) is the twelve bits drawn, MSB first (R121, R122). -/
theorem conversion_spells (cmd : Byte) (s : State) (hclk : s.lines.tClk = some 0#1) :
    spells s.env 0 (conversion cmd s).1 := by
  intro j hj
  have h1 := sendBits_move cmd 8 s hclk
  have hclk1 : (sendBits cmd 8 s).lines.tClk = some 0#1 := by unfold touchMove at h1; rw [h1]
  have h2 := gapPulses_move s.cfg.touchGapClocks (sendBits cmd 8 s) hclk1
  have henv : (gapPulses s.cfg.touchGapClocks (sendBits cmd 8 s)).env = s.env := by
    unfold touchMove at h1 h2
    rw [h2, h1]
    simp
  have hb : 11 - j < TOUCH_BITS := by
    simp only [TOUCH_BITS]
    omega
  rw [conversion, receiveBits_bit TOUCH_BITS (Nat.le_refl 12) 0#TOUCH_BITS (by simp), if_pos hb, henv, level_eq_ofBool]
  congr 1
  simp only [TOUCH_BITS]
  omega

theorem spells_afterDraws {e : Env} {m n : Nat} {v : Raw} (h : spells (e.afterDraws .tDout m) n v) :
    spells e (m + n) v := by
  intro j hj
  rw [h j hj, Env.nextLevel_afterDraws, Nat.add_assoc]

/-- Two conversions, one after the other, as TOUCH.READPOS makes them (R123). -/
theorem conversions_move (c d : Byte) (s : State) (hclk : s.lines.tClk = some 0#1) :
    touchMove (conversionEvents s.cfg.touchGapClocks c ++ conversionEvents s.cfg.touchGapClocks d)
        (some (BitVec.ofBool (d.getLsbD 0))) 24 s (conversion d (conversion c s).2).2
      ∧ spells s.env 0 (conversion c s).1 ∧ spells s.env 12 (conversion d (conversion c s).2).1 := by
  have h1 := conversion_move c s hclk
  have h1' := h1
  unfold touchMove at h1'
  generalize (conversion c s).2 = t at *
  have hcfg : t.cfg = s.cfg := by rw [h1']
  have hclk' : t.lines.tClk = some 0#1 := by rw [h1']
  have henv : t.env = s.env.afterDraws .tDout 12 := by rw [h1']
  have h2 := conversion_move d t hclk'
  rw [hcfg] at h2
  refine ⟨touchMove_trans h1 h2, conversion_spells c s hclk, ?_⟩
  have h3 := conversion_spells d t hclk'
  rw [henv] at h3
  exact spells_afterDraws h3

end Sys2Proof.Machine
end

