-- ==== Sys2Proof/Laws/Step.lean ====
section
/-! SUPPORT. What operations are made of, said once: the moves of the display side and of the touch side, the shared
operations as sequences of them that end in a next state or in a fault, and the step by inversion. -/

namespace Sys2Proof.Machine

/-! ### Moves -/

/-- One display cycle, with or without a reaction of the panel (42_display.md R150 to R158). -/
inductive DisplayMove (s : State) : State → Prop where
  | command (v : Word) : DisplayMove s (panelCommand v (afterCycle 0#1 v s))
  | data (inInit : Bool) (v : Word) (p : Panel) (h : DataEffect inInit v (afterCycle 1#1 v s) p) :
      DisplayMove s ((afterCycle 1#1 v s).setPanel p)
  /-- The seven events of a cycle that faults (log 8). -/
  | stalled (v : Word) : DisplayMove s (afterCycle 1#1 v s)

/-- A display cycle or STATUS.GLYPH (44_text.md R192). -/
inductive TextMove (s : State) : State → Prop where
  | display {t : State} (h : DisplayMove s t) : TextMove s t
  | glyph : TextMove s (setGlyph s)

/-- One event on the touch side, or a result for the host. -/
inductive TouchMove (s : State) : State → Prop where
  | clk (v : Level) : TouchMove s (drive .tClk v s)
  | cs (v : Level) : TouchMove s (drive .tCs v s)
  | din (v : Level) : TouchMove s (drive .tDin v s)
  | settle : TouchMove s (settle s)
  | sample (line : InLine) : TouchMove s (sampleAfter line s)
  | result (v : Value) : TouchMove s (s.giveResult v)

/-- Some moves, one after the other. -/
abbrev Moves (M : State → State → Prop) : State → State → Prop := Relation.ReflTransGen M

/-- A relation that holds of nothing done, of each move and of two parts one after the other holds of all moves. -/
theorem Moves.lift {M R : State → State → Prop} (hrefl : ∀ s, R s s) (htrans : ∀ {s t u}, R s t → R t u → R s u)
    (hmove : ∀ {s t}, M s t → R s t) {s t : State} (h : Moves M s t) : R s t := by
  induction h with
  | refl => exact hrefl s
  | tail _ hm ih => exact htrans ih (hmove hm)

/-- A property that each move keeps is kept by all of them. -/
theorem Moves.keep {M : State → State → Prop} {P : State → Prop} (hmove : ∀ {s t}, M s t → P s → P t) {s t : State}
    (h : Moves M s t) (hs : P s) : P t := by
  induction h with
  | refl => exact hs
  | tail _ hm ih => exact hmove hm ih

/-! ### Results that are made of moves and never refuse -/

/-- The outcome is reached by moves, and is no refusal. A fault leaves the state it was raised in, with S.fault set
(60_exceptions.md R220). -/
def Works (M : State → State → Prop) (s : State) : Result → Prop
  | .next t => Moves M s t
  | .fault e => ∃ r u, Moves M s u ∧ e = Fault.of r (u.setFault r)
  | .refused _ => False

theorem Works.next {M : State → State → Prop} {s t : State} (h : Moves M s t) : Works M s (.next t) := h

theorem Works.raise {M : State → State → Prop} {s u : State} (r : FaultRecord) (h : Moves M s u) :
    Works M s (raise r u) := ⟨r, u, h, rfl⟩

theorem Works.of_moves {M : State → State → Prop} {s t : State} {r : Result} (h : Moves M s t) (hr : Works M t r) :
    Works M s r := by
  cases r with
  | next u => exact h.trans hr
  | fault e =>
    obtain ⟨r, u, hu, he⟩ := hr
    exact ⟨r, u, h.trans hu, he⟩
  | refused e => exact hr

theorem Works.andThen {M : State → State → Prop} {s : State} {r : Result} {f : State → Result} (hr : Works M s r)
    (hf : ∀ t, Moves M s t → r = .next t → Works M t (f t)) : Works M s (andThen r f) := by
  cases r with
  | next t => exact Works.of_moves hr (hf t hr rfl)
  | fault e => exact hr
  | refused e => exact hr

theorem Works.mono {M N : State → State → Prop} (hMN : ∀ {s t}, M s t → N s t) {s : State} {r : Result}
    (h : Works M s r) : Works N s r := by
  have lift : ∀ {s t}, Moves M s t → Moves N s t := fun h => Relation.ReflTransGen.mono (fun _ _ hm => hMN hm) _ _ h
  cases r with
  | next t => exact lift h
  | fault e =>
    obtain ⟨r, u, hu, he⟩ := h
    exact ⟨r, u, lift hu, he⟩
  | refused e => exact h

/-! ### The display side -/

/-- A data cycle works unless it would write a configuration register outside DISP.INIT (42_display.md R158). -/
theorem cycle_data_works {inInit : Bool} {v : Word} {s : State}
    (h : inInit = true ∨ ∀ a, s.panel.ir = some a → isKnownReg s.cfg a = true) :
    Works DisplayMove s (cycle inInit 1#1 v s) := by
  rw [cycle_data]
  cases hr : panelData inInit v (afterCycle 1#1 v s) with
  | next t =>
    obtain ⟨p, hp, rfl⟩ := panelData_eq_next hr
    exact .single (.data inInit v p hp)
  | fault e =>
    have : ∃ r, e = Fault.of r ((afterCycle 1#1 v s).setFault r) := by
      unfold panelData at hr
      split at hr
      · exact ⟨_, by simpa [raise] using hr.symm⟩
      · split at hr
        · unfold pixelWrite at hr
          split at hr
          · split at hr
            · simp at hr
            · exact ⟨_, by simpa only [raise, Host.Outcome.fault.injEq] using hr.symm⟩
          · exact ⟨_, by simpa only [raise, Host.Outcome.fault.injEq] using hr.symm⟩
        · split at hr
          · unfold windowWrite at hr
            split at hr
            · exact ⟨_, by simpa only [raise, Host.Outcome.fault.injEq] using hr.symm⟩
            · simp at hr
          · split at hr
            · unfold cursorWrite at hr
              split at hr <;> split at hr
              · exact ⟨_, by simpa only [raise, Host.Outcome.fault.injEq] using hr.symm⟩
              · simp at hr
              · exact ⟨_, by simpa only [raise, Host.Outcome.fault.injEq] using hr.symm⟩
              · simp at hr
            · unfold configWrite at hr
              split at hr
              · simp at hr
              · simp [refuse] at hr
    obtain ⟨r, he⟩ := this
    exact ⟨r, _, .single (.stalled v), he⟩
  | refused e =>
    exfalso
    unfold panelData at hr
    split at hr
    · simp [raise] at hr
    · rename_i a hir
      split at hr
      · unfold pixelWrite at hr
        split at hr
        · split at hr <;> simp [raise] at hr
        · simp [raise] at hr
      · split at hr
        · unfold windowWrite at hr
          split at hr <;> simp [raise] at hr
        · split at hr
          · unfold cursorWrite at hr
            split at hr <;> split at hr <;> simp [raise] at hr
          · rename_i hgw hwin hcur
            unfold configWrite at hr
            split at hr
            · simp at hr
            · rename_i hinit
              rcases h with h | h
              · exact hinit h
              · have hk := h a hir
                simp only [isKnownReg, Config.knownRegs, List.mem_cons, List.not_mem_nil, or_false,
                  decide_eq_true_eq] at hk
                have hwin' := fun h => hwin (decide_eq_true h)
                have hcur' := fun h => hcur (decide_eq_true h)
                simp only [afterCycle_cfg] at hgw hwin' hcur'
                tauto

theorem cycle_command_works (inInit : Bool) (v : Word) (s : State) :
    Works DisplayMove s (cycle inInit 0#1 v s) := by
  rw [cycle_command]
  exact .next (.single (.command v))

/-- DISP.WRREG works for a known register, and in DISP.INIT for every register (R140). -/
theorem writeReg_works {inInit : Bool} {a v : Word} {s : State} (h : inInit = true ∨ isKnownReg s.cfg a = true) :
    Works DisplayMove s (writeReg inInit a v s) := by
  refine (cycle_command_works inInit a s).andThen ?_
  intro t _ ht
  rw [cycle_command, Host.Outcome.next.injEq] at ht
  subst ht
  refine cycle_data_works (h.imp_right ?_)
  intro hk b hb
  simp only [panelCommand, State.setPanel_panel, Option.some.injEq] at hb
  subst hb
  exact hk

theorem sendInit_works (pairs : List (Word × Word)) (s : State) : Works DisplayMove s (sendInit pairs s) := by
  induction pairs generalizing s with
  | nil => exact .next .refl
  | cons p rest ih => exact (writeReg_works (.inl rfl)).andThen fun t _ _ => ih t

theorem Config.knownRegs_known {c : Config} {a : Word} (h : a ∈ c.knownRegs) : isKnownReg c a = true := by
  simpa [isKnownReg] using h

theorem DisplayMove.cfg_eq {s t : State} (h : DisplayMove s t) : t.cfg = s.cfg := by
  cases h <;> rfl

theorem DisplayMoves.cfg_eq {s t : State} (h : Moves DisplayMove s t) : t.cfg = s.cfg :=
  h.lift (R := fun s t => t.cfg = s.cfg) (fun _ => rfl) (fun h h' => h'.trans h) DisplayMove.cfg_eq

/-- setWindow works in every state (R141). -/
theorem setWindow_works (x1 y1 x2 y2 : Int) (s : State) : Works DisplayMove s (setWindow x1 y1 x2 y2 s) := by
  unfold setWindow
  split
  · refine (writeReg_works (.inr (Config.knownRegs_known (by simp [Config.knownRegs])))).andThen fun t _ _ => ?_
    refine (writeReg_works (.inr (Config.knownRegs_known (by simp [Config.knownRegs])))).andThen fun t _ _ => ?_
    refine (writeReg_works (.inr (Config.knownRegs_known (by simp [Config.knownRegs])))).andThen fun t _ _ => ?_
    refine (writeReg_works (.inr (Config.knownRegs_known (by simp [Config.knownRegs])))).andThen fun t _ _ => ?_
    refine (writeReg_works (.inr (Config.knownRegs_known (by simp [Config.knownRegs])))).andThen fun t _ _ => ?_
    refine (writeReg_works (.inr (Config.knownRegs_known (by simp [Config.knownRegs])))).andThen fun t _ _ => ?_
    exact cycle_command_works _ _ _
  · exact .raise _ .refl

/-- writePixel works in every state (R142). -/
theorem writePixel_works (color : Word) (s : State) : Works DisplayMove s (writePixel color s) := by
  unfold writePixel
  split
  · rename_i hir
    refine cycle_data_works (.inr fun a ha => ?_)
    rw [hir, Option.some.injEq] at ha
    subst ha
    exact Config.knownRegs_known (by simp [Config.knownRegs])
  · exact .raise _ .refl

theorem repeatPixel_works (color : Word) (n : Nat) (s : State) : Works DisplayMove s (repeatPixel color n s) := by
  induction n generalizing s with
  | zero => exact .next .refl
  | succ n ih => exact (writePixel_works color s).andThen fun t _ _ => ih t

theorem drawDot_works (d : Dot) (s : State) : Works DisplayMove s (drawDot d s) := by
  unfold drawDot
  split
  · exact (setWindow_works _ _ _ _ s).andThen fun t _ _ => writePixel_works _ t
  · exact .next .refl

theorem drawDots_works (ds : List Dot) (s : State) : Works DisplayMove s (drawDots ds s) := by
  induction ds generalizing s with
  | nil => exact .next .refl
  | cons d ds ih => exact (drawDot_works d s).andThen fun t _ _ => ih t

theorem drawChar_works (x y : Int) (scale : Nat) (fg bg : Word) (ch : Byte) (s : State) :
    Works TextMove s (drawChar x y scale fg bg ch s) := by
  unfold drawChar
  split
  · exact (drawDots_works _ s).mono TextMove.display
  · exact .next (.single .glyph)

theorem drawPlaces_works (x y : Int) (scale : Nat) (fg bg : Word) (places : List (Nat × Byte)) (s : State) :
    Works TextMove s (drawPlaces x y scale fg bg places s) := by
  induction places generalizing s with
  | nil => exact .next .refl
  | cons p rest ih => exact (drawChar_works _ _ _ _ _ _ s).andThen fun t _ _ => ih t

/-! ### The touch side -/

theorem pulse_moves (s : State) : Moves TouchMove s (pulse s) :=
  (((Relation.ReflTransGen.single (.clk 1#1)).tail .settle).tail (.clk 0#1)).tail .settle

theorem sendBits_moves (cmd : Byte) (n : Nat) (s : State) : Moves TouchMove s (sendBits cmd n s) := by
  induction n generalizing s with
  | zero => exact .refl
  | succ n ih =>
    exact (((Relation.ReflTransGen.single (.din _)).tail .settle).trans (pulse_moves _)).trans (ih _)

theorem gapPulses_moves (n : Nat) (s : State) : Moves TouchMove s (gapPulses n s) := by
  induction n generalizing s with
  | zero => exact .refl
  | succ n ih => exact (pulse_moves s).trans (ih _)

theorem receiveBits_moves (n : Nat) (v : Raw) (s : State) : Moves TouchMove s (receiveBits n v s).2 := by
  induction n generalizing v s with
  | zero => exact .refl
  | succ n ih => exact ((pulse_moves s).tail (.sample .tDout)).trans (ih _ _)

/-- Conv(cmd) is a sequence of touch moves from every state (41_touch.md R121). -/
theorem conversion_moves (cmd : Byte) (s : State) : Moves TouchMove s (conversion cmd s).2 :=
  ((sendBits_moves cmd 8 s).trans (gapPulses_moves _ _)).trans (receiveBits_moves 12 0#12 _)

/-- The touch side completes by touch moves, or faults before any of them (R121, R123). -/
def TouchWorks (s : State) (r : Result) : Prop := (∃ t, Moves TouchMove s t ∧ r = .next t) ∨ ∃ f, r = raise f s

theorem TouchWorks.next {s t : State} (h : Moves TouchMove s t) : TouchWorks s (.next t) := .inl ⟨t, h, rfl⟩

theorem TouchWorks.raise (f : FaultRecord) (s : State) : TouchWorks s (raise f s) := .inr ⟨f, rfl⟩

theorem convertSelected_works (cmd : Byte) (s : State) : TouchWorks s (convertSelected cmd s) := by
  unfold convertSelected
  split
  · exact .raise _ s
  · split
    · exact .raise _ s
    · exact .next ((conversion_moves cmd s).tail (.result _))

/-! ### What no move does -/

theorem sameControl_refl (s : State) : sameControl s s := ⟨rfl, rfl, rfl, rfl, rfl⟩

theorem sameControl_trans {s t u : State} (h : sameControl s t) (h' : sameControl t u) : sameControl s u := by
  obtain ⟨a1, a2, a3, a4, a5⟩ := h
  obtain ⟨b1, b2, b3, b4, b5⟩ := h'
  exact ⟨b1.trans a1, b2.trans a2, b3.trans a3, b4.trans a4, b5.trans a5⟩

theorem DisplayMove.sameButDisplay {s t : State} (h : DisplayMove s t) : sameButDisplay s t := by
  cases h <;> exact ⟨⟨rfl, rfl, rfl, rfl, rfl⟩, rfl, rfl, rfl, rfl, rfl, rfl, rfl⟩

/-- Whatever the display side does stays on the display side. -/
theorem DisplayMoves.sameButDisplay {s t : State} (h : Moves DisplayMove s t) : sameButDisplay s t :=
  h.lift sameButDisplay_refl sameButDisplay_trans DisplayMove.sameButDisplay

/-- What the touch side leaves alone: the control state, the panel, the display lines, STATUS and S.initDone. -/
def sameButTouch (s t : State) : Prop :=
  sameControl s t ∧ t.panel = s.panel ∧ s.lines.sameDisplay t.lines ∧ t.status = s.status ∧ t.initDone = s.initDone

theorem TouchMove.sameButTouch {s t : State} (h : TouchMove s t) : sameButTouch s t := by
  cases h <;> exact ⟨⟨rfl, rfl, rfl, rfl, rfl⟩, rfl, ⟨rfl, rfl, rfl, rfl, rfl⟩, rfl, rfl⟩

theorem TouchMoves.sameButTouch {s t : State} (h : Moves TouchMove s t) : sameButTouch s t := by
  refine h.lift (R := Machine.sameButTouch) ?_ ?_ TouchMove.sameButTouch
  · exact fun s => ⟨sameControl_refl s, rfl, ⟨rfl, rfl, rfl, rfl, rfl⟩, rfl, rfl⟩
  · rintro s t u ⟨a1, a2, ⟨a3, a4, a5, a6, a7⟩, a8, a9⟩ ⟨b1, b2, ⟨b3, b4, b5, b6, b7⟩, b8, b9⟩
    exact ⟨sameControl_trans a1 b1, b2.trans a2,
      ⟨b3.trans a3, b4.trans a4, b5.trans a5, b6.trans a6, b7.trans a7⟩, b8.trans a8, b9.trans a9⟩

/-- What the text operations leave alone; of STATUS only bit 0 can be set. -/
def sameButText (s t : State) : Prop :=
  sameControl s t ∧ t.initDone = s.initDone ∧ t.returned = s.returned ∧ t.env = s.env ∧ s.lines.sameTouch t.lines
    ∧ (t.status = s.status ∨ t.status = s.status ||| 0x01#8)

theorem TextMove.sameButText {s t : State} (h : TextMove s t) : sameButText s t := by
  cases h with
  | display h =>
    obtain ⟨a1, a2, a3, a4, a5, a6⟩ := h.sameButDisplay
    exact ⟨a1, a3, a4, a5, a6, .inl a2⟩
  | glyph => exact ⟨sameControl_refl s, rfl, rfl, rfl, ⟨rfl, rfl, rfl⟩, .inr rfl⟩

theorem TextMoves.sameButText {s t : State} (h : Moves TextMove s t) : sameButText s t := by
  refine h.lift (R := Machine.sameButText) ?_ ?_ TextMove.sameButText
  · exact fun s => ⟨sameControl_refl s, rfl, rfl, rfl, ⟨rfl, rfl, rfl⟩, .inl rfl⟩
  · rintro s t u ⟨a1, a2, a3, a4, ⟨a5, a6, a7⟩, a8⟩ ⟨b1, b2, b3, b4, ⟨b5, b6, b7⟩, b8⟩
    refine ⟨sameControl_trans a1 b1, b2.trans a2, b3.trans a3, b4.trans a4,
      ⟨b5.trans a5, b6.trans a6, b7.trans a7⟩, ?_⟩
    rcases a8 with a8 | a8 <;> rcases b8 with b8 | b8 <;> simp [a8, b8, BitVec.or_assoc]

/-- `t` has emitted something since `s`, and no event of it pulses the read strobe (20_memory.md R51). -/
def growsQuietly (s t : State) : Prop := ∃ new, emitted new s t ∧ ∀ v, Event.drive .dRd v ∈ new → v = 1#1

theorem growsQuietly_refl (s : State) : growsQuietly s s := ⟨[], by simp [emitted], by simp⟩

theorem growsQuietly_trans {s t u : State} (h : growsQuietly s t) (h' : growsQuietly t u) : growsQuietly s u := by
  obtain ⟨new, he, hq⟩ := h
  obtain ⟨new', he', hq'⟩ := h'
  refine ⟨new ++ new', ?_, ?_⟩
  · unfold emitted at *
    rw [he', he, List.append_assoc]
  · intro v hv
    rcases List.mem_append.mp hv with h | h
    · exact hq v h
    · exact hq' v h

theorem afterCycle_growsQuietly (rs : Level) (v : Word) (s : State) : growsQuietly s (afterCycle rs v s) := by
  refine ⟨cycleEvents rs v, by simp [emitted, State.trace], ?_⟩
  intro w hw
  simpa [cycleEvents] using hw

theorem TextMove.growsQuietly {s t : State} (h : TextMove s t) : growsQuietly s t := by
  cases h with
  | display h => cases h <;> exact afterCycle_growsQuietly _ _ s
  | glyph => exact growsQuietly_refl s

theorem TouchMove.growsQuietly {s t : State} (h : TouchMove s t) : growsQuietly s t := by
  cases h with
  | clk v => exact ⟨[.drive .tClk v], by simp [emitted, State.trace], by simp⟩
  | cs v => exact ⟨[.drive .tCs v], by simp [emitted, State.trace], by simp⟩
  | din v => exact ⟨[.drive .tDin v], by simp [emitted, State.trace], by simp⟩
  | settle => exact ⟨[.settle], by simp [emitted, State.trace], by simp⟩
  | sample line => exact ⟨[.sample line], by simp [emitted, State.trace], by simp⟩
  | result v => exact growsQuietly_refl s

theorem TextMoves.growsQuietly {s t : State} (h : Moves TextMove s t) : growsQuietly s t :=
  h.lift growsQuietly_refl growsQuietly_trans TextMove.growsQuietly

theorem TouchMoves.growsQuietly {s t : State} (h : Moves TouchMove s t) : growsQuietly s t :=
  h.lift growsQuietly_refl growsQuietly_trans TouchMove.growsQuietly

/-! ### The operations -/

/-- Everything an operation can do: it is refused with nothing changed, or works by the moves of its side; DISP.INIT and
STAT.CLR by what they are. -/
inductive ExecShape (i : Instr) (s : State) : Result → Prop where
  | refused (r : RefusalReason) (hr : r ≠ .panelNotInitialised) : ExecShape i s (refuse r s)
  | beforeInit (hi : needsInit i = true) (h : s.initDone = false) : ExecShape i s (refuse .panelNotInitialised s)
  | touch {r : Result} (hi : noDisplayCycle i = true) (ht : isText i = false) (hc : i ≠ .statClr) (hd : i ≠ .dispInit)
      (h : TouchWorks s r) : ExecShape i s r
  | clear (hi : i = .statClr) : ExecShape i s (.next (clearStatus s))
  | display {r : Result} (hi : noDisplayCycle i = false) (ht : isText i = false) (hc : i ≠ .statClr)
      (hd : i ≠ .dispInit) (h : Works DisplayMove s r) : ExecShape i s r
  | text {r : Result} (hi : noDisplayCycle i = false) (ht : isText i = true) (h : Works TextMove s r) :
      ExecShape i s r
  | init (hi : i = .dispInit) :
      ExecShape i s (andThen (sendInit s.cfg.initSeq s) fun t => .next (t.setInitDone true))

theorem ExecShape.whenInitialised {i : Instr} {s : State} {op : State → Result} (hi : needsInit i = true)
    (h : ExecShape i s (op s)) : ExecShape i s (whenInitialised op s) := by
  unfold Machine.whenInitialised
  split
  · exact h
  · rename_i hd
    exact .beforeInit hi (by simpa using hd)

theorem dataCycle_shape {i : Instr} {v : Word} {s : State} (hi : noDisplayCycle i = false) (ht : isText i = false)
    (hc : i ≠ .statClr) (hd : i ≠ .dispInit) : ExecShape i s (dataCycle v s) := by
  unfold dataCycle
  split
  · rename_i a ha
    split
    · rename_i hk
      refine .display hi ht hc hd (cycle_data_works (.inr fun b hb => ?_))
      rw [ha, Option.some.injEq] at hb
      exact hb ▸ hk
    · exact .refused _ (by simp)
  · rename_i ha
    exact .display hi ht hc hd (cycle_data_works (.inr fun b hb => by simp [ha] at hb))

/-- The meanings, one by one. -/
theorem exec_shape (i : Instr) (s : State) : ExecShape i s (exec i s) := by
  cases i with
  | busWrcmd addr => exact .display rfl rfl (by simp) (by simp) (cycle_command_works false addr s)
  | busWrdata value => exact dataCycle_shape rfl rfl (by simp) (by simp)
  | busRdbit => exact .touch rfl rfl (by simp) (by simp) (.next ((Relation.ReflTransGen.single (.sample .tDout)).tail (.result _)))
  | busSetclk level => exact .touch rfl rfl (by simp) (by simp) (.next (.single (.clk level)))
  | busSetcs level => exact .touch rfl rfl (by simp) (by simp) (.next (.single (.cs level)))
  | busSetdin level => exact .touch rfl rfl (by simp) (by simp) (.next (.single (.din level)))
  | busRdpen => exact .touch rfl rfl (by simp) (by simp) (.next ((Relation.ReflTransGen.single (.sample .tPen)).tail (.result _)))
  | busSettle => exact .touch rfl rfl (by simp) (by simp) (.next (.single .settle))
  | touchStart =>
    exact .touch rfl rfl (by simp) (by simp)
      (.next (((Relation.ReflTransGen.single (.cs 1#1)).tail (.clk 0#1)).tail (.din 0#1)))
  | touchReadch cmd =>
    simp only [exec, execTouchReadch]
    split
    · exact .touch rfl rfl (by simp) (by simp) (convertSelected_works cmd s)
    · exact .refused _ (by simp)
  | touchReadpos =>
    refine .touch rfl rfl (by simp) (by simp) ?_
    simp only [exec, execTouchReadpos]
    split
    · exact .raise _ s
    · refine .next ?_
      exact ((((((Relation.ReflTransGen.single (TouchMove.cs 0#1)).tail .settle).trans (conversion_moves _ _)).trans
        (conversion_moves _ _)).tail (.cs 1#1)).tail .settle).tail (.result _)
  | touchPen => exact .touch rfl rfl (by simp) (by simp) (.next ((Relation.ReflTransGen.single (.sample .tPen)).tail (.result _)))
  | touchCal rx ry => exact .touch rfl rfl (by simp) (by simp) (.next (.single (.result _)))
  | dispInit => exact .init rfl
  | dispWrreg addr value =>
    simp only [exec, execDispWrreg]
    refine ExecShape.whenInitialised rfl ?_
    split
    · rename_i hk
      exact .display rfl rfl (by simp) (by simp) (writeReg_works (.inr hk))
    · exact .refused _ (by simp)
  | dispSetwin x1 y1 x2 y2 =>
    exact ExecShape.whenInitialised rfl (.display rfl rfl (by simp) (by simp) (setWindow_works x1 y1 x2 y2 s))
  | dispWrpix color =>
    exact ExecShape.whenInitialised rfl (.display rfl rfl (by simp) (by simp) (writePixel_works color s))
  | dispFill color =>
    simp only [exec, execDispFill]
    refine ExecShape.whenInitialised rfl (.display rfl rfl (by simp) (by simp) ?_)
    exact (setWindow_works _ _ _ _ s).andThen fun t _ _ => repeatPixel_works color _ t
  | rastPixel x y color =>
    exact ExecShape.whenInitialised rfl (.display rfl rfl (by simp) (by simp) (drawDot_works _ s))
  | rastLine x1 y1 x2 y2 color =>
    exact ExecShape.whenInitialised rfl (.display rfl rfl (by simp) (by simp) (drawDots_works _ s))
  | rastBlock x y color scale =>
    exact ExecShape.whenInitialised rfl (.display rfl rfl (by simp) (by simp) (drawDots_works _ s))
  | textChar x y scale fg bg ch =>
    exact ExecShape.whenInitialised rfl (.text rfl rfl (drawChar_works x y scale fg bg ch s))
  | textString x y scale fg bg text =>
    exact ExecShape.whenInitialised rfl (.text rfl rfl (drawPlaces_works x y scale fg bg _ s))
  | textStrrev x y scale fg bg text =>
    exact ExecShape.whenInitialised rfl (.text rfl rfl (drawPlaces_works x y scale fg bg _ s))
  | statRd => exact .touch rfl rfl (by simp) (by simp) (.next (.single (.result _)))
  | statClr => exact .clear rfl
  | buscycCmd d => exact .display rfl rfl (by simp) (by simp) (cycle_command_works false d s)
  | buscycData d => exact dataCycle_shape rfl rfl (by simp) (by simp)
  | tcmdY => exact .touch rfl rfl (by simp) (by simp) (convertSelected_works _ s)
  | tcmdX => exact .touch rfl rfl (by simp) (by simp) (convertSelected_works _ s)

/-- An operation that completes has the moves of its side behind it; what all of them leave alone it leaves alone. -/
theorem exec_next_lift {R : State → State → Prop} (hrefl : ∀ s, R s s)
    (htrans : ∀ {s t u}, R s t → R t u → R s u) (htext : ∀ {s t}, TextMove s t → R s t)
    (htouch : ∀ {s t}, TouchMove s t → R s t) (hclear : ∀ s, R s (clearStatus s))
    (hinit : ∀ s, R s (s.setInitDone true)) {i : Instr} {s t : State} (h : exec i s = .next t) : R s t := by
  have hdisplay : ∀ {s t}, Moves DisplayMove s t → R s t := fun hm =>
    hm.lift hrefl htrans fun hd => htext (.display hd)
  have hs := exec_shape i s
  rw [h] at hs
  generalize hr : (Host.Outcome.next t : Result) = r at hs
  cases hs with
  | refused r hne => simp [refuse] at hr
  | beforeInit hi hd => simp [refuse] at hr
  | touch hi ht hc hd hw =>
    rcases hw with ⟨u, hm, hu⟩ | ⟨f, hf⟩
    · obtain rfl : t = u := by simpa using hr.trans hu
      exact hm.lift hrefl htrans htouch
    · exact absurd (hr.trans hf).symm (raise_ne_next f s t)
  | clear hi =>
    obtain rfl : t = clearStatus s := by simpa using hr
    exact hclear s
  | display hi ht hc hd hw =>
    subst hr
    exact hdisplay hw
  | text hi ht hw =>
    subst hr
    exact hw.lift hrefl htrans htext
  | init hi =>
    obtain ⟨u, hu, hn⟩ := andThen_eq_next hr.symm
    have hw := sendInit_works s.cfg.initSeq s
    rw [hu] at hw
    obtain rfl : u.setInitDone true = t := by simpa using hn
    exact htrans (hdisplay hw) (hinit u)

/-! ### The step -/

/-- A block that steps to a next state waited with nothing presented, or ran the next word's instruction. -/
theorem step_eq_next {s t : State} (h : step s = .next t) :
    (s.running ∧ s.pending = [] ∧ t = s) ∨
      ∃ p rest i u, s.running ∧ s.pending = p :: rest ∧ decode s.cfg.coordBits p = .ok i ∧ exec i s = .next u ∧ t = retire p u := by
  unfold step at h
  split at h
  · simp at h
  · rename_i hf
    split at h
    · simp at h
    · rename_i hr
      split at h
      · rename_i hp
        simp only [Host.Outcome.next.injEq] at h
        exact .inl ⟨⟨hf, hr⟩, hp, h.symm⟩
      · rename_i p rest hp
        split at h
        · simp at h
        · rename_i i hd
          cases he : exec i s with
          | next u =>
            simp only [he, finish, Host.Outcome.next.injEq] at h
            exact .inr ⟨p, rest, i, u, ⟨hf, hr⟩, hp, hd, he, h.symm⟩
          | fault e => simp [he, finish] at h
          | refused e => simp [he, finish] at h

/-! ### The state after reset -/

/-- The configuration at reset is a valid one, whatever is installed (log 2). -/
theorem Config.hardware_valid : Config.hardware.valid = true := by
  unfold Config.hardware
  split
  · assumption
  · decide

/-- Reset is power-on of the installed hardware (70_reset_and_hazards.md R240). -/
theorem reset_eq_powerOn : State.reset = State.powerOn Config.hardware := by
  simp [State.reset, State.powerOn, Config.hardware_valid]

/-- The two memories of the state after reset are in canonical form. -/
theorem reset_memories_wf :
    Memory.wf REG_SIZE State.reset.panel.reg = true ∧ Memory.wf GRAM_SIZE State.reset.panel.gram = true := ⟨rfl, rfl⟩

end Sys2Proof.Machine
end

