-- ==== Sys2Proof/Laws/Counts.lean ====
section
/-! SUPPORT. How many events the shared operations emit when they complete (70_reset_and_hazards.md R260), under every
configuration: a result is followed by `n` events, said once for each operation. -/

namespace Sys2Proof.Machine

/-- If the operation completes, it has emitted `n` events and left the configuration. -/
def Emits (n : Nat) (s : State) (r : Result) : Prop :=
  ∀ t, r = .next t → t.cfg = s.cfg ∧ t.events.length = s.events.length + n

theorem Emits.raise (n : Nat) (r : FaultRecord) (s u : State) : Emits n s (raise r u) :=
  fun t h => absurd h (raise_ne_next r u t)

theorem Emits.refuse (n : Nat) (r : RefusalReason) (s u : State) : Emits n s (refuse r u) :=
  fun t h => absurd h (refuse_ne_next r u t)

theorem Emits.next {n : Nat} {s t : State} (hc : t.cfg = s.cfg) (he : t.events.length = s.events.length + n) :
    Emits n s (.next t) := by
  intro u h
  obtain rfl : t = u := by simpa using h
  exact ⟨hc, he⟩

theorem Emits.andThen {m n : Nat} {s : State} {r : Result} {f : State → Result} (hr : Emits m s r)
    (hf : ∀ t, t.cfg = s.cfg → Emits n t (f t)) : Emits (m + n) s (andThen r f) := by
  intro u h
  obtain ⟨t, ht, hu⟩ := andThen_eq_next h
  obtain ⟨hc, he⟩ := hr t ht
  obtain ⟨hc', he'⟩ := hf t hc u hu
  exact ⟨hc'.trans hc, by rw [he', he, Nat.add_assoc]⟩

theorem Emits.whenInitialised {n : Nat} {s : State} {op : State → Result} (h : Emits n s (op s)) :
    Emits n s (whenInitialised op s) := by
  unfold Machine.whenInitialised
  split
  · exact h
  · exact .refuse n _ s s

/-- A display cycle emits seven events (40_bus.md R101). -/
theorem cycle_emits (inInit : Bool) (rs : Level) (v : Word) (s : State) : Emits 7 s (cycle inInit rs v s) := by
  intro t h
  rw [cycle_eq] at h
  have hlen : (afterCycle rs v s).events.length = s.events.length + 7 := by
    simp [cycleEvents]
  unfold panelCycle at h
  split at h
  · obtain rfl : panelCommand v (afterCycle rs v s) = t := by simpa using h
    exact ⟨rfl, hlen⟩
  · obtain ⟨p, -, rfl⟩ := panelData_eq_next h
    exact ⟨rfl, hlen⟩

theorem dataCycle_emits (v : Word) (s : State) : Emits 7 s (dataCycle v s) := by
  unfold dataCycle
  split
  · split
    · exact cycle_emits _ _ _ s
    · exact .refuse 7 _ s s
  · exact cycle_emits _ _ _ s

theorem writeReg_emits (inInit : Bool) (a v : Word) (s : State) : Emits 14 s (writeReg inInit a v s) :=
  (cycle_emits inInit _ a s).andThen fun t _ => cycle_emits inInit _ v t

theorem sendInit_emits (pairs : List (Word × Word)) (s : State) : Emits (14 * pairs.length) s (sendInit pairs s) := by
  induction pairs generalizing s with
  | nil => exact .next rfl rfl
  | cons p rest ih =>
    have h := (writeReg_emits true p.1 p.2 s).andThen fun t _ => ih t
    rw [show 14 + 14 * rest.length = 14 * (p :: rest).length by simp; omega] at h
    exact h

/-- setWindow emits thirteen cycles (42_display.md R141). -/
theorem setWindow_emits (x1 y1 x2 y2 : Int) (s : State) : Emits 91 s (setWindow x1 y1 x2 y2 s) := by
  unfold setWindow
  split
  · exact (writeReg_emits _ _ _ s).andThen fun _ _ => (writeReg_emits _ _ _ _).andThen fun _ _ =>
      (writeReg_emits _ _ _ _).andThen fun _ _ => (writeReg_emits _ _ _ _).andThen fun _ _ =>
      (writeReg_emits _ _ _ _).andThen fun _ _ => (writeReg_emits _ _ _ _).andThen fun _ _ => cycle_emits _ _ _ _
  · exact .raise 91 _ s s

theorem writePixel_emits (color : Color) (s : State) : Emits 7 s (writePixel color s) := by
  unfold writePixel
  split
  · exact cycle_emits _ _ _ s
  · exact .raise 7 _ s s

theorem repeatPixel_emits (color : Color) (n : Nat) (s : State) : Emits (7 * n) s (repeatPixel color n s) := by
  induction n generalizing s with
  | zero => exact .next rfl rfl
  | succ n ih =>
    have h := (writePixel_emits color s).andThen fun t _ => ih t
    rw [show 7 + 7 * n = 7 * (n + 1) by omega] at h
    exact h

/-- RAST.PIXEL calls emit fourteen cycles for each call in bounds (43_raster.md R171). -/
theorem drawDots_emits (ds : List Dot) (s : State) : Emits (98 * (dotsInBounds ds).length) s (drawDots ds s) := by
  induction ds generalizing s with
  | nil => exact .next rfl rfl
  | cons d rest ih =>
    by_cases hd : inBounds d.x d.y = true
    · have hdot : Emits 98 s (drawDot d s) := by
        unfold drawDot
        rw [if_pos hd]
        exact (setWindow_emits _ _ _ _ s).andThen fun t _ => writePixel_emits d.color t
      have h := hdot.andThen fun t _ => ih t
      rw [show 98 + 98 * (dotsInBounds rest).length = 98 * (dotsInBounds (d :: rest)).length by
        simp [dotsInBounds, hd]; omega] at h
      exact h
    · have hdot : Emits 0 s (drawDot d s) := by
        unfold drawDot
        rw [if_neg hd]
        exact .next rfl rfl
      have h := hdot.andThen fun t _ => ih t
      rw [show 0 + 98 * (dotsInBounds rest).length = 98 * (dotsInBounds (d :: rest)).length by
        simp [dotsInBounds, hd]] at h
      exact h

/-- A character emits what its blocks do, or nothing outside the font (44_text.md R192). -/
theorem drawChar_emits (x y : Int) (scale : Nat) (fg bg : Word) (ch : Byte) (s : State) :
    Emits (if inFont s.cfg ch then 98 * (dotsInBounds (charDots s.cfg x y scale fg bg ch)).length else 0) s
      (drawChar x y scale fg bg ch s) := by
  unfold drawChar
  split
  · exact drawDots_emits _ s
  · exact .next rfl rfl

theorem drawPlaces_emits (x y : Int) (scale : Nat) (fg bg : Word) (places : List (Nat × Byte)) (s : State) :
    Emits ((places.map fun p =>
        if inFont s.cfg p.2 then 98 * (dotsInBounds (charDots s.cfg (charX x p.1) y scale fg bg p.2)).length
        else 0).sum) s (drawPlaces x y scale fg bg places s) := by
  induction places generalizing s with
  | nil => exact .next rfl rfl
  | cons p rest ih =>
    have h := (drawChar_emits (charX x p.1) y scale fg bg p.2 s).andThen fun t ht => by
      have := ih t
      rw [ht] at this
      exact this
    rw [List.map_cons, List.sum_cons]
    exact h

/-- A conversion emits 108 events and four for each gap pulse (41_touch.md R121). -/
theorem convertSelected_emits (cmd : Byte) (s : State) :
    Emits (108 + 4 * s.cfg.touchGapClocks) s (convertSelected cmd s) := by
  unfold convertSelected
  split
  · exact .raise _ _ s s
  · split
    · exact .raise _ _ s s
    · rename_i hclk
      have hm := conversion_move cmd s (by simpa using hclk)
      refine .next ?_ ?_
      · rw [hm]; rfl
      · rw [hm]
        simp [conversionEvents, commandEvents, dataEvents, pulseEvents]
        omega

end Sys2Proof.Machine
end

