-- ==== Sys2Proof/Laws/PerInstr.lean ====
section
/-! SUPPORT. The family OperandsFit: the operands an instruction's packet carries are as many as 30_encoding.md R80
gives its selector and fit their types (R72). -/

namespace Sys2Proof.Laws.OperandsFit

/-- The packet of a well-formed instruction carries operands of the types R80 lists for its selector, for every
COORD_BITS. -/
def Statement (i : Instr) : Prop :=
  match encode i with
  | .hostOp op args => ∀ bits, i.wellFormed bits = true → List.Forall₂ (fun t o => OperandType.fits bits t o = true) (signature op) args
  | .busCycle _ => True
  | .touchCommand _ => True

theorem readUnsigned_numOf {w : Nat} (v : BitVec w) : readUnsigned w (numOf v) = some v := by
  have h : readUnsigned w (numOf v) = if v.toNat < 2 ^ w then some (BitVec.ofNat w v.toNat) else none := rfl
  rw [h, if_pos v.isLt, BitVec.ofNat_toNat, BitVec.setWidth_eq]

@[simp] theorem fits_lvl (bits : Nat) (v : Level) : OperandType.fits bits .lvl (numOf v) = true := by
  simp [OperandType.fits, readLvl, readUnsigned_numOf]
@[simp] theorem fits_byte (bits : Nat) (v : Byte) : OperandType.fits bits .byte (numOf v) = true := by
  simp [OperandType.fits, readByte, readUnsigned_numOf]
@[simp] theorem fits_word (bits : Nat) (v : Word) : OperandType.fits bits .word (numOf v) = true := by
  simp [OperandType.fits, readWord, readUnsigned_numOf]
@[simp] theorem fits_raw (bits : Nat) (v : Raw) : OperandType.fits bits .raw (numOf v) = true := by
  simp [OperandType.fits, readRaw, readUnsigned_numOf]

theorem readBytes_map (text : List Byte) : readBytes (text.map fun b => (b.toNat : Int)) = some text := by
  induction text with
  | nil => rfl
  | cons b rest ih =>
    have h : readByte (.num (b.toNat : Int)) = some b := readUnsigned_numOf b
    simp [readBytes, h, ih]

@[simp] theorem fits_text (bits : Nat) (text : List Byte) : OperandType.fits bits .text (textOf text) = true := by
  simp [OperandType.fits, readText, textOf, readBytes_map]

theorem fits_coord (bits : Nat) {v : Int} (h : coordFits bits v = true) : OperandType.fits bits .coord (.num v) = true := by
  simp [OperandType.fits, readCoord, h]

theorem fits_scale (bits : Nat) {n : Nat} (h : scaleFits n = true) : OperandType.fits bits .scale (.num (n : Int)) = true := by
  simp [OperandType.fits, readScale, h]

/-- The statement for every instruction, constructor by constructor. -/
theorem holds (i : Instr) : Statement i := by
  cases i
  case dispSetwin x1 y1 x2 y2 =>
    simp only [Statement, encode, Instr.wellFormed, Bool.and_eq_true]
    rintro bits ⟨⟨⟨h1, h2⟩, h3⟩, h4⟩
    simp [signature, fits_coord, h1, h2, h3, h4]
  case rastLine x1 y1 x2 y2 color =>
    simp only [Statement, encode, Instr.wellFormed, Bool.and_eq_true]
    rintro bits ⟨⟨⟨h1, h2⟩, h3⟩, h4⟩
    simp [signature, fits_coord, h1, h2, h3, h4]
  case rastPixel x y color =>
    simp only [Statement, encode, Instr.wellFormed, Bool.and_eq_true]
    rintro bits ⟨h1, h2⟩
    simp [signature, fits_coord, h1, h2]
  case rastBlock | textChar | textString | textStrrev =>
    simp only [Statement, encode, Instr.wellFormed, Bool.and_eq_true]
    rintro bits ⟨⟨h1, h2⟩, h3⟩
    simp [signature, fits_coord, fits_scale, h1, h2, h3]
  all_goals simp [Statement, encode, signature]

theorem busWrcmd (addr : Word) : Statement (.busWrcmd addr) := holds _
theorem busWrdata (value : Word) : Statement (.busWrdata value) := holds _
theorem busRdbit : Statement .busRdbit := holds _
theorem busSetclk (level : Level) : Statement (.busSetclk level) := holds _
theorem busSetcs (level : Level) : Statement (.busSetcs level) := holds _
theorem busSetdin (level : Level) : Statement (.busSetdin level) := holds _
theorem busRdpen : Statement .busRdpen := holds _
theorem busSettle : Statement .busSettle := holds _
theorem touchStart : Statement .touchStart := holds _
theorem touchReadch (cmd : Byte) : Statement (.touchReadch cmd) := holds _
theorem touchReadpos : Statement .touchReadpos := holds _
theorem touchPen : Statement .touchPen := holds _
theorem touchCal (rx ry : Raw) : Statement (.touchCal rx ry) := holds _
theorem dispInit : Statement .dispInit := holds _
theorem dispWrreg (addr value : Word) : Statement (.dispWrreg addr value) := holds _
theorem dispSetwin (x1 y1 x2 y2 : Int) : Statement (.dispSetwin x1 y1 x2 y2) := holds _
theorem dispWrpix (color : Word) : Statement (.dispWrpix color) := holds _
theorem dispFill (color : Word) : Statement (.dispFill color) := holds _
theorem rastPixel (x y : Int) (color : Word) : Statement (.rastPixel x y color) := holds _
theorem rastLine (x1 y1 x2 y2 : Int) (color : Word) : Statement (.rastLine x1 y1 x2 y2 color) := holds _
theorem rastBlock (x y : Int) (color : Word) (scale : Nat) : Statement (.rastBlock x y color scale) := holds _
theorem textChar (x y : Int) (scale : Nat) (fg bg : Word) (ch : Byte) :
    Statement (.textChar x y scale fg bg ch) := holds _
theorem textString (x y : Int) (scale : Nat) (fg bg : Word) (text : List Byte) :
    Statement (.textString x y scale fg bg text) := holds _
theorem textStrrev (x y : Int) (scale : Nat) (fg bg : Word) (text : List Byte) :
    Statement (.textStrrev x y scale fg bg text) := holds _
theorem statRd : Statement .statRd := holds _
theorem statClr : Statement .statClr := holds _
theorem buscycCmd (d : Word) : Statement (.buscycCmd d) := holds _
theorem buscycData (d : Word) : Statement (.buscycData d) := holds _
theorem tcmdY : Statement .tcmdY := holds _
theorem tcmdX : Statement .tcmdX := holds _

end Sys2Proof.Laws.OperandsFit
end

