-- ==== Sys2Proof/Laws/Decode.lean ====
section
/-! SUPPORT. The decoder selector by selector (30_encoding.md R80), and its operand readers by inversion. -/

namespace Sys2Proof

@[simp] theorem decodeHostOp_busWrcmd (bits : Nat) (args : List Operand) : decodeHostOp bits 0x01#8 args = decodeWord .busWrcmd args := rfl
@[simp] theorem decodeHostOp_busWrdata (bits : Nat) (args : List Operand) : decodeHostOp bits 0x02#8 args = decodeWord .busWrdata args := rfl
@[simp] theorem decodeHostOp_busRdbit (bits : Nat) (args : List Operand) : decodeHostOp bits 0x03#8 args = decode0 .busRdbit args := rfl
@[simp] theorem decodeHostOp_busSetclk (bits : Nat) (args : List Operand) : decodeHostOp bits 0x04#8 args = decodeLevel .busSetclk args := rfl
@[simp] theorem decodeHostOp_busSetcs (bits : Nat) (args : List Operand) : decodeHostOp bits 0x05#8 args = decodeLevel .busSetcs args := rfl
@[simp] theorem decodeHostOp_busSetdin (bits : Nat) (args : List Operand) : decodeHostOp bits 0x06#8 args = decodeLevel .busSetdin args := rfl
@[simp] theorem decodeHostOp_busRdpen (bits : Nat) (args : List Operand) : decodeHostOp bits 0x07#8 args = decode0 .busRdpen args := rfl
@[simp] theorem decodeHostOp_busSettle (bits : Nat) (args : List Operand) : decodeHostOp bits 0x08#8 args = decode0 .busSettle args := rfl
@[simp] theorem decodeHostOp_touchStart (bits : Nat) (args : List Operand) : decodeHostOp bits 0x10#8 args = decode0 .touchStart args := rfl
@[simp] theorem decodeHostOp_touchReadch (bits : Nat) (args : List Operand) : decodeHostOp bits 0x11#8 args = decodeByte .touchReadch args := rfl
@[simp] theorem decodeHostOp_touchReadpos (bits : Nat) (args : List Operand) : decodeHostOp bits 0x12#8 args = decode0 .touchReadpos args := rfl
@[simp] theorem decodeHostOp_touchPen (bits : Nat) (args : List Operand) : decodeHostOp bits 0x13#8 args = decode0 .touchPen args := rfl
@[simp] theorem decodeHostOp_touchCal (bits : Nat) (args : List Operand) : decodeHostOp bits 0x14#8 args = decodeRawRaw .touchCal args := rfl
@[simp] theorem decodeHostOp_dispInit (bits : Nat) (args : List Operand) : decodeHostOp bits 0x20#8 args = decode0 .dispInit args := rfl
@[simp] theorem decodeHostOp_dispWrreg (bits : Nat) (args : List Operand) : decodeHostOp bits 0x21#8 args = decodeWordWord .dispWrreg args := rfl
@[simp] theorem decodeHostOp_dispSetwin (bits : Nat) (args : List Operand) : decodeHostOp bits 0x22#8 args = decodeWindow bits .dispSetwin args := rfl
@[simp] theorem decodeHostOp_dispWrpix (bits : Nat) (args : List Operand) : decodeHostOp bits 0x23#8 args = decodeWord .dispWrpix args := rfl
@[simp] theorem decodeHostOp_dispFill (bits : Nat) (args : List Operand) : decodeHostOp bits 0x24#8 args = decodeWord .dispFill args := rfl
@[simp] theorem decodeHostOp_rastPixel (bits : Nat) (args : List Operand) : decodeHostOp bits 0x30#8 args = decodePoint bits .rastPixel args := rfl
@[simp] theorem decodeHostOp_rastLine (bits : Nat) (args : List Operand) : decodeHostOp bits 0x31#8 args = decodeLine bits .rastLine args := rfl
@[simp] theorem decodeHostOp_rastBlock (bits : Nat) (args : List Operand) : decodeHostOp bits 0x32#8 args = decodeBlock bits .rastBlock args := rfl
@[simp] theorem decodeHostOp_textChar (bits : Nat) (args : List Operand) : decodeHostOp bits 0x40#8 args = decodeChar bits .textChar args := rfl
@[simp] theorem decodeHostOp_textString (bits : Nat) (args : List Operand) : decodeHostOp bits 0x41#8 args = decodeString bits .textString args := rfl
@[simp] theorem decodeHostOp_textStrrev (bits : Nat) (args : List Operand) : decodeHostOp bits 0x42#8 args = decodeString bits .textStrrev args := rfl
@[simp] theorem decodeHostOp_statRd (bits : Nat) (args : List Operand) : decodeHostOp bits 0x50#8 args = decode0 .statRd args := rfl
@[simp] theorem decodeHostOp_statClr (bits : Nat) (args : List Operand) : decodeHostOp bits 0x51#8 args = decode0 .statClr args := rfl

/-- What an unsigned reader accepts is exactly the number it reads. -/
theorem readUnsigned_eq_some {w : Nat} {o : Operand} {v : BitVec w} : readUnsigned w o = some v ↔ o = numOf v := by
  constructor
  · intro h
    cases o with
    | text vs => simp [readUnsigned] at h
    | num z =>
      cases z with
      | negSucc n => simp [readUnsigned] at h
      | ofNat n =>
        simp only [readUnsigned] at h
        split at h
        · rename_i hn
          simp only [Option.some.injEq] at h
          subst h
          simp [numOf, BitVec.toNat_ofNat, Nat.mod_eq_of_lt hn]
        · simp at h
  · rintro rfl
    exact Laws.OperandsFit.readUnsigned_numOf v

theorem readCoord_eq_some {bits : Nat} {o : Operand} {v : Int} : readCoord bits o = some v ↔ o = .num v ∧ coordFits bits v = true := by
  cases o with
  | text vs => simp [readCoord]
  | num z =>
    simp only [readCoord]
    split
    · rename_i hz
      simp only [Option.some.injEq, Operand.num.injEq]
      constructor
      · rintro rfl
        exact ⟨rfl, hz⟩
      · exact fun h => h.1
    · rename_i hz
      simp only [Operand.num.injEq, reduceCtorEq, false_iff, not_and]
      rintro rfl
      exact hz

theorem readScale_eq_some {o : Operand} {n : Nat} :
    readScale o = some n ↔ o = .num (n : Int) ∧ scaleFits n = true := by
  cases o with
  | text vs => simp [readScale]
  | num z =>
    simp only [readScale]
    split
    · rename_i hz
      simp only [Option.some.injEq, Operand.num.injEq]
      constructor
      · rintro rfl
        exact ⟨by omega, hz.2⟩
      · rintro ⟨rfl, -⟩
        simp
    · rename_i hz
      simp only [Operand.num.injEq, reduceCtorEq, false_iff, not_and]
      rintro rfl h
      exact hz ⟨by omega, by simpa using h⟩

theorem readBytes_eq_some {vs : List Int} {bs : List Byte} :
    readBytes vs = some bs ↔ vs = bs.map fun b => (b.toNat : Int) := by
  constructor
  · intro h
    induction vs generalizing bs with
    | nil =>
      obtain rfl : [] = bs := by simpa [readBytes] using h
      rfl
    | cons v vs ih =>
      simp only [readBytes] at h
      split at h
      · rename_i b bs' hb hbs
        obtain rfl : b :: bs' = bs := by simpa using h
        obtain hv : Operand.num v = numOf b := readUnsigned_eq_some.mp hb
        simp only [numOf, Operand.num.injEq] at hv
        rw [List.map_cons, ← ih hbs, hv]
      · simp at h
  · rintro rfl
    exact Laws.OperandsFit.readBytes_map bs

theorem readText_eq_some {o : Operand} {bs : List Byte} : readText o = some bs ↔ o = textOf bs := by
  cases o with
  | num z => simp [readText, textOf]
  | text vs => simp [readText, textOf, readBytes_eq_some]

/-! ### The shapes of R80: which operands each accepts -/

theorem orOperandType_eq_ok {o : Option Instr} {i : Instr} : orOperandType o = .ok i ↔ o = some i := by
  cases o <;> simp [orOperandType]

theorem readLvl_eq_some {o : Operand} {v : Level} : readLvl o = some v ↔ o = numOf v := readUnsigned_eq_some
theorem readByte_eq_some {o : Operand} {v : Byte} : readByte o = some v ↔ o = numOf v := readUnsigned_eq_some
theorem readWord_eq_some {o : Operand} {v : Word} : readWord o = some v ↔ o = numOf v := readUnsigned_eq_some
theorem readRaw_eq_some {o : Operand} {v : Raw} : readRaw o = some v ↔ o = numOf v := readUnsigned_eq_some

theorem decode0_eq_ok {i j : Instr} {args : List Operand} : decode0 i args = .ok j ↔ args = [] ∧ i = j := by
  cases args <;> simp [decode0, wrongArity]

theorem decodeLevel_eq_ok {f : Level → Instr} {args : List Operand} {i : Instr} :
    decodeLevel f args = .ok i ↔
      ∃ (a : Level),
        args = [numOf a] ∧ f a = i := by
  constructor
  · intro h
    unfold decodeLevel at h
    split at h
    · rw [orOperandType_eq_ok] at h
      simp only [Option.map_eq_map, Option.map_eq_some_iff, readLvl_eq_some] at h
      obtain ⟨a, rfl, rfl⟩ := h
      exact ⟨a, rfl, rfl⟩
    · simp [wrongArity] at h
  · rintro ⟨a, rfl, rfl⟩
    simp only [decodeLevel, orOperandType,
      (readLvl_eq_some.mpr rfl : readLvl (numOf a) = some a)]
    rfl

theorem decodeByte_eq_ok {f : Byte → Instr} {args : List Operand} {i : Instr} :
    decodeByte f args = .ok i ↔
      ∃ (a : Byte),
        args = [numOf a] ∧ f a = i := by
  constructor
  · intro h
    unfold decodeByte at h
    split at h
    · rw [orOperandType_eq_ok] at h
      simp only [Option.map_eq_map, Option.map_eq_some_iff, readByte_eq_some] at h
      obtain ⟨a, rfl, rfl⟩ := h
      exact ⟨a, rfl, rfl⟩
    · simp [wrongArity] at h
  · rintro ⟨a, rfl, rfl⟩
    simp only [decodeByte, orOperandType,
      (readByte_eq_some.mpr rfl : readByte (numOf a) = some a)]
    rfl

theorem decodeWord_eq_ok {f : Word → Instr} {args : List Operand} {i : Instr} :
    decodeWord f args = .ok i ↔
      ∃ (a : Word),
        args = [numOf a] ∧ f a = i := by
  constructor
  · intro h
    unfold decodeWord at h
    split at h
    · rw [orOperandType_eq_ok] at h
      simp only [Option.map_eq_map, Option.map_eq_some_iff, readWord_eq_some] at h
      obtain ⟨a, rfl, rfl⟩ := h
      exact ⟨a, rfl, rfl⟩
    · simp [wrongArity] at h
  · rintro ⟨a, rfl, rfl⟩
    simp only [decodeWord, orOperandType,
      (readWord_eq_some.mpr rfl : readWord (numOf a) = some a)]
    rfl

theorem decodeWordWord_eq_ok {f : Word → Word → Instr} {args : List Operand} {i : Instr} :
    decodeWordWord f args = .ok i ↔
      ∃ (a : Word) (b : Word),
        args = [numOf a, numOf b] ∧ f a b = i := by
  constructor
  · intro h
    unfold decodeWordWord at h
    split at h
    · rw [orOperandType_eq_ok] at h
      simp only [Option.map_eq_map, seq_eq_bind_map, Option.bind_eq_bind, Option.bind_eq_some_iff, Option.map_eq_some_iff, readWord_eq_some] at h
      obtain ⟨_, ⟨a, rfl, rfl⟩, b, rfl, rfl⟩ := h
      exact ⟨a, b, rfl, rfl⟩
    · simp [wrongArity] at h
  · rintro ⟨a, b, rfl, rfl⟩
    simp only [decodeWordWord, orOperandType,
      (readWord_eq_some.mpr rfl : readWord (numOf a) = some a),
      (readWord_eq_some.mpr rfl : readWord (numOf b) = some b)]
    rfl

theorem decodeRawRaw_eq_ok {f : Raw → Raw → Instr} {args : List Operand} {i : Instr} :
    decodeRawRaw f args = .ok i ↔
      ∃ (a : Raw) (b : Raw),
        args = [numOf a, numOf b] ∧ f a b = i := by
  constructor
  · intro h
    unfold decodeRawRaw at h
    split at h
    · rw [orOperandType_eq_ok] at h
      simp only [Option.map_eq_map, seq_eq_bind_map, Option.bind_eq_bind, Option.bind_eq_some_iff, Option.map_eq_some_iff, readRaw_eq_some] at h
      obtain ⟨_, ⟨a, rfl, rfl⟩, b, rfl, rfl⟩ := h
      exact ⟨a, b, rfl, rfl⟩
    · simp [wrongArity] at h
  · rintro ⟨a, b, rfl, rfl⟩
    simp only [decodeRawRaw, orOperandType,
      (readRaw_eq_some.mpr rfl : readRaw (numOf a) = some a),
      (readRaw_eq_some.mpr rfl : readRaw (numOf b) = some b)]
    rfl

theorem decodeWindow_eq_ok {bits : Nat} {f : Int → Int → Int → Int → Instr} {args : List Operand} {i : Instr} :
    decodeWindow bits f args = .ok i ↔
      ∃ (a : Int) (b : Int) (c : Int) (d : Int),
        args = [.num a, .num b, .num c, .num d] ∧ coordFits bits a = true ∧ coordFits bits b = true ∧ coordFits bits c = true ∧ coordFits bits d = true ∧ f a b c d = i := by
  constructor
  · intro h
    unfold decodeWindow at h
    split at h
    · rw [orOperandType_eq_ok] at h
      simp only [Option.map_eq_map, seq_eq_bind_map, Option.bind_eq_bind, Option.bind_eq_some_iff, Option.map_eq_some_iff, readCoord_eq_some] at h
      obtain ⟨_, ⟨_, ⟨_, ⟨a, ⟨rfl, ha⟩, rfl⟩, b, ⟨rfl, hb⟩, rfl⟩, c, ⟨rfl, hc⟩, rfl⟩, d, ⟨rfl, hd⟩, rfl⟩ := h
      exact ⟨a, b, c, d, rfl, ha, hb, hc, hd, rfl⟩
    · simp [wrongArity] at h
  · rintro ⟨a, b, c, d, rfl, ha, hb, hc, hd, rfl⟩
    simp only [decodeWindow, orOperandType,
      (readCoord_eq_some.mpr ⟨rfl, ha⟩ : readCoord bits (.num a) = some a),
      (readCoord_eq_some.mpr ⟨rfl, hb⟩ : readCoord bits (.num b) = some b),
      (readCoord_eq_some.mpr ⟨rfl, hc⟩ : readCoord bits (.num c) = some c),
      (readCoord_eq_some.mpr ⟨rfl, hd⟩ : readCoord bits (.num d) = some d)]
    rfl

theorem decodePoint_eq_ok {bits : Nat} {f : Int → Int → Word → Instr} {args : List Operand} {i : Instr} :
    decodePoint bits f args = .ok i ↔
      ∃ (a : Int) (b : Int) (c : Word),
        args = [.num a, .num b, numOf c] ∧ coordFits bits a = true ∧ coordFits bits b = true ∧ f a b c = i := by
  constructor
  · intro h
    unfold decodePoint at h
    split at h
    · rw [orOperandType_eq_ok] at h
      simp only [Option.map_eq_map, seq_eq_bind_map, Option.bind_eq_bind, Option.bind_eq_some_iff, Option.map_eq_some_iff, readCoord_eq_some, readWord_eq_some] at h
      obtain ⟨_, ⟨_, ⟨a, ⟨rfl, ha⟩, rfl⟩, b, ⟨rfl, hb⟩, rfl⟩, c, rfl, rfl⟩ := h
      exact ⟨a, b, c, rfl, ha, hb, rfl⟩
    · simp [wrongArity] at h
  · rintro ⟨a, b, c, rfl, ha, hb, rfl⟩
    simp only [decodePoint, orOperandType,
      (readCoord_eq_some.mpr ⟨rfl, ha⟩ : readCoord bits (.num a) = some a),
      (readCoord_eq_some.mpr ⟨rfl, hb⟩ : readCoord bits (.num b) = some b),
      (readWord_eq_some.mpr rfl : readWord (numOf c) = some c)]
    rfl

theorem decodeLine_eq_ok {bits : Nat} {f : Int → Int → Int → Int → Word → Instr} {args : List Operand} {i : Instr} :
    decodeLine bits f args = .ok i ↔
      ∃ (a : Int) (b : Int) (c : Int) (d : Int) (e : Word),
        args = [.num a, .num b, .num c, .num d, numOf e] ∧ coordFits bits a = true ∧ coordFits bits b = true ∧ coordFits bits c = true ∧ coordFits bits d = true ∧ f a b c d e = i := by
  constructor
  · intro h
    unfold decodeLine at h
    split at h
    · rw [orOperandType_eq_ok] at h
      simp only [Option.map_eq_map, seq_eq_bind_map, Option.bind_eq_bind, Option.bind_eq_some_iff, Option.map_eq_some_iff, readCoord_eq_some, readWord_eq_some] at h
      obtain ⟨_, ⟨_, ⟨_, ⟨_, ⟨a, ⟨rfl, ha⟩, rfl⟩, b, ⟨rfl, hb⟩, rfl⟩, c, ⟨rfl, hc⟩, rfl⟩, d, ⟨rfl, hd⟩, rfl⟩, e, rfl, rfl⟩ := h
      exact ⟨a, b, c, d, e, rfl, ha, hb, hc, hd, rfl⟩
    · simp [wrongArity] at h
  · rintro ⟨a, b, c, d, e, rfl, ha, hb, hc, hd, rfl⟩
    simp only [decodeLine, orOperandType,
      (readCoord_eq_some.mpr ⟨rfl, ha⟩ : readCoord bits (.num a) = some a),
      (readCoord_eq_some.mpr ⟨rfl, hb⟩ : readCoord bits (.num b) = some b),
      (readCoord_eq_some.mpr ⟨rfl, hc⟩ : readCoord bits (.num c) = some c),
      (readCoord_eq_some.mpr ⟨rfl, hd⟩ : readCoord bits (.num d) = some d),
      (readWord_eq_some.mpr rfl : readWord (numOf e) = some e)]
    rfl

theorem decodeBlock_eq_ok {bits : Nat} {f : Int → Int → Word → Nat → Instr} {args : List Operand} {i : Instr} :
    decodeBlock bits f args = .ok i ↔
      ∃ (a : Int) (b : Int) (c : Word) (d : Nat),
        args = [.num a, .num b, numOf c, .num (d : Int)] ∧ coordFits bits a = true ∧ coordFits bits b = true ∧ scaleFits d = true ∧ f a b c d = i := by
  constructor
  · intro h
    unfold decodeBlock at h
    split at h
    · rw [orOperandType_eq_ok] at h
      simp only [Option.map_eq_map, seq_eq_bind_map, Option.bind_eq_bind, Option.bind_eq_some_iff, Option.map_eq_some_iff, readCoord_eq_some, readScale_eq_some, readWord_eq_some] at h
      obtain ⟨_, ⟨_, ⟨_, ⟨a, ⟨rfl, ha⟩, rfl⟩, b, ⟨rfl, hb⟩, rfl⟩, c, rfl, rfl⟩, d, ⟨rfl, hd⟩, rfl⟩ := h
      exact ⟨a, b, c, d, rfl, ha, hb, hd, rfl⟩
    · simp [wrongArity] at h
  · rintro ⟨a, b, c, d, rfl, ha, hb, hd, rfl⟩
    simp only [decodeBlock, orOperandType,
      (readCoord_eq_some.mpr ⟨rfl, ha⟩ : readCoord bits (.num a) = some a),
      (readCoord_eq_some.mpr ⟨rfl, hb⟩ : readCoord bits (.num b) = some b),
      (readWord_eq_some.mpr rfl : readWord (numOf c) = some c),
      (readScale_eq_some.mpr ⟨rfl, hd⟩ : readScale (.num (d : Int)) = some d)]
    rfl

theorem decodeChar_eq_ok {bits : Nat} {f : Int → Int → Nat → Word → Word → Byte → Instr} {args : List Operand} {i : Instr} :
    decodeChar bits f args = .ok i ↔
      ∃ (a : Int) (b : Int) (c : Nat) (d : Word) (e : Word) (g : Byte),
        args = [.num a, .num b, .num (c : Int), numOf d, numOf e, numOf g] ∧ coordFits bits a = true ∧ coordFits bits b = true ∧ scaleFits c = true ∧ f a b c d e g = i := by
  constructor
  · intro h
    unfold decodeChar at h
    split at h
    · rw [orOperandType_eq_ok] at h
      simp only [Option.map_eq_map, seq_eq_bind_map, Option.bind_eq_bind, Option.bind_eq_some_iff, Option.map_eq_some_iff, readByte_eq_some, readCoord_eq_some, readScale_eq_some, readWord_eq_some] at h
      obtain ⟨_, ⟨_, ⟨_, ⟨_, ⟨_, ⟨a, ⟨rfl, ha⟩, rfl⟩, b, ⟨rfl, hb⟩, rfl⟩, c, ⟨rfl, hc⟩, rfl⟩, d, rfl, rfl⟩, e, rfl, rfl⟩, g, rfl, rfl⟩ := h
      exact ⟨a, b, c, d, e, g, rfl, ha, hb, hc, rfl⟩
    · simp [wrongArity] at h
  · rintro ⟨a, b, c, d, e, g, rfl, ha, hb, hc, rfl⟩
    simp only [decodeChar, orOperandType,
      (readCoord_eq_some.mpr ⟨rfl, ha⟩ : readCoord bits (.num a) = some a),
      (readCoord_eq_some.mpr ⟨rfl, hb⟩ : readCoord bits (.num b) = some b),
      (readScale_eq_some.mpr ⟨rfl, hc⟩ : readScale (.num (c : Int)) = some c),
      (readWord_eq_some.mpr rfl : readWord (numOf d) = some d),
      (readWord_eq_some.mpr rfl : readWord (numOf e) = some e),
      (readByte_eq_some.mpr rfl : readByte (numOf g) = some g)]
    rfl

theorem decodeString_eq_ok {bits : Nat} {f : Int → Int → Nat → Word → Word → List Byte → Instr} {args : List Operand} {i : Instr} :
    decodeString bits f args = .ok i ↔
      ∃ (a : Int) (b : Int) (c : Nat) (d : Word) (e : Word) (g : List Byte),
        args = [.num a, .num b, .num (c : Int), numOf d, numOf e, textOf g] ∧ coordFits bits a = true ∧ coordFits bits b = true ∧ scaleFits c = true ∧ f a b c d e g = i := by
  constructor
  · intro h
    unfold decodeString at h
    split at h
    · rw [orOperandType_eq_ok] at h
      simp only [Option.map_eq_map, seq_eq_bind_map, Option.bind_eq_bind, Option.bind_eq_some_iff, Option.map_eq_some_iff, readCoord_eq_some, readScale_eq_some, readText_eq_some, readWord_eq_some] at h
      obtain ⟨_, ⟨_, ⟨_, ⟨_, ⟨_, ⟨a, ⟨rfl, ha⟩, rfl⟩, b, ⟨rfl, hb⟩, rfl⟩, c, ⟨rfl, hc⟩, rfl⟩, d, rfl, rfl⟩, e, rfl, rfl⟩, g, rfl, rfl⟩ := h
      exact ⟨a, b, c, d, e, g, rfl, ha, hb, hc, rfl⟩
    · simp [wrongArity] at h
  · rintro ⟨a, b, c, d, e, g, rfl, ha, hb, hc, rfl⟩
    simp only [decodeString, orOperandType,
      (readCoord_eq_some.mpr ⟨rfl, ha⟩ : readCoord bits (.num a) = some a),
      (readCoord_eq_some.mpr ⟨rfl, hb⟩ : readCoord bits (.num b) = some b),
      (readScale_eq_some.mpr ⟨rfl, hc⟩ : readScale (.num (c : Int)) = some c),
      (readWord_eq_some.mpr rfl : readWord (numOf d) = some d),
      (readWord_eq_some.mpr rfl : readWord (numOf e) = some e),
      (readText_eq_some.mpr rfl : readText (textOf g) = some g)]
    rfl

/-- The bus word of a display cycle, read back (30_encoding.md R74). -/
theorem decodeBusCycle_command (d : Word) : decodeBusCycle (0#1 ++ d) = .buscycCmd d := by
  have h1 : (0#1 ++ d).extractLsb' 16 1 = 0#1 := BitVec.extractLsb'_append_eq_left
  have h2 : (0#1 ++ d).extractLsb' 0 16 = d := BitVec.extractLsb'_append_eq_right
  simp only [decodeBusCycle]
  rw [h1, h2, if_pos rfl]

theorem decodeBusCycle_data (d : Word) : decodeBusCycle (1#1 ++ d) = .buscycData d := by
  have h1 : (1#1 ++ d).extractLsb' 16 1 = 1#1 := BitVec.extractLsb'_append_eq_left
  have h2 : (1#1 ++ d).extractLsb' 0 16 = d := BitVec.extractLsb'_append_eq_right
  simp only [decodeBusCycle]
  rw [h1, h2, if_neg (by decide)]

end Sys2Proof
end

