-- ==== Sys2Proof/Laws/Init.lean ====
section
/-! SUPPORT. DISP.INIT's sequence in parts (42_display.md R145): two parts one after the other, a pair to a configuration
register, and cycles under a configuration that differs in INIT_SEQ only. -/

namespace Sys2Proof.Machine

theorem sendInit_append (ps qs : List (Word × Word)) (s : State) :
    sendInit (ps ++ qs) s = andThen (sendInit ps s) (sendInit qs) := by
  induction ps generalizing s with
  | nil => rfl
  | cons p ps ih =>
    obtain ⟨a, v⟩ := p
    rw [List.cons_append, sendInit, sendInit, andThen_assoc]
    refine congrArg _ ?_
    funext t
    exact ih t

/-- Inside DISP.INIT a configuration register is written (R158). -/
theorem panelData_config {a v : Word} {s : State} (hir : s.panel.ir = some a) (h : a ∉ s.cfg.knownRegs) :
    panelData true v s = .next (s.setPanel (s.panel.regWrite a v)) := by
  simp only [Config.knownRegs, List.mem_cons, List.not_mem_nil, or_false, not_or] at h
  simp [panelData, hir, isWindowReg, isCursorReg, h, configWrite]

/-- The reaction a data cycle has when it completes, and nothing else, decides that it completes. -/
theorem panelData_of_effect {inInit : Bool} {v : Word} {s : State} {p : Panel} (h : DataEffect inInit v s p)
    (hv : s.cfg.valid = true) : panelData inInit v s = .next (s.setPanel p) := by
  cases h with
  | pixel w hir hw hin => exact panelData_pixel rfl hir hw hin
  | window a hir ha hlt => exact panelData_window rfl hv hir ha hlt
  | cursorX hir hlt => exact panelData_cursorX rfl hv hir hlt
  | cursorY a hir ha hne hlt =>
    simp only [panelData, hir]
    rw [if_neg (Config.cursor_ne_write hv ha), if_neg (by simp [Config.cursor_not_window hv ha]), if_pos ha,
      cursorWrite, if_neg hne, if_neg (by omega)]
  | config a hir hinit hne hw hc =>
    simp [panelData, hir, hne, hw, hc, configWrite, hinit]

/-- A data cycle reads nothing of INIT_SEQ. -/
theorem DataEffect.withInitSeq {inInit : Bool} {v : Word} {s : State} {p : Panel} (pairs : List (Word × Word))
    (h : DataEffect inInit v s p) : DataEffect inInit v (withInitSeq pairs s) p := by
  cases h with
  | pixel w hir hw hin => exact .pixel (s := Machine.withInitSeq pairs s) w hir hw hin
  | window a hir ha hlt => exact .window (s := Machine.withInitSeq pairs s) a hir ha hlt
  | cursorX hir hlt => exact .cursorX (s := Machine.withInitSeq pairs s) hir hlt
  | cursorY a hir ha hne hlt => exact .cursorY (s := Machine.withInitSeq pairs s) a hir ha hne hlt
  | config a hir hinit hne hw hc => exact .config (s := Machine.withInitSeq pairs s) a hir hinit hne hw hc

theorem withInitSeq_valid (pairs : List (Word × Word)) (s : State) :
    (withInitSeq pairs s).cfg.valid = s.cfg.valid := rfl

theorem writeReg_withInitSeq {a v : Word} {s t : State} (pairs : List (Word × Word)) (hv : s.cfg.valid = true)
    (h : writeReg true a v s = .next t) : writeReg true a v (withInitSeq pairs s) = .next (withInitSeq pairs t) := by
  rw [writeReg_eq] at h ⊢
  obtain ⟨p, hp, rfl⟩ := panelData_eq_next h
  exact panelData_of_effect (hp.withInitSeq pairs) hv

/-- A sequence that is sent does under another INIT_SEQ what it did. -/
theorem sendInit_withInitSeq {sent : List (Word × Word)} {s t : State} (pairs : List (Word × Word))
    (hv : s.cfg.valid = true) (h : sendInit sent s = .next t) :
    sendInit sent (withInitSeq pairs s) = .next (withInitSeq pairs t) := by
  induction sent generalizing s with
  | nil =>
    simp only [sendInit, Host.Outcome.next.injEq] at h ⊢
    rw [h]
  | cons p sent ih =>
    obtain ⟨a, v⟩ := p
    rw [sendInit] at h ⊢
    obtain ⟨u, hu, ht⟩ := andThen_eq_next h
    rw [writeReg_withInitSeq pairs hv hu, andThen_next]
    refine ih ?_ ht
    have hw := writeReg_works (inInit := true) (a := a) (v := v) (s := s) (.inl rfl)
    rw [hu] at hw
    rw [DisplayMoves.cfg_eq hw]
    exact hv

end Sys2Proof.Machine
end

