-- ==== Sys2Proof/Laws/Lines.lean ====
section
/-! SUPPORT. The error-term loop of RAST.LINE in closed form (43_raster.md R172). -/

namespace Sys2Proof.Machine

/-- How many minor steps the loop has made before point `k`: (2·d·k − D) / (2·D) rounded up. -/
def minorSteps (dMajor dMinor k : Int) : Int := -((dMajor - 2 * dMinor * k) / (2 * dMajor))

/-- The count lies between the two whole numbers next to the ideal line. -/
theorem minorSteps_bounds {dMajor dMinor : Int} (h : 0 < dMajor) (k : Int) :
    2 * dMinor * k - dMajor ≤ 2 * dMajor * minorSteps dMajor dMinor k
      ∧ 2 * dMajor * (minorSteps dMajor dMinor k - 1) < 2 * dMinor * k - dMajor := by
  have h1 := Int.emod_add_mul_ediv (dMajor - 2 * dMinor * k) (2 * dMajor)
  have h2 := Int.emod_nonneg (dMajor - 2 * dMinor * k) (b := 2 * dMajor) (by omega)
  have h3 := Int.emod_lt_of_pos (dMajor - 2 * dMinor * k) (b := 2 * dMajor) (by omega)
  simp only [minorSteps]
  constructor <;> nlinarith

/-- A count with these bounds is the one. -/
theorem minorSteps_unique {dMajor dMinor k c : Int} (h : 0 < dMajor) (h1 : 2 * dMinor * k - dMajor ≤ 2 * dMajor * c)
    (h2 : 2 * dMajor * (c - 1) < 2 * dMinor * k - dMajor) : c = minorSteps dMajor dMinor k := by
  obtain ⟨b1, b2⟩ := minorSteps_bounds (dMinor := dMinor) h k
  have hle : c - 1 < minorSteps dMajor dMinor k := by
    by_contra hn
    have : dMajor * minorSteps dMajor dMinor k ≤ dMajor * (c - 1) := mul_le_mul_of_nonneg_left (by omega) (by omega)
    nlinarith
  have hge : minorSteps dMajor dMinor k - 1 < c := by
    by_contra hn
    have : dMajor * c ≤ dMajor * (minorSteps dMajor dMinor k - 1) := mul_le_mul_of_nonneg_left (by omega) (by omega)
    nlinarith
  omega

/-- One turn of the loop makes a minor step exactly when the count rises (R172 `e > 0`). -/
theorem minorSteps_succ {dMajor dMinor : Int} (h : 0 < dMajor) (h0 : 0 ≤ dMinor) (hle : dMinor ≤ dMajor) (k : Int) :
    minorSteps dMajor dMinor (k + 1) =
      if 0 < 2 * dMinor * (k + 1) - dMajor - 2 * dMajor * minorSteps dMajor dMinor k
      then minorSteps dMajor dMinor k + 1 else minorSteps dMajor dMinor k := by
  obtain ⟨b1, b2⟩ := minorSteps_bounds (dMinor := dMinor) h k
  split
  · refine (minorSteps_unique h ?_ ?_).symm <;> nlinarith
  · refine (minorSteps_unique h ?_ ?_).symm <;> nlinarith

theorem minorSteps_zero {dMajor dMinor : Int} (h : 0 < dMajor) : minorSteps dMajor dMinor 0 = 0 :=
  (minorSteps_unique h (by omega) (by omega)).symm

/-- The loop from point `k` on, its error term being the one the loop has there. -/
theorem walk_from {dMajor dMinor : Int} (h : 0 < dMajor) (h0 : 0 ≤ dMinor) (hle : dMinor ≤ dMajor)
    (stepMajor stepMinor major0 minor0 : Int) (n k : Nat) :
    walk dMajor dMinor stepMajor stepMinor n (major0 + k * stepMajor)
        (minor0 + stepMinor * minorSteps dMajor dMinor k)
        (2 * dMinor * (k + 1) - dMajor - 2 * dMajor * minorSteps dMajor dMinor k) =
      (List.range' k n).map fun (j : Nat) =>
        (major0 + j * stepMajor, minor0 + stepMinor * minorSteps dMajor dMinor j) := by
  induction n generalizing k with
  | zero => rfl
  | succ n ih =>
    have hs := minorSteps_succ h h0 hle k
    have hk : ((k + 1 : Nat) : Int) = (k : Int) + 1 := by push_cast; rfl
    rw [walk, List.range'_succ, List.map_cons, ← ih (k + 1), hk]
    refine congrArg _ ?_
    split
    · rename_i he
      rw [if_pos he] at hs
      rw [hs]
      congr 1 <;> ring
    · rename_i he
      rw [if_neg he] at hs
      rw [hs]
      congr 1 <;> ring

/-- The loop of R172 from its start. -/
theorem walk_closed {dMajor dMinor : Int} (h : 0 < dMajor) (h0 : 0 ≤ dMinor) (hle : dMinor ≤ dMajor)
    (stepMajor stepMinor major0 minor0 : Int) (n : Nat) :
    walk dMajor dMinor stepMajor stepMinor n major0 minor0 (2 * dMinor - dMajor) =
      (List.range n).map fun (j : Nat) =>
        (major0 + j * stepMajor, minor0 + stepMinor * minorSteps dMajor dMinor j) := by
  have hw := walk_from h h0 hle stepMajor stepMinor major0 minor0 n 0
  rw [List.range_eq_range', ← hw]
  simp [minorSteps_zero h]

theorem walk_length (dMajor dMinor stepMajor stepMinor : Int) (n : Nat) (major minor e : Int) :
    (walk dMajor dMinor stepMajor stepMinor n major minor e).length = n := by
  induction n generalizing major minor e with
  | zero => rfl
  | succ n ih =>
    rw [walk, List.length_cons]
    split <;> rw [ih]

end Sys2Proof.Machine
end

