-- ==== Sys2Proof/Laws/Shapes.lean ====
section
/-! SUPPORT. Which cells the RAST.PIXEL calls of a block and of a character land on, and with which colour
(43_raster.md R174, 44_text.md R192). -/

namespace Sys2Proof.Machine

/-- The calls land on a logical point. -/
def lands (ds : List Dot) (a b : Int) : Prop := ∃ d ∈ ds, d.x = a ∧ d.y = b

theorem lastColor_none {ds : List Dot} {x yd : Nat} :
    lastColor ds x yd = none ↔ ¬ lands ds (x : Int) ((HEIGHT : Int) - 1 - (yd : Int)) := by
  simp only [lastColor, Option.map_eq_none_iff, List.getLast?_eq_none_iff, List.filter_eq_nil_iff, lands,
    decide_eq_true_eq, not_exists, not_and]

/-- The colour of the last call on a cell is the colour of some call that lands there. -/
theorem lastColor_some {ds : List Dot} {x yd : Nat} {c : Word} (h : lastColor ds x yd = some c) :
    ∃ d ∈ ds, d.x = (x : Int) ∧ d.y = (HEIGHT : Int) - 1 - (yd : Int) ∧ d.color = c := by
  simp only [lastColor, Option.map_eq_some_iff] at h
  obtain ⟨d, hd, hc⟩ := h
  have hm := List.mem_of_getLast? hd
  rw [List.mem_filter, decide_eq_true_eq] at hm
  exact ⟨d, hm.1, hm.2.1, hm.2.2, hc⟩

theorem lands_append {ds es : List Dot} {a b : Int} : lands (ds ++ es) a b ↔ lands ds a b ∨ lands es a b := by
  simp only [lands, List.mem_append, or_and_right, exists_or]

/-- A cell no call lands on is as before. -/
theorem afterDots_gram_other {ds : List Dot} {s : State} {x yd : Nat} (hx : x < WIDTH) (hy : yd < HEIGHT)
    (h : ¬ lands ds (x : Int) ((HEIGHT : Int) - 1 - (yd : Int))) :
    (afterDots ds s).panel.gramAt x yd = s.panel.gramAt x yd := by
  rw [afterDots_gram ds s x yd hx hy, lastColor_none.mpr h]

/-- A cell on which only calls of one colour land holds that colour. -/
theorem afterDots_gram_color {ds : List Dot} {s : State} {x yd : Nat} {c : Word} (hx : x < WIDTH) (hy : yd < HEIGHT)
    (h : lands ds (x : Int) ((HEIGHT : Int) - 1 - (yd : Int)))
    (hc : ∀ d ∈ ds, d.x = (x : Int) → d.y = (HEIGHT : Int) - 1 - (yd : Int) → d.color = c) :
    (afterDots ds s).panel.gramAt x yd = some c := by
  rw [afterDots_gram ds s x yd hx hy]
  cases hl : lastColor ds x yd with
  | none => exact absurd h (lastColor_none.mp hl)
  | some c' =>
    obtain ⟨d, hd, h1, h2, rfl⟩ := lastColor_some hl
    rw [hc d hd h1 h2]

/-! ### Blocks -/

theorem mem_blockDots {x y : Int} {color : Word} {scale : Nat} {d : Dot} :
    d ∈ blockDots x y color scale ↔
      d.color = color ∧ x ≤ d.x ∧ d.x < x + scale ∧ y ≤ d.y ∧ d.y < y + scale := by
  simp only [blockDots, dotsOf, blockPoints, List.mem_map, List.mem_flatMap, List.mem_range]
  constructor
  · rintro ⟨p, ⟨j, hj, i, hi, rfl⟩, rfl⟩
    refine ⟨rfl, ?_, ?_, ?_, ?_⟩ <;> simp only <;> omega
  · rintro ⟨hc, h1, h2, h3, h4⟩
    refine ⟨(d.x, d.y), ⟨(d.y - y).toNat, by omega, (d.x - x).toNat, by omega, ?_⟩, ?_⟩
    · rw [Prod.mk.injEq]
      omega
    · rw [← hc]

theorem lands_block {x y : Int} {color : Word} {scale : Nat} {a b : Int} :
    lands (blockDots x y color scale) a b ↔ x ≤ a ∧ a < x + scale ∧ y ≤ b ∧ b < y + scale := by
  constructor
  · rintro ⟨d, hd, rfl, rfl⟩
    exact (mem_blockDots.mp hd).2
  · rintro h
    exact ⟨⟨a, b, color⟩, mem_blockDots.mpr ⟨rfl, h⟩, rfl, rfl⟩

/-! ### Characters -/

/-- A call of a character is one of the block of some column and row. -/
theorem mem_charDots {c : Config} {x y : Int} {scale : Nat} {fg bg : Word} {ch : Byte} {d : Dot} :
    d ∈ charDots c x y scale fg bg ch ↔
      ∃ k r : Nat, k < 5 ∧ r < 8 ∧ d.color = (if glyphBit c ch k r then fg else bg)
        ∧ x + k * scale ≤ d.x ∧ d.x < x + k * scale + scale ∧ y + r * scale ≤ d.y ∧ d.y < y + r * scale + scale := by
  simp only [charDots, List.mem_flatMap, List.mem_range, mem_blockDots, GLYPH_ROWS, GLYPH_COLS]
  constructor
  · rintro ⟨r, hr, k, hk, h⟩
    exact ⟨k, r, hk, hr, h⟩
  · rintro ⟨k, r, hk, hr, h⟩
    exact ⟨r, hr, k, hk, h⟩

/-- Two blocks of a grid that share a point are the same. -/
theorem grid_unique {x a : Int} {scale k k' : Nat} (h1 : x + k * scale ≤ a) (h2 : a < x + k * scale + scale)
    (h3 : x + k' * scale ≤ a) (h4 : a < x + k' * scale + scale) : k = k' := by
  rcases Nat.lt_trichotomy k k' with h | h | h
  · have : ((k + 1 : Nat) : Int) * scale ≤ (k' : Int) * scale :=
      mul_le_mul_of_nonneg_right (by exact_mod_cast h) (by positivity)
    push_cast at this
    nlinarith
  · exact h
  · have : ((k' + 1 : Nat) : Int) * scale ≤ (k : Int) * scale :=
      mul_le_mul_of_nonneg_right (by exact_mod_cast h) (by positivity)
    push_cast at this
    nlinarith

/-- Every point of a character's rectangle is in one of its blocks. -/
theorem grid_exists {x a : Int} {scale n : Nat} (h1 : x ≤ a) (h2 : a < x + n * scale) :
    ∃ k : Nat, k < n ∧ x + k * scale ≤ a ∧ a < x + k * scale + scale := by
  induction n with
  | zero => simp at h2; omega
  | succ n ih =>
    by_cases h : a < x + n * scale
    · obtain ⟨k, hk, h'⟩ := ih h
      exact ⟨k, by omega, h'⟩
    · refine ⟨n, by omega, by omega, ?_⟩
      push_cast at h2
      nlinarith

/-- The calls of a character land on its rectangle. -/
theorem lands_char {c : Config} {x y : Int} {scale : Nat} {fg bg : Word} {ch : Byte} {a b : Int} :
    lands (charDots c x y scale fg bg ch) a b ↔
      x ≤ a ∧ a < x + 5 * scale ∧ y ≤ b ∧ b < y + 8 * scale := by
  constructor
  · rintro ⟨d, hd, rfl, rfl⟩
    obtain ⟨k, r, hk, hr, -, h1, h2, h3, h4⟩ := mem_charDots.mp hd
    have hk' : ((k + 1 : Nat) : Int) * scale ≤ 5 * scale :=
      mul_le_mul_of_nonneg_right (by exact_mod_cast hk) (by positivity)
    have hr' : ((r + 1 : Nat) : Int) * scale ≤ 8 * scale :=
      mul_le_mul_of_nonneg_right (by exact_mod_cast hr) (by positivity)
    have hk0 : (0 : Int) ≤ (k : Int) * scale := by positivity
    have hr0 : (0 : Int) ≤ (r : Int) * scale := by positivity
    push_cast at hk' hr'
    refine ⟨by linarith, by linarith, by linarith, by linarith⟩
  · rintro ⟨h1, h2, h3, h4⟩
    obtain ⟨k, hk, hk1, hk2⟩ := grid_exists (n := 5) (scale := scale) h1 (by exact_mod_cast h2)
    obtain ⟨r, hr, hr1, hr2⟩ := grid_exists (n := 8) (scale := scale) h3 (by exact_mod_cast h4)
    exact ⟨⟨a, b, _⟩, mem_charDots.mpr ⟨k, r, hk, hr, rfl, hk1, hk2, hr1, hr2⟩, rfl, rfl⟩

/-- On a point of block (k, r) every call of the character has the colour of its glyph bit. -/
theorem charDots_color {c : Config} {x y : Int} {scale : Nat} {fg bg : Word} {ch : Byte} {k r : Nat} {d : Dot}
    (hd : d ∈ charDots c x y scale fg bg ch) (h1 : x + k * scale ≤ d.x) (h2 : d.x < x + k * scale + scale)
    (h3 : y + r * scale ≤ d.y) (h4 : d.y < y + r * scale + scale) :
    d.color = if glyphBit c ch k r then fg else bg := by
  obtain ⟨k', r', -, -, hc, g1, g2, g3, g4⟩ := mem_charDots.mp hd
  obtain rfl := grid_unique h1 h2 g1 g2
  obtain rfl := grid_unique h3 h4 g3 g4
  exact hc

end Sys2Proof.Machine
end

