-- ==== Sys2Proof/Laws/Sweep.lean ====
section
/-! SUPPORT. Many pixel writes of one colour (42_display.md R143, R156): the cursor as an index into the window, which
counts up by one and wraps, and GRAM after any number of writes. -/

namespace Sys2Proof.Machine

/-- The cursor's place in the order of AUTOINC, 0 at the window's start. -/
def Window.index (o : AutoInc) (w : Window) : Nat :=
  match o with
  | .xy => (w.cy - w.vsa) * (w.hea - w.hsa + 1) + (w.cx - w.hsa)
  | .yx => (w.cx - w.hsa) * (w.vea - w.vsa + 1) + (w.cy - w.vsa)

/-- How many cells the window has. -/
def Window.area (w : Window) : Nat := (w.hea - w.hsa + 1) * (w.vea - w.vsa + 1)

/-- The window with its cursor at a cell. -/
def Window.withCursor (w : Window) (x y : Nat) : Window := { w with cx := x, cy := y }

theorem Window.holdsCursor_iff {w : Window} :
    w.holdsCursor = true ↔
      w.hsa ≤ w.hea ∧ w.vsa ≤ w.vea ∧ w.hsa ≤ w.cx ∧ w.cx ≤ w.hea ∧ w.vsa ≤ w.cy ∧ w.cy ≤ w.vea := by
  rw [Window.holdsCursor, decide_eq_true_eq]

/-- Row-major places of an a × b grid: one step on is the next place, and the last place is followed by the first. -/
theorem grid_index_lt {i j a b : Nat} (hi : i < a) (hj : j < b) : j * a + i < a * b := by
  have : (j + 1) * a ≤ b * a := Nat.mul_le_mul_right a hj
  rw [Nat.add_mul, Nat.one_mul, Nat.mul_comm b a] at this
  omega

theorem grid_index_inj {i j i' j' a : Nat} (hi : i < a) (hi' : i' < a) (h : j * a + i = j' * a + i') :
    i = i' ∧ j = j' := by
  have h1 : (j * a + i) % a = (j' * a + i') % a := by rw [h]
  rw [Nat.mul_comm j, Nat.mul_comm j', Nat.mul_add_mod, Nat.mul_add_mod, Nat.mod_eq_of_lt hi,
    Nat.mod_eq_of_lt hi'] at h1
  refine ⟨h1, ?_⟩
  have h2 : j * a = j' * a := by omega
  exact Nat.eq_of_mul_eq_mul_right (by omega) h2

theorem Window.index_lt {w : Window} (o : AutoInc) (h : w.holdsCursor = true) : w.index o < w.area := by
  obtain ⟨h1, h2, h3, h4, h5, h6⟩ := Window.holdsCursor_iff.mp h
  cases o
  · exact grid_index_lt (by omega) (by omega)
  · rw [Window.area, Nat.mul_comm]
    exact grid_index_lt (by omega) (by omega)

/-- Two cursors of one window with the same index are the same. -/
theorem Window.index_inj {w : Window} (o : AutoInc) {x y x' y' : Nat} (h : (w.withCursor x y).holdsCursor = true)
    (h' : (w.withCursor x' y').holdsCursor = true) (he : (w.withCursor x y).index o = (w.withCursor x' y').index o) : x = x' ∧ y = y' := by
  have h := Window.holdsCursor_iff.mp h
  have h' := Window.holdsCursor_iff.mp h'
  simp only [Window.withCursor] at h h' he
  cases o
  · simp only [Window.index] at he
    have := grid_index_inj (by omega) (by omega) he
    omega
  · simp only [Window.index] at he
    have := grid_index_inj (by omega) (by omega) he
    omega

/-- One pixel write moves the cursor to the next index, and from the last one to the first (R156). -/
theorem Window.advance_index {w : Window} (o : AutoInc) (h : w.holdsCursor = true) :
    (w.advance o).index o = if w.index o + 1 = w.area then 0 else w.index o + 1 := by
  obtain ⟨h1, h2, h3, h4, h5, h6⟩ := Window.holdsCursor_iff.mp h
  cases o
  · simp only [Window.advance]
    split
    · rename_i hx
      have hlt := grid_index_lt (i := w.cx + 1 - w.hsa) (j := w.cy - w.vsa) (a := w.hea - w.hsa + 1)
        (b := w.vea - w.vsa + 1) (by omega) (by omega)
      rw [if_neg (by simp only [Window.index, Window.area]; omega)]
      simp only [Window.index]
      omega
    · rename_i hx
      have hrow : w.cx - w.hsa + 1 = w.hea - w.hsa + 1 := by omega
      split
      · rename_i hy
        have hlt := grid_index_lt (i := 0) (j := w.cy + 1 - w.vsa) (a := w.hea - w.hsa + 1)
          (b := w.vea - w.vsa + 1) (by omega) (by omega)
        have hmul : (w.cy + 1 - w.vsa) * (w.hea - w.hsa + 1) =
            (w.cy - w.vsa) * (w.hea - w.hsa + 1) + (w.hea - w.hsa + 1) := by
          rw [show w.cy + 1 - w.vsa = w.cy - w.vsa + 1 by omega, Nat.add_mul, Nat.one_mul]
        rw [if_neg (by simp only [Window.index, Window.area]; omega)]
        simp only [Window.index]
        omega
      · rename_i hy
        have hmul : (w.hea - w.hsa + 1) * (w.vea - w.vsa + 1) =
            (w.cy - w.vsa) * (w.hea - w.hsa + 1) + (w.hea - w.hsa + 1) := by
          rw [Nat.mul_comm, show w.vea - w.vsa + 1 = w.cy - w.vsa + 1 by omega, Nat.add_mul, Nat.one_mul]
        rw [if_pos (by simp only [Window.index, Window.area]; omega)]
        simp [Window.index]
  · simp only [Window.advance]
    split
    · rename_i hy
      have hlt := grid_index_lt (i := w.cy + 1 - w.vsa) (j := w.cx - w.hsa) (a := w.vea - w.vsa + 1)
        (b := w.hea - w.hsa + 1) (by omega) (by omega)
      rw [Nat.mul_comm (w.vea - w.vsa + 1)] at hlt
      rw [if_neg (by simp only [Window.index, Window.area]; omega)]
      simp only [Window.index]
      omega
    · rename_i hy
      split
      · rename_i hx
        have hlt := grid_index_lt (i := 0) (j := w.cx + 1 - w.hsa) (a := w.vea - w.vsa + 1)
          (b := w.hea - w.hsa + 1) (by omega) (by omega)
        rw [Nat.mul_comm (w.vea - w.vsa + 1)] at hlt
        have hmul : (w.cx + 1 - w.hsa) * (w.vea - w.vsa + 1) =
            (w.cx - w.hsa) * (w.vea - w.vsa + 1) + (w.vea - w.vsa + 1) := by
          rw [show w.cx + 1 - w.hsa = w.cx - w.hsa + 1 by omega, Nat.add_mul, Nat.one_mul]
        rw [if_neg (by simp only [Window.index, Window.area]; omega)]
        simp only [Window.index]
        omega
      · rename_i hx
        have hmul : (w.hea - w.hsa + 1) * (w.vea - w.vsa + 1) =
            (w.cx - w.hsa) * (w.vea - w.vsa + 1) + (w.vea - w.vsa + 1) := by
          rw [show w.hea - w.hsa + 1 = w.cx - w.hsa + 1 by omega, Nat.add_mul, Nat.one_mul]
        rw [if_pos (by simp only [Window.index, Window.area]; omega)]
        simp [Window.index]

/-- The cursor with index 0 is the window's start. -/
theorem Window.index_zero {w : Window} (o : AutoInc) (h : w.holdsCursor = true) (h0 : w.index o = 0) :
    w.cx = w.hsa ∧ w.cy = w.vsa := by
  obtain ⟨h1, h2, h3, h4, h5, h6⟩ := Window.holdsCursor_iff.mp h
  cases o
  · simp only [Window.index, Nat.add_eq_zero_iff, Nat.mul_eq_zero] at h0
    omega
  · simp only [Window.index, Nat.add_eq_zero_iff, Nat.mul_eq_zero] at h0
    omega

/-! ### Several pixel writes -/

/-- The window after `n` pixel writes. -/
def Window.advances (o : AutoInc) : Nat → Window → Window
  | 0, w => w
  | n + 1, w => Window.advances o n (w.advance o)

/-- The state after `n` pixel writes of one colour from the window and cursor `w`. -/
def afterPixels (color : Word) : Nat → Window → State → State
  | 0, _, s => s
  | n + 1, w, s => afterPixels color n (w.advance s.cfg.autoInc) (afterPixel w color s)

theorem afterPixels_cfg (color : Word) (n : Nat) (w : Window) (s : State) : (afterPixels color n w s).cfg = s.cfg := by
  induction n generalizing w s with
  | zero => rfl
  | succ n ih => rw [afterPixels, ih, afterPixel_cfg]

/-- As many pixel writes as one likes complete from a window that holds its cursor. -/
theorem repeatPixel_eq {color : Word} (n : Nat) {w : Window} {s : State} (hir : s.panel.ir = some s.cfg.regGramWrite)
    (hw : s.window = some w) (hin : w.holdsCursor = true) :
    repeatPixel color n s = .next (afterPixels color n w s) := by
  induction n generalizing w s with
  | zero => rfl
  | succ n ih =>
    rw [repeatPixel, writePixel_eq hir hw hin, andThen_next]
    exact ih (s := afterPixel w color s) hir (afterPixel_window hw) (Window.advance_holdsCursor _ hin)

theorem afterPixel_sameButDisplay (w : Window) (color : Word) (s : State) :
    sameButDisplay s (afterPixel w color s) := ⟨⟨rfl, rfl, rfl, rfl, rfl⟩, rfl, rfl, rfl, rfl, rfl, rfl, rfl⟩

/-- The frame of pixel writes: the registers, P.IR and everything outside the display side stay. -/
theorem afterPixels_frame (color : Word) (n : Nat) (w : Window) (s : State) :
    sameButDisplay s (afterPixels color n w s) ∧ (afterPixels color n w s).panel.reg = s.panel.reg
      ∧ (afterPixels color n w s).panel.ir = s.panel.ir := by
  induction n generalizing w s with
  | zero => exact ⟨sameButDisplay_refl s, rfl, rfl⟩
  | succ n ih =>
    obtain ⟨h1, h2, h3⟩ := ih (w.advance s.cfg.autoInc) (afterPixel w color s)
    exact ⟨sameButDisplay_trans (afterPixel_sameButDisplay w color s) h1, h2, h3⟩

theorem afterPixels_events (color : Word) (n : Nat) (w : Window) (s : State) :
    emitted (List.replicate n (cycleEvents 1#1 color)).flatten s (afterPixels color n w s) := by
  induction n generalizing w s with
  | zero => simp [emitted, afterPixels]
  | succ n ih =>
    have h := ih (w.advance s.cfg.autoInc) (afterPixel w color s)
    simp only [emitted, State.trace, afterPixels, afterPixel_events, List.reverse_append, List.reverse_reverse] at h ⊢
    rw [h, List.replicate_succ, List.flatten_cons, List.append_assoc]

theorem afterPixels_lines (color : Word) (n : Nat) (w : Window) (s : State) :
    (afterPixels color (n + 1) w s).lines = s.lines.afterCycle 1#1 color := by
  induction n generalizing w s with
  | zero => rfl
  | succ n ih =>
    rw [afterPixels, ih, afterPixel_lines]
    rfl

/-- The cursor after `n` pixel writes. -/
theorem afterPixels_window {color : Word} (n : Nat) {w : Window} {s : State} (hw : s.window = some w) :
    (afterPixels color n w s).window = some (Window.advances s.cfg.autoInc n w) := by
  induction n generalizing w s with
  | zero => exact hw
  | succ n ih => exact ih (s := afterPixel w color s) (afterPixel_window hw)

@[simp] theorem Window.advance_area (w : Window) (o : AutoInc) : (w.advance o).area = w.area := by
  simp [Window.area]

theorem Window.advances_holdsCursor {w : Window} (o : AutoInc) (n : Nat) (h : w.holdsCursor = true) :
    (Window.advances o n w).holdsCursor = true := by
  induction n generalizing w with
  | zero => exact h
  | succ n ih => exact ih (Window.advance_holdsCursor o h)

theorem Window.advances_fields (o : AutoInc) (n : Nat) (w : Window) :
    (Window.advances o n w).hsa = w.hsa ∧ (Window.advances o n w).hea = w.hea ∧ (Window.advances o n w).vsa = w.vsa
      ∧ (Window.advances o n w).vea = w.vea := by
  induction n generalizing w with
  | zero => exact ⟨rfl, rfl, rfl, rfl⟩
  | succ n ih => simpa [Window.advances] using ih (w.advance o)

/-- Up to the end of the window the index counts the writes; the write of the last cell brings it back to 0. -/
theorem Window.advances_index {w : Window} (o : AutoInc) (n : Nat) (h : w.holdsCursor = true)
    (hn : w.index o + n ≤ w.area) :
    (Window.advances o n w).index o = if w.index o + n = w.area then 0 else w.index o + n := by
  induction n generalizing w with
  | zero =>
    have := Window.index_lt o h
    rw [if_neg (by omega)]
    rfl
  | succ n ih =>
    have h1 := Window.advance_index o h
    rw [Window.advances]
    by_cases hlast : w.index o + 1 = w.area
    · have hn0 : n = 0 := by omega
      subst hn0
      rw [if_pos hlast] at h1
      rw [if_pos (by omega)]
      exact h1
    · rw [if_neg hlast] at h1
      rw [ih (Window.advance_holdsCursor o h) (by rw [Window.advance_area]; omega), Window.advance_area, h1]
      have : w.index o + 1 + n = w.index o + (n + 1) := by omega
      rw [this]

/-- GRAM after `n` pixel writes that do not run past the window's end: the cells from the cursor's index on hold the
colour, every other cell is as before. -/
theorem afterPixels_gram {color : Word} (n : Nat) {w : Window} {s : State} (h : w.holdsCursor = true)
    (hx : w.hea < WIDTH) (hy : w.vea < HEIGHT) (hn : w.index s.cfg.autoInc + n ≤ w.area) {x yd : Nat}
    (hx' : x < WIDTH) (hy' : yd < HEIGHT) :
    (afterPixels color n w s).panel.gramAt x yd =
      if (w.withCursor x yd).holdsCursor = true ∧ w.index s.cfg.autoInc ≤ (w.withCursor x yd).index s.cfg.autoInc
        ∧ (w.withCursor x yd).index s.cfg.autoInc < w.index s.cfg.autoInc + n
      then some color else s.panel.gramAt x yd := by
  induction n generalizing w s with
  | zero =>
    rw [if_neg (by omega)]
    rfl
  | succ n ih =>
    obtain ⟨h1, h2, h3, h4, h5, h6⟩ := Window.holdsCursor_iff.mp h
    have hcell := Panel.pixel_gramAt (o := s.cfg.autoInc) (w := w) (v := color) (p := s.panel) (by omega) (by omega)
      hx' hy'
    have hself : w.withCursor w.cx w.cy = w := rfl
    have hat : ∀ a b, ((w.advance s.cfg.autoInc).withCursor a b) = w.withCursor a b := by
      intro a b
      simp [Window.withCursor]
    rw [afterPixels]
    by_cases hlast : w.index s.cfg.autoInc + 1 = w.area
    · have hn0 : n = 0 := by omega
      subst hn0
      rw [afterPixels, afterPixel_panel, hcell]
      by_cases hc : x = w.cx ∧ yd = w.cy
      · obtain ⟨rfl, rfl⟩ := hc
        rw [if_pos ⟨rfl, rfl⟩, if_pos ⟨by rw [hself]; exact h, by rw [hself], by rw [hself]; omega⟩]
      · rw [if_neg hc, if_neg]
        rintro ⟨g1, g2, g3⟩
        exact hc (Window.index_inj s.cfg.autoInc (x' := w.cx) (y' := w.cy) g1 h (by rw [hself]; omega))
    · have hi := Window.advance_index s.cfg.autoInc h
      rw [if_neg hlast] at hi
      have hrec := ih (w := w.advance s.cfg.autoInc) (s := afterPixel w color s)
        (Window.advance_holdsCursor _ h) (by simpa using hx) (by simpa using hy)
        (by rw [afterPixel_cfg, hi, Window.advance_area]; omega)
      rw [hrec, afterPixel_cfg, hi, hat, afterPixel_panel, hcell]
      by_cases hc : x = w.cx ∧ yd = w.cy
      · obtain ⟨rfl, rfl⟩ := hc
        rw [hself, if_pos (show w.cx = w.cx ∧ w.cy = w.cy from ⟨rfl, rfl⟩)]
        rw [if_neg (by omega), if_pos ⟨h, by omega, by omega⟩]
      · rw [if_neg hc]
        have hne : (w.withCursor x yd).holdsCursor = true → (w.withCursor x yd).index s.cfg.autoInc ≠ w.index s.cfg.autoInc := by
          intro g1 g2
          exact hc (Window.index_inj s.cfg.autoInc (x' := w.cx) (y' := w.cy) g1 h (by rw [hself]; exact g2))
        by_cases g1 : (w.withCursor x yd).holdsCursor = true
        · have := hne g1
          by_cases g2 : w.index s.cfg.autoInc ≤ (w.withCursor x yd).index s.cfg.autoInc
              ∧ (w.withCursor x yd).index s.cfg.autoInc < w.index s.cfg.autoInc + (n + 1)
          · rw [if_pos ⟨g1, by omega, by omega⟩, if_pos ⟨g1, g2⟩]
          · rw [if_neg (by omega), if_neg (fun g => g2 g.2)]
        · rw [if_neg (fun g => g1 g.1), if_neg (fun g => g1 g.1)]

end Sys2Proof.Machine
end

