-- ==== Sys2Proof/Tests/Slice0.lean ====
section
/-! SUPPORT. Tests of the model: what WellFormed refuses, a word of every row written out from 30_encoding.md R80, R74
and R75, single steps whose expected results are those of spec/95_test_vectors.md (named B1, T1, DV2 and so on in the
docstrings), and for every obligation with hypotheses a state and operands that meet them. -/

namespace Sys2Proof.Machine.Tests

open Sys2Proof Sys2Proof.Machine Sys2Proof.Machine.Claims

/-! ## WellFormed refuses operands off their ranges (R72) -/

theorem test_ill_setwin : (Instr.dispSetwin 0 0 0 32768).wellFormed 16 = false
    ∧ (Instr.dispSetwin (-32769) 0 0 0).wellFormed 16 = false ∧ (Instr.dispSetwin 0 (-32769) 0 0).wellFormed 16 = false
    ∧ (Instr.dispSetwin 0 0 32768 0).wellFormed 16 = false := by decide
theorem test_ill_pixel : (Instr.rastPixel 32768 0 0).wellFormed 16 = false
    ∧ (Instr.rastPixel 0 (-32769) 0).wellFormed 16 = false := by decide
theorem test_ill_line : (Instr.rastLine 32768 0 0 0 0).wellFormed 16 = false
    ∧ (Instr.rastLine 0 32768 0 0 0).wellFormed 16 = false ∧ (Instr.rastLine 0 0 (-32769) 0 0).wellFormed 16 = false
    ∧ (Instr.rastLine 0 0 0 (-32769) 0).wellFormed 16 = false := by decide
theorem test_ill_block : (Instr.rastBlock 32768 0 0 1).wellFormed 16 = false
    ∧ (Instr.rastBlock 0 32768 0 1).wellFormed 16 = false ∧ (Instr.rastBlock 0 0 0 256).wellFormed 16 = false := by decide
theorem test_ill_char : (Instr.textChar 32768 0 1 0 0 0).wellFormed 16 = false
    ∧ (Instr.textChar 0 32768 1 0 0 0).wellFormed 16 = false ∧ (Instr.textChar 0 0 256 0 0 0).wellFormed 16 = false := by
  decide
theorem test_ill_string : (Instr.textString 32768 0 1 0 0 []).wellFormed 16 = false
    ∧ (Instr.textString 0 32768 1 0 0 []).wellFormed 16 = false
    ∧ (Instr.textString 0 0 256 0 0 []).wellFormed 16 = false := by decide
theorem test_ill_strrev : (Instr.textStrrev 32768 0 1 0 0 []).wellFormed 16 = false
    ∧ (Instr.textStrrev 0 32768 1 0 0 []).wellFormed 16 = false
    ∧ (Instr.textStrrev 0 0 256 0 0 []).wellFormed 16 = false := by decide
theorem test_well_formed_bounds : (Instr.rastBlock (-32768) 32767 0xFFFF 255).wellFormed 16 = true
    ∧ (Instr.dispSetwin 32767 (-32768) 32767 (-32768)).wellFormed 16 = true := by decide

/-! ## A word of every row (R80, R74, R75) -/

theorem test_word_busWrcmd : decode COORD_BITS_DEFAULT (.hostOp 0x01 [.num 0x1234]) = .ok (.busWrcmd 0x1234) := by rfl
theorem test_word_busWrdata : decode COORD_BITS_DEFAULT (.hostOp 0x02 [.num 65535]) = .ok (.busWrdata 0xFFFF) := by rfl
theorem test_word_busRdbit : decode COORD_BITS_DEFAULT (.hostOp 0x03 []) = .ok .busRdbit := by rfl
theorem test_word_busSetclk : decode COORD_BITS_DEFAULT (.hostOp 0x04 [.num 1]) = .ok (.busSetclk 1) := by rfl
theorem test_word_busSetcs : decode COORD_BITS_DEFAULT (.hostOp 0x05 [.num 0]) = .ok (.busSetcs 0) := by rfl
theorem test_word_busSetdin : decode COORD_BITS_DEFAULT (.hostOp 0x06 [.num 1]) = .ok (.busSetdin 1) := by rfl
theorem test_word_busRdpen : decode COORD_BITS_DEFAULT (.hostOp 0x07 []) = .ok .busRdpen := by rfl
theorem test_word_busSettle : decode COORD_BITS_DEFAULT (.hostOp 0x08 []) = .ok .busSettle := by rfl
theorem test_word_touchStart : decode COORD_BITS_DEFAULT (.hostOp 0x10 []) = .ok .touchStart := by rfl
theorem test_word_touchReadch : decode COORD_BITS_DEFAULT (.hostOp 0x11 [.num 0x90]) = .ok (.touchReadch 0x90) := by rfl
theorem test_word_touchReadpos : decode COORD_BITS_DEFAULT (.hostOp 0x12 []) = .ok .touchReadpos := by rfl
theorem test_word_touchPen : decode COORD_BITS_DEFAULT (.hostOp 0x13 []) = .ok .touchPen := by rfl
theorem test_word_touchCal : decode COORD_BITS_DEFAULT (.hostOp 0x14 [.num 0x800, .num 0x5A3]) = .ok (.touchCal 0x800 0x5A3) := by rfl
theorem test_word_dispInit : decode COORD_BITS_DEFAULT (.hostOp 0x20 []) = .ok .dispInit := by rfl
theorem test_word_dispWrreg : decode COORD_BITS_DEFAULT (.hostOp 0x21 [.num 0xE5, .num 0x8000]) = .ok (.dispWrreg 0xE5 0x8000) := by rfl
theorem test_word_dispSetwin :
    decode COORD_BITS_DEFAULT (.hostOp 0x22 [.num (-1), .num 20, .num 12, .num 21]) = .ok (.dispSetwin (-1) 20 12 21) := by rfl
theorem test_word_dispWrpix : decode COORD_BITS_DEFAULT (.hostOp 0x23 [.num 0xF800]) = .ok (.dispWrpix 0xF800) := by rfl
theorem test_word_dispFill : decode COORD_BITS_DEFAULT (.hostOp 0x24 [.num 0x07E0]) = .ok (.dispFill 0x07E0) := by rfl
theorem test_word_rastPixel :
    decode COORD_BITS_DEFAULT (.hostOp 0x30 [.num 32767, .num (-32768), .num 1]) = .ok (.rastPixel 32767 (-32768) 1) := by rfl
theorem test_word_rastLine :
    decode COORD_BITS_DEFAULT (.hostOp 0x31 [.num 0, .num 1, .num (-3), .num 3, .num 0xFFFF]) = .ok (.rastLine 0 1 (-3) 3 0xFFFF) := by rfl
theorem test_word_rastBlock :
    decode COORD_BITS_DEFAULT (.hostOp 0x32 [.num 238, .num 0, .num 0x001F, .num 3]) = .ok (.rastBlock 238 0 0x001F 3) := by rfl
theorem test_word_textChar :
    decode COORD_BITS_DEFAULT (.hostOp 0x40 [.num 1, .num 2, .num 255, .num 0xFFFF, .num 4, .num 0x4C])
      = .ok (.textChar 1 2 255 0xFFFF 4 0x4C) := by rfl
theorem test_word_textString :
    decode COORD_BITS_DEFAULT (.hostOp 0x41 [.num 10, .num 20, .num 1, .num 0xFFFF, .num 0, .text [0x41, 0x42, 0x00, 0x43]])
      = .ok (.textString 10 20 1 0xFFFF 0 [0x41, 0x42, 0x00, 0x43]) := by rfl
theorem test_word_textStrrev :
    decode COORD_BITS_DEFAULT (.hostOp 0x42 [.num 0, .num 0, .num 1, .num 5, .num 6, .text [0x32, 0x31, 0x5F]])
      = .ok (.textStrrev 0 0 1 5 6 [0x32, 0x31, 0x5F]) := by rfl
theorem test_word_statRd : decode COORD_BITS_DEFAULT (.hostOp 0x50 []) = .ok .statRd := by rfl
theorem test_word_statClr : decode COORD_BITS_DEFAULT (.hostOp 0x51 []) = .ok .statClr := by rfl
theorem test_word_buscycCmd : decode COORD_BITS_DEFAULT (.busCycle 0b01000000000000001#17) = .ok (.buscycCmd 0x8001) := by rfl
theorem test_word_buscycData : decode COORD_BITS_DEFAULT (.busCycle 0b10001001000110100#17) = .ok (.buscycData 0x1234) := by rfl
theorem test_word_tcmdY : decode COORD_BITS_DEFAULT (.touchCommand 0b10010000#8) = .ok .tcmdY := by rfl
theorem test_word_tcmdX : decode COORD_BITS_DEFAULT (.touchCommand 0b11010000#8) = .ok .tcmdX := by rfl

/-- B10, T19, B11, R76: what is no instruction, by name; a wrong number of operands is log 4's. -/
theorem test_rejected :
    decode COORD_BITS_DEFAULT (.hostOp 0x04 [.num 2]) = .error .operandType
      ∧ decode COORD_BITS_DEFAULT (.hostOp 0x14 [.num 4096, .num 0]) = .error .operandType
      ∧ decode COORD_BITS_DEFAULT (.hostOp 0x30 [.num 32768, .num 0, .num 0]) = .error .operandType
      ∧ decode COORD_BITS_DEFAULT (.hostOp 0x41 [.num 0, .num 0, .num 1, .num 0, .num 0, .text [256]]) = .error .operandType
      ∧ decode COORD_BITS_DEFAULT (.hostOp 0x23 [.num (-1)]) = .error .operandType
      ∧ decode COORD_BITS_DEFAULT (.hostOp 0x50 [.num 0]) = .error .operandType
      ∧ decode COORD_BITS_DEFAULT (.hostOp 0x09 []) = .error .illegalOp
      ∧ decode COORD_BITS_DEFAULT (.touchCommand 0x91) = .error .touchCommand := by refine ⟨?_, ?_, ?_, ?_, ?_, ?_, ?_, ?_⟩ <;> rfl

/-- COORD_BITS (R10): the two ends of s16 at the default, of another width, and of width 0 (log 24). -/
theorem test_coord_bits :
    (coordFits COORD_BITS_DEFAULT 32767 && coordFits COORD_BITS_DEFAULT (-32768)
        && !coordFits COORD_BITS_DEFAULT 32768 && !coordFits COORD_BITS_DEFAULT (-32769)) = true
      ∧ (coordFits 12 2047 && coordFits 12 (-2048) && !coordFits 12 2048 && !coordFits 12 (-2049)) = true
      ∧ (coordFits 0 0 && coordFits 0 (-1) && !coordFits 0 1 && !coordFits 0 (-2)) = true := by decide

/-- R10's defaults, whatever is installed. -/
theorem test_defaults (c : Config) :
    c.withDefaults.fontCount = 96 ∧ c.withDefaults.coordBits = 16 ∧ c.withDefaults.autoInc = .xy
      ∧ c.withDefaults.glyphColReversed = true ∧ c.withDefaults.penActive = 0 ∧ c.withDefaults.touchGapClocks = 0 :=
  ⟨rfl, rfl, rfl, rfl, rfl, rfl⟩

/-- The numbering of spec/opcode_table.json: an 8-bit row is its selector or command byte, a 17-bit row has RS in bit
16; a reserved selector is none. -/
theorem test_table_words :
    decodeTableWord 8 0x01 = some (.busWrcmd 0) ∧ decodeTableWord 8 0x42 = some (.textStrrev 0 0 0 0 0 [])
      ∧ decodeTableWord 8 0x51 = some .statClr ∧ decodeTableWord 8 0x90 = some .tcmdY
      ∧ decodeTableWord 8 0xD0 = some .tcmdX ∧ decodeTableWord 24 0x00022 = some (.buscycCmd 0x22)
      ∧ decodeTableWord 24 0x10022 = some (.buscycData 0x22) ∧ decodeTableWord 8 0x00 = none
      ∧ decodeTableWord 8 0xFF = none := by refine ⟨?_, ?_, ?_, ?_, ?_, ?_, ?_, ?_, ?_⟩ <;> rfl

/-- The step after reset runs exactly the word presented: DISP.FILL is refused (R27), STAT.RD returns 0x00 (SV1). -/
theorem test_fetch_word :
    step (State.reset.withFetchWord 8 0x50)
        = .next { State.reset with k := 1, returned := some (.byte 0x00) }
      ∧ step (State.reset.withFetchWord 8 0x24)
        = .refused (.panelNotInitialised
            { State.reset.withFetchWord 8 0x24 with refused := some .panelNotInitialised }) := by
  constructor <;> rfl

/-- An operation with coordinate operands is decoded and refused in its turn: COORD_BITS at reset is 16. -/
theorem test_fetch_word_coords :
    step (State.reset.withFetchWord 8 0x22)
        = .refused (.panelNotInitialised
            { State.reset.withFetchWord 8 0x22 with refused := some .panelNotInitialised })
      ∧ step (State.reset.withFetchWord 8 0x42)
        = .refused (.panelNotInitialised
            { State.reset.withFetchWord 8 0x42 with refused := some .panelNotInitialised }) := by
  constructor <;> rfl

/-! ## Single steps, by the vectors of 95_test_vectors.md -/

/-- What is read of the next state. -/
def after {α : Type} (r : Result) (f : State → α) : Option α :=
  match r with
  | .next t => some (f t)
  | _ => none

/-- The fault and how many events the faulted state has. -/
def faultAfter (r : Result) : Option (Option FaultRecord × Nat) :=
  match r with
  | .fault (.windowInvalid t) => some (t.fault, t.events.length)
  | .fault (.notInWriteMode t) => some (t.fault, t.events.length)
  | .fault (.indexUnset t) => some (t.fault, t.events.length)
  | .fault (.panelValueRange t) => some (t.fault, t.events.length)
  | .fault (.pixelOutsideWindow t) => some (t.fault, t.events.length)
  | .fault (.touchNotSelected t) => some (t.fault, t.events.length)
  | .fault (.touchClockState t) => some (t.fault, t.events.length)
  | _ => none

/-- The reason of a refusal. -/
def refusalAfter (r : Result) : Option RefusalReason :=
  match r with
  | .refused (.illegalOp t) => t.refused
  | .refused (.operandType t) => t.refused
  | .refused (.panelNotInitialised t) => t.refused
  | .refused (.touchCommand t) => t.refused
  | .refused (.opaqueRegister t) => t.refused
  | .refused (.configInvalid t) => t.refused
  | _ => none

/-- "reset", with the test configuration. -/
def start : State := State.blank Config.testConfig

/-- "after DISP.INIT" with the empty INIT_SEQ. -/
def ready : State := { start with initDone := true }

/-- "T1, then BUS.SETCS 0", with the samples T_DOUT will present. -/
def selected (dout : List Level) : State :=
  { start with
    lines := { Lines.unset with tCs := some 0, tClk := some 0, tDin := some 0 }
    env := { dout := dout, pen := [], draws := 0 } }

/-- After DISP.INIT, P.IR set. -/
def indexed (ir : Word) : State := { ready with panel := { Panel.unset with ir := some ir } }

/-- After DISP.SETWIN x1, y1, x2, y2, the cursor moved to (cx, cy). -/
def windowed (x1 y1 x2 y2 : Word) (cx cy : Nat) : State :=
  { ready with
    panel :=
      { ir := some 0x22
        reg := [(0x20, x1), (0x21, y1), (0x50, x1), (0x51, x2), (0x52, y1), (0x53, y2)]
        cx := some cx, cy := some cy, gram := [] } }

/-- The samples of a conversion, MSB first. -/
def samplesOf (v : Raw) : List Level := (List.range 12).map fun j => BitVec.ofBool (v.getLsbD (11 - j))

/-- B1. -/
theorem test_busWrcmd :
    after (exec (.busWrcmd 0x1234) start) (fun t => (t.panel.ir, t.lines, t.trace))
      = some (some 0x1234,
          { Lines.unset with
            dRd := some 1, dRs := some 0, dCs := some 1, dDb := some 0x1234, dWr := some 1 },
          [.drive .dRd 1, .drive .dRs 0, .drive .dCs 0, .driveDb 0x1234, .drive .dWr 0, .drive .dWr 1,
            .drive .dCs 1]) := by decide

/-- B4: a cursor register. -/
theorem test_busWrdata :
    after (exec (.busWrdata 17) (indexed 0x20)) (fun t => (t.panel.regAt 0x20, t.panel.cx, t.panel.cy, t.lines.dRs))
      = some (some 17, some 17, none, some 1) := by decide

/-- B2, B3, B5, B6. -/
theorem test_busWrdata_stops :
    refusalAfter (exec (.busWrdata 1) (indexed 0x1234)) = some .opaqueRegister
      ∧ faultAfter (exec (.busWrdata 0) start) = some (some (.indexUnset 0 0), 7)
      ∧ faultAfter (exec (.busWrdata 240) (indexed 0x20)) = some (some (.panelValueRange 0 0x20 240), 7)
      ∧ faultAfter (exec (.busWrdata 0xFFFF) (indexed 0x22))
        = some (some (.pixelOutsideWindow 0 none none none none none none), 7) := by decide

/-- B7. -/
theorem test_busSetclk :
    after (exec (.busSetclk 1) start) (fun t => (t.lines.tClk, t.trace)) = some (some 1, [.drive .tClk 1]) := by
  decide
theorem test_busSetcs :
    after (exec (.busSetcs 0) start) (fun t => (t.lines.tCs, t.trace)) = some (some 0, [.drive .tCs 0]) := by
  decide
theorem test_busSetdin :
    after (exec (.busSetdin 1) start) (fun t => (t.lines.tDin, t.trace)) = some (some 1, [.drive .tDin 1]) := by
  decide

/-- B8. -/
theorem test_busRdbit :
    after (exec .busRdbit (selected [1, 0])) (fun t => (t.returned, t.trace, t.env.dout))
      = some (some (.lvl 1), [.sample .tDout], [0]) := by decide

/-- R108: the level itself, not mapped through PEN_ACTIVE. -/
theorem test_busRdpen :
    after (exec .busRdpen { start with env := { dout := [], pen := [1], draws := 3 } })
        (fun t => (t.returned, t.trace, t.env.draws))
      = some (some (.lvl 1), [.sample .tPen], 4) := by decide

/-- B9. -/
theorem test_busSettle :
    after (exec .busSettle start) (fun t => (t.trace, t.lines)) = some ([.settle], Lines.unset) := by decide

/-- T1. -/
theorem test_touchStart :
    after (exec .touchStart start) (fun t => (t.lines.tCs, t.lines.tClk, t.lines.tDin, t.trace))
      = some (some 1, some 0, some 0, [.drive .tCs 1, .drive .tClk 0, .drive .tDin 0]) := by decide

/-- T8: the samples 1,0,1,0,0,1,0,1,1,0,1,0 are 0xA5A; T_CLK, T_DIN and T_CS end at 0. -/
theorem test_touchReadch :
    after (exec (.touchReadch 0x90) (selected [1, 0, 1, 0, 0, 1, 0, 1, 1, 0, 1, 0]))
        (fun t => (t.returned, t.events.length, t.lines.tClk, t.lines.tDin, t.lines.tCs))
      = some (some (.raw 0xA5A), 108, some 0, some 0, some 0) := by decide

/-- T2, T4, T5: the refusal comes before the fault checks. -/
theorem test_touchReadch_stops :
    faultAfter (exec (.touchReadch 0x90) start) = some (some (.touchNotSelected 0), 0)
      ∧ faultAfter (exec (.touchReadch 0x90) { start with lines := { Lines.unset with tCs := some 0, tClk := some 1 } })
        = some (some (.touchClockState 0), 0)
      ∧ refusalAfter (exec (.touchReadch 0x91) start) = some .touchCommand := by decide

/-- The T6 list: the bits 1, 0, 0, 1 of 0x90 first, six events for each. -/
theorem test_command_events :
    (after (exec .tcmdY (selected [])) State.trace).map (fun l => ((l.take 24).filter (fun e => decide (e ≠ .settle))))
      = some [.drive .tDin 1, .drive .tClk 1, .drive .tClk 0, .drive .tDin 0, .drive .tClk 1, .drive .tClk 0,
          .drive .tDin 0, .drive .tClk 1, .drive .tClk 0, .drive .tDin 1, .drive .tClk 1, .drive .tClk 0] := by
  decide

/-- T10: Y first, then X. -/
theorem test_touchReadpos :
    after (exec .touchReadpos { selected (samplesOf 0x5A3 ++ samplesOf 0x800) with
          lines := { Lines.unset with tCs := some 1, tClk := some 0, tDin := some 0 } })
        (fun t => (t.returned, t.events.length, t.lines.tCs, t.lines.tClk, t.lines.tDin))
      = some (some (.rawPair 0x800 0x5A3), 220, some 1, some 0, some 0) := by decide +kernel

/-- T11. -/
theorem test_touchReadpos_stops :
    faultAfter (exec .touchReadpos start) = some (some (.touchClockState 0), 0) := by decide

/-- T12, T13. -/
theorem test_touchPen :
    after (exec .touchPen { start with env := { dout := [], pen := [0], draws := 0 } }) State.returned
        = some (some (.lvl 1))
      ∧ after (exec .touchPen { start with env := { dout := [], pen := [1], draws := 0 } }) State.returned
        = some (some (.lvl 0)) := by decide

/-- T14 to T18. -/
theorem test_touchCal :
    after (exec (.touchCal 0x800 0x5A3) start) State.returned = some (some (.intPair 123 103))
      ∧ after (exec (.touchCal 0 0) start) State.returned = some (some (.intPair (-13) (-27)))
      ∧ after (exec (.touchCal 4095 4095) start) State.returned = some (some (.intPair 259 345))
      ∧ after (exec (.touchCal 199 300) start) State.returned = some (some (.intPair 0 0))
      ∧ after (exec (.touchCal 185 289) start) State.returned = some (some (.intPair (-1) (-1))) := by decide

/-- DV18: an opaque register is written by DISP.INIT only. -/
theorem test_dispInit :
    after (exec .dispInit (withInitSeq [(0x00E5, 0x8000)] start))
        (fun t => (t.panel.regAt 0x00E5, t.initDone, t.events.length))
      = some (some 0x8000, true, 14) := by decide

/-- DV13. -/
theorem test_dispWrreg :
    after (exec (.dispWrreg 0x20 5) ready) (fun t => (t.panel.ir, t.panel.regAt 0x20, t.panel.cx, t.events.length))
      = some (some 0x20, some 5, some 5, 14) := by decide

/-- DV12, DV14. -/
theorem test_dispWrreg_stops :
    refusalAfter (exec (.dispWrreg 0x00E5 0x8000) ready) = some .opaqueRegister
      ∧ faultAfter (exec (.dispWrreg 0x52 320) ready) = some (some (.panelValueRange 0 0x52 320), 14) := by
  decide

/-- DV2. -/
theorem test_dispSetwin :
    after (exec (.dispSetwin 10 20 12 21) ready)
        (fun t => ([t.hsa, t.hea, t.vsa, t.vea, t.panel.cx, t.panel.cy], t.panel.ir, t.trace.filterMap fun e =>
          match e with
          | .driveDb v => some v
          | _ => none))
      = some ([some 10, some 12, some 20, some 21, some 10, some 20], some 0x22,
          [0x50, 10, 0x51, 12, 0x52, 20, 0x53, 21, 0x20, 10, 0x21, 20, 0x22]) := by decide

/-- DV3 to DV6. -/
theorem test_dispSetwin_stops :
    faultAfter (exec (.dispSetwin 5 0 4 0) ready) = some (some (.windowInvalid 0 5 0 4 0), 0)
      ∧ faultAfter (exec (.dispSetwin 0 0 240 0) ready) = some (some (.windowInvalid 0 0 0 240 0), 0)
      ∧ faultAfter (exec (.dispSetwin 0 0 0 320) ready) = some (some (.windowInvalid 0 0 0 0 320), 0)
      ∧ faultAfter (exec (.dispSetwin (-1) 0 0 0) ready) = some (some (.windowInvalid 0 (-1) 0 0 0), 0) := by
  decide

/-- DV8, second write: the cursor wraps to the window's start. -/
theorem test_dispWrpix :
    after (exec (.dispWrpix 0x07E0) (windowed 0 0 1 0 1 0))
        (fun t => (t.panel.gramAt 1 0, t.panel.gramAt 0 0, t.panel.cx, t.panel.cy, t.events.length))
      = some (some 0x07E0, none, some 0, some 0, 7) := by decide

/-- DV11, DV15. -/
theorem test_dispWrpix_stops :
    faultAfter (exec (.dispWrpix 1) (indexed 0x50)) = some (some (.notInWriteMode 0 (some 0x50)), 0)
      ∧ faultAfter (exec (.dispWrpix 1) (windowed 0 0 3 3 7 0))
        = some (some (.pixelOutsideWindow 0 (some 0) (some 3) (some 0) (some 3) (some 7) (some 0)), 7) := by
  decide

/-- DV9, DV10: the order of the two AUTOINC settings, by the cells of four writes. -/
theorem test_autoinc :
    after (exec (.busWrdata 9) (windowed 0 0 1 1 0 0)) (fun t => (t.panel.cx, t.panel.cy)) = some (some 1, some 0)
      ∧ after (exec (.busWrdata 9)
          { windowed 0 0 1 1 0 0 with cfg := { Config.testConfig with autoInc := .yx } })
          (fun t => (t.panel.cx, t.panel.cy)) = some (some 0, some 1) := by decide

/-- R27, P6: DISP.FILL before DISP.INIT. -/
theorem test_dispFill_refused : refusalAfter (exec (.dispFill 0) start) = some .panelNotInitialised := by
  decide

/-- RV3, RV2. -/
theorem test_rastPixel :
    after (exec (.rastPixel 3 0 0xFFFF) ready)
        (fun t => (t.panel.gramAt 3 319, [t.hsa, t.hea, t.vsa, t.vea, t.panel.cx, t.panel.cy], t.events.length))
      = some (some 0xFFFF, [some 3, some 3, some 319, some 319, some 3, some 319], 98)
      ∧ after (exec (.rastPixel 239 319 7) ready) (fun t => t.panel.gramAt 239 0) = some (some 7) := by
  decide

/-- RV4, RV5. -/
theorem test_rastPixel_out :
    exec (.rastPixel (-1) 0 1) ready = .next ready ∧ exec (.rastPixel 240 0 1) ready = .next ready
      ∧ exec (.rastPixel 0 (-1) 1) ready = .next ready ∧ exec (.rastPixel 0 320 1) ready = .next ready
      ∧ exec (.rastPixel 32767 (-32768) 1) ready = .next ready := by
  refine ⟨?_, ?_, ?_, ?_, ?_⟩ <;> rfl

/-- LV1, LV2, LV7, LV10 to LV16. -/
theorem test_rastLine_points :
    linePoints 0 0 4 2 = [(0, 0), (1, 0), (2, 1), (3, 1), (4, 2)]
      ∧ linePoints 4 2 0 0 = [(0, 0), (1, 0), (2, 1), (3, 1), (4, 2)]
      ∧ linePoints 0 0 (-3) 3 = [(-3, 3), (-2, 2), (-1, 1), (0, 0)]
      ∧ linePoints 0 0 (-4) (-2) = [(-4, -2), (-3, -2), (-2, -1), (-1, -1), (0, 0)]
      ∧ linePoints 0 0 2 (-5) = [(2, -5), (2, -4), (1, -3), (1, -2), (0, -1), (0, 0)]
      ∧ linePoints 0 0 (-5) 1 = [(-5, 1), (-4, 1), (-3, 1), (-2, 0), (-1, 0), (0, 0)]
      ∧ linePoints 0 0 4 6 = [(0, 0), (1, 1), (1, 2), (2, 3), (3, 4), (3, 5), (4, 6)]
      ∧ linePoints 237 0 242 2 = [(237, 0), (238, 0), (239, 1), (240, 1), (241, 2), (242, 2)]
      ∧ linePoints (-2) (-2) 2 2 = [(-2, -2), (-1, -1), (0, 0), (1, 1), (2, 2)] := by decide

/-- LV8 drawn: (0,0) (1,0) (2,1). -/
theorem test_rastLine :
    after (exec (.rastLine 2 1 0 0 5) ready)
        (fun t => (t.panel.gramAt 0 319, t.panel.gramAt 1 319, t.panel.gramAt 2 318, t.panel.gramAt 2 319,
          t.events.length))
      = some (some 5, some 5, some 5, none, 294) := by decide +kernel

/-- BV3, BV4, BV5, BV1. -/
theorem test_rastBlock_points :
    blockPoints 10 10 2 = [(10, 10), (11, 10), (10, 11), (11, 11)] ∧ blockPoints 10 10 0 = []
      ∧ (dotsInBounds (blockDots 238 0 0x001F 3)).map (fun d => (d.x, d.y))
        = [(238, 0), (239, 0), (238, 1), (239, 1), (238, 2), (239, 2)] := by decide
theorem test_rastBlock :
    after (exec (.rastBlock (-1) (-1) 6 2) ready) (fun t => (t.panel.gramAt 0 319, t.events.length))
      = some (some 6, 98) := by decide

/-- TV1: the stroke of 'L' is in column 4, the foot in logical row 7. -/
theorem test_textChar_glyph :
    ((charDots Config.testConfig 0 0 1 0xFFFF 0 0x4C).filter (fun d => decide (d.color = 0xFFFF))).map
        (fun d => (d.x, d.y))
      = [(4, 0), (4, 1), (4, 2), (4, 3), (4, 4), (4, 5), (4, 6), (0, 7), (1, 7), (2, 7), (3, 7), (4, 7)]
      ∧ (charDots Config.testConfig 0 0 1 0xFFFF 0 0x4C).length = 40 := by decide

/-- TV5, TV6, TV8. -/
theorem test_textChar_status :
    exec (.textChar 0 0 1 1 0 0x1F) ready = .next { ready with status := 0x01 }
      ∧ exec (.textChar 0 0 1 1 0 0x80) ready = .next { ready with status := 0x01 }
      ∧ exec (.textChar 0 0 0 1 0 0x1F) ready = .next { ready with status := 0x01 } := by
  refine ⟨?_, ?_, ?_⟩ <;> rfl

/-- TV10, TV12, TV15: the characters drawn and their places. -/
theorem test_textString_places :
    (stringPlaces [0x41, 0x42, 0x00, 0x43]).map (fun p => (charX 10 p.1, p.2)) = [(10, 0x41), (16, 0x42)]
      ∧ stringPlaces [0x1F, 0x4C] = [] ∧ stringPlaces [0x7F, 0x80] = [(0, 0x7F)] := by decide

/-- TV12: the first byte terminates, STATUS unchanged. -/
theorem test_textString_terminates : exec (.textString 0 0 1 1 0 [0x1F, 0x4C]) ready = .next ready := by rfl

/-- TV16 to TV19. -/
theorem test_textStrrev_places :
    (reversedPlaces Config.testConfig [0x32, 0x31, 0x5F, 0x5F, 0x00]).map (fun p => (charX 0 p.1, p.2))
        = [(0, 0x31), (6, 0x32)]
      ∧ (reversedPlaces { Config.testConfig with sentinelAdvances := true } [0x32, 0x31, 0x5F, 0x5F, 0x00]).map
          (fun p => (charX 0 p.1, p.2)) = [(12, 0x31), (18, 0x32)]
      ∧ reversedPlaces Config.testConfig [0x5F, 0x5F, 0x5F, 0x5F] = []
      ∧ reversedPlaces Config.testConfig [0x4C, 0x00, 0x5F, 0x5F] = [(0, 0x4C)] := by decide

/-- TV18: nothing drawn. -/
theorem test_textStrrev : exec (.textStrrev 0 0 1 1 0 [0x5F, 0x5F]) ready = .next ready := by rfl

/-- SV2, SV3. -/
theorem test_statRd :
    after (exec .statRd { start with status := 0x01 }) (fun t => (t.returned, t.status))
      = some (some (.byte 0x01), 0x01) := by decide
theorem test_statClr : after (exec .statClr { start with status := 0x01 }) State.status = some 0x00 := by
  decide

/-- SV5: a faulted block runs nothing. -/
theorem test_faulted_stops :
    faultAfter (step { start with fault := some (.windowInvalid 0 5 0 4 0), pending := [.hostOp 0x51 []] })
      = some (some (.windowInvalid 0 5 0 4 0), 0) := by decide

/-- R151, R74: BUSCYC. -/
theorem test_buscycCmd :
    after (exec (.buscycCmd 0x22) start) (fun t => (t.panel.ir, t.lines.dRs, t.lines.dDb))
      = some (some 0x22, some 0, some 0x22) := by decide
theorem test_buscycData :
    after (exec (.buscycData 319) (indexed 0x21)) (fun t => (t.panel.cy, t.panel.regAt 0x21, t.lines.dRs))
      = some (some 319, some 319, some 1) := by decide

/-- T7, by the bare command byte. -/
theorem test_tcmdX :
    after (exec .tcmdX (selected (List.replicate 12 1))) (fun t => (t.returned, t.lines.tDin, t.k))
      = some (some (.raw 0xFFF), some 0, 0) := by decide

/-! ## States and operands that meet the hypotheses of the obligations -/

/-- A result that has a field has a next state. -/
theorem next_of_after {α : Type} {r : Result} {f : State → α} {v : α} (h : after r f = some v) :
    ∃ t, r = .next t ∧ f t = v := by
  cases r with
  | next t => exact ⟨t, rfl, Option.some.inj h⟩
  | fault e => exact absurd h (by simp [after])
  | refused e => exact absurd h (by simp [after])

/-- A running block that is presented a word. -/
def presented (p : Packet) : State := { start with pending := [p] }

theorem testConfig_valid : Config.testConfig.valid = true := by decide

theorem ready_drawReady : drawReady ready := ⟨testConfig_valid, rfl⟩

theorem presented_running (p : Packet) :
    (presented p).running ∧ (presented p).pending.head? = some p := ⟨⟨rfl, rfl⟩, rfl⟩

/-- The cursor on the last cell of the panel, at a window of that cell. -/
theorem lastCell_pixelReady :
    pixelReady (windowed 239 319 239 319 239 319)
      { hsa := 239, hea := 239, vsa := 319, vea := 319, cx := 239, cy := 319 } := by
  refine ⟨?_, ?_⟩ <;> decide

/-- No window at all. -/
theorem unset_pixelNotReady : pixelNotReady (indexed 0x22) := fun w h =>
  absurd ((by decide : (indexed 0x22).window = none).symm.trans h) (by simp)

/-- A cursor one column past the window. -/
theorem pastWindow_pixelNotReady : pixelNotReady (windowed 0 0 3 3 4 0) := fun w h => by
  have e : (windowed 0 0 3 3 4 0).window
      = some { hsa := 0, hea := 3, vsa := 0, vea := 3, cx := 4, cy := 0 } := by decide
  rw [← Option.some.inj (e.symm.trans h)]
  decide

theorem witness_DecodeOfEncode : (Instr.rastBlock (-32768) 32767 0xFFFF 255).wellFormed 16 = true
    ∧ (Instr.textString 0 0 0 0 0 [0xFF, 0x00]).wellFormed 16 = true := by decide

theorem witness_EncodeOfDecode :
    decode COORD_BITS_DEFAULT (.hostOp 0x30 [.num 32767, .num (-32768), .num 1]) = .ok (.rastPixel 32767 (-32768) 1) := by rfl

theorem witness_ReservedSelectorsAreIllegal :
    (0x00#8).toNat ∉ listedSelectors ∧ (0x09#8).toNat ∉ listedSelectors ∧ (0x52#8).toNat ∉ listedSelectors
      ∧ (0x51#8).toNat ∈ listedSelectors ∧ (presented (.hostOp 0x52 [])).running
      ∧ (presented (.hostOp 0x52 [])).pending.head? = some (.hostOp 0x52 []) :=
  ⟨by decide, by decide, by decide, by decide, presented_running _⟩

/-- Every type at its bounds: coord, scale, word, byte. -/
theorem witness_OperandsMustFitTheirTypes_fit :
    (0x40#8).toNat ∈ listedSelectors
      ∧ operandsFit 16 0x40
          [.num (-32768), .num 32767, .num 255, .num 65535, .num 0, .num 255] := by
  refine ⟨by decide, ?_⟩
  show List.Forall₂ (ofType 16) [.coord, .coord, .scale, .word, .word, .byte] _
  simp [ofType]

theorem witness_OperandsMustFitTheirTypes_other :
    (0x04#8).toNat ∈ listedSelectors ∧ ¬ operandsFit 16 0x04 [.num 2]
      ∧ (presented (.hostOp 0x04 [.num 2])).running ∧ (presented (.hostOp 0x04 [.num 2])).cfg.coordBits = 16
      ∧ (presented (.hostOp 0x04 [.num 2])).pending.head? = some (.hostOp 0x04 [.num 2]) := by
  refine ⟨by decide, ?_, (presented_running _).1, rfl, (presented_running _).2⟩
  show ¬ List.Forall₂ (ofType 16) [.lvl] _
  simp [ofType]

theorem witness_TouchCommandBytes :
    (0x91#8 ≠ 0x90#8 ∧ 0x91#8 ≠ 0xD0#8) ∧ (presented (.touchCommand 0x91)).running
      ∧ (presented (.touchCommand 0x91)).pending.head? = some (.touchCommand 0x91) :=
  ⟨by decide, presented_running _⟩

/-- A word whose operation completes, one whose operation faults and one whose operation is refused. -/
theorem witness_StepRunsDecodedInstruction :
    ((presented (.hostOp 0x50 [])).running ∧ (presented (.hostOp 0x50 [])).pending = [.hostOp 0x50 []]
        ∧ decode COORD_BITS_DEFAULT (.hostOp 0x50 []) = .ok .statRd ∧ ∃ t, exec .statRd (presented (.hostOp 0x50 [])) = .next t)
      ∧ (decode COORD_BITS_DEFAULT (.hostOp 0x12 []) = .ok .touchReadpos
        ∧ ∃ e, exec .touchReadpos (presented (.hostOp 0x12 [])) = .fault e)
      ∧ (decode COORD_BITS_DEFAULT (.hostOp 0x24 [.num 0]) = .ok (.dispFill 0)
        ∧ ∃ e, exec (.dispFill 0) (presented (.hostOp 0x24 [.num 0])) = .refused e)
      ∧ start.running ∧ start.pending = [] :=
  ⟨⟨⟨rfl, rfl⟩, rfl, rfl, _, rfl⟩, ⟨rfl, _, rfl⟩, ⟨rfl, _, rfl⟩, ⟨rfl, rfl⟩, rfl⟩

theorem witness_StoppedBlockTakesNoStep :
    (start.setFault (.touchClockState 0)).fault = some (.touchClockState 0)
      ∧ (start.setRefused .illegalOp).fault = none ∧ (start.setRefused .illegalOp).refused = some .illegalOp :=
  ⟨rfl, rfl, rfl⟩

/-- In GRAM write mode, with a window that holds the cursor: the data cycle completes. -/
theorem witness_PanelCommandSelectsRegister :
    (windowed 0 0 3 3 0 0).panel.ir = some (windowed 0 0 3 3 0 0).cfg.regGramWrite
      ∧ ∃ t, panelCycle false 1#1 7 (windowed 0 0 3 3 0 0) = .next t := by
  have h : after (panelCycle false 1#1 7 (windowed 0 0 3 3 0 0)) (fun t => t.panel.gramAt 0 0) = some (some 7) := by
    decide
  obtain ⟨t, ht, -⟩ := next_of_after h
  exact ⟨rfl, t, ht⟩

/-- HEA at 239, by the host, and the y cursor at 319, by the bare bus word. -/
theorem witness_DataCycleWritesRegister :
    (isDataCycle (.busWrdata 239) 239 ∧ (indexed 0x51).cfg.valid = true ∧ (indexed 0x51).panel.ir = some 0x51
        ∧ onPanelFor (indexed 0x51).cfg 0x51 239)
      ∧ (isDataCycle (.buscycData 319) 319 ∧ (indexed 0x21).cfg.valid = true ∧ (indexed 0x21).panel.ir = some 0x21
        ∧ onPanelFor (indexed 0x21).cfg 0x21 319) :=
  ⟨⟨.inl rfl, testConfig_valid, rfl, .inl ⟨.inr (.inl rfl), by decide⟩⟩,
    ⟨.inr rfl, testConfig_valid, rfl, .inr ⟨.inr (.inr rfl), by decide⟩⟩⟩

theorem witness_DataCycleWritesPixel :
    isDataCycle (.buscycData 7) 7
      ∧ (windowed 239 319 239 319 239 319).panel.ir
        = some (windowed 239 319 239 319 239 319).cfg.regGramWrite
      ∧ pixelReady (windowed 239 319 239 319 239 319)
        { hsa := 239, hea := 239, vsa := 319, vea := 319, cx := 239, cy := 319 } :=
  ⟨.inr rfl, rfl, lastCell_pixelReady⟩

/-- One for each clause: no index; 240 for an x and 320 for a y register; no window and a cursor past it; an opaque
index. -/
theorem witness_DataCycleStops :
    isDataCycle (.busWrdata 240) 240 ∧ start.panel.ir = none
      ∧ ((indexed 0x20).panel.ir = some 0x20 ∧ (indexed 0x20).cfg.valid = true
        ∧ offPanelFor (indexed 0x20).cfg 0x20 240)
      ∧ ((indexed 0x53).panel.ir = some 0x53 ∧ offPanelFor (indexed 0x53).cfg 0x53 320)
      ∧ ((indexed 0x22).panel.ir = some (indexed 0x22).cfg.regGramWrite ∧ pixelNotReady (indexed 0x22))
      ∧ ((windowed 0 0 3 3 4 0).panel.ir = some (windowed 0 0 3 3 4 0).cfg.regGramWrite
        ∧ pixelNotReady (windowed 0 0 3 3 4 0))
      ∧ ((indexed 0x1234).panel.ir = some 0x1234 ∧ 0x1234#16 ∉ (indexed 0x1234).cfg.knownRegs) :=
  ⟨.inl rfl, rfl, ⟨rfl, testConfig_valid, .inl ⟨.inr (.inr rfl), by decide⟩⟩,
    ⟨rfl, .inr ⟨.inr (.inl rfl), by decide⟩⟩, ⟨rfl, unset_pixelNotReady⟩, ⟨rfl, pastWindow_pixelNotReady⟩,
    rfl, by decide⟩

theorem witness_ReadChannelReturnsSampledBits : (0xD0#8 = 0x90#8 ∨ 0xD0#8 = 0xD0#8) ∧ touchReady (selected []) :=
  ⟨.inr rfl, rfl, rfl⟩

theorem witness_ReadChannelStops :
    (0x91#8 ≠ 0x90#8 ∧ 0x91#8 ≠ 0xD0#8) ∧ start.lines.tCs ≠ some 0#1
      ∧ ((drive .tCs 0 start).lines.tCs = some 0#1 ∧ (drive .tCs 0 start).lines.tClk ≠ some 0#1)
      ∧ ((drive .tClk 1 (selected [])).lines.tCs = some 0#1
        ∧ (drive .tClk 1 (selected [])).lines.tClk ≠ some 0#1) :=
  ⟨by decide, by decide, ⟨rfl, by decide⟩, rfl, by decide⟩

theorem witness_TouchCommandByteConverts :
    ((Instr.tcmdX = .tcmdY ∧ 0xD0#8 = 0x90#8) ∨ (Instr.tcmdX = .tcmdX ∧ 0xD0#8 = 0xD0#8))
      ∧ touchReady (selected []) ∧ start.lines.tCs ≠ some 0#1
      ∧ ((drive .tCs 0 start).lines.tCs = some 0#1 ∧ (drive .tCs 0 start).lines.tClk ≠ some 0#1) :=
  ⟨.inr ⟨rfl, rfl⟩, ⟨rfl, rfl⟩, by decide, rfl, by decide⟩

theorem witness_ReadPositionReturnsBothChannels :
    (selected []).lines.tClk = some 0#1 ∧ start.lines.tClk ≠ some 0#1
      ∧ (drive .tClk 1 start).lines.tClk ≠ some 0#1 := ⟨rfl, by decide, by decide⟩

theorem witness_CalibrationMapsRawToScreen :
    (start.cfg.calX = .linear 200 15 ∧ (15 : Int) ≠ 0) ∧ (start.cfg.calY = .linear 300 11 ∧ (11 : Int) ≠ 0)
      ∧ ((Calibration.table (List.replicate 4096 7)) = .table (List.replicate 4096 7)
        ∧ (List.replicate 4096 (7 : Int)).length = 4096) :=
  ⟨⟨rfl, by decide⟩, ⟨rfl, by decide⟩, rfl, List.length_replicate⟩

/-- An opaque register and an x register at its bound. -/
theorem acceptable_pairs :
    acceptable Config.testConfig (0x00E5, 0x8000) ∧ acceptable Config.testConfig (0x51, 239) := by
  unfold acceptable offPanelFor isXReg isYReg
  decide

theorem witness_InitSendsSequence :
    (withInitSeq [(0x00E5, 0x8000), (0x51, 239)] start).cfg.valid = true
      ∧ ∀ p ∈ (withInitSeq [(0x00E5, 0x8000), (0x51, 239)] start).cfg.initSeq,
          acceptable (withInitSeq [(0x00E5, 0x8000), (0x51, 239)] start).cfg p := by
  refine ⟨by decide, ?_⟩
  intro p hp
  have hp' : p = (0x00E5, 0x8000) ∨ p = (0x51, 239) := by simpa [withInitSeq] using hp
  rcases hp' with rfl | rfl
  · exact acceptable_pairs.1
  · exact acceptable_pairs.2

/-- The six writes that leave a window and a cursor, as a sequence. -/
def windowPairs (cx : Word) : List (Word × Word) :=
  [(0x50, 0), (0x51, 3), (0x52, 0), (0x53, 3), (0x20, cx), (0x21, 0)]

/-- One for each clause: an opaque pair, a pixel inside the window, 240 for an x register, a pixel outside the window
and one without a window. -/
theorem witness_InitSendsEachPairInOrder :
    start.cfg.valid = true
      ∧ (∃ u, exec .dispInit (withInitSeq [] start) = .next u ∧ pixelNotReady u)
      ∧ acceptable start.cfg (0x00E5, 0x8000) ∧ offPanelFor start.cfg 0x20 240
      ∧ (∃ u w, exec .dispInit (withInitSeq (windowPairs 3) start) = .next u ∧ pixelReady u w)
      ∧ (∃ u, exec .dispInit (withInitSeq (windowPairs 4) start) = .next u ∧ pixelNotReady u) := by
  have h0 : after (exec .dispInit (withInitSeq [] start)) State.window = some none := by decide
  have h3 : after (exec .dispInit (withInitSeq (windowPairs 3) start)) State.window
      = some (some { hsa := 0, hea := 3, vsa := 0, vea := 3, cx := 3, cy := 0 }) := by decide
  have h4 : after (exec .dispInit (withInitSeq (windowPairs 4) start)) State.window
      = some (some { hsa := 0, hea := 3, vsa := 0, vea := 3, cx := 4, cy := 0 }) := by decide
  obtain ⟨u0, e0, w0⟩ := next_of_after h0
  obtain ⟨u3, e3, w3⟩ := next_of_after h3
  obtain ⟨u4, e4, w4⟩ := next_of_after h4
  refine ⟨testConfig_valid, ⟨u0, e0, fun w h => ?_⟩, acceptable_pairs.1, .inl ⟨.inr (.inr rfl), by decide⟩,
    ⟨u3, _, e3, w3, by decide⟩, ⟨u4, e4, fun w h => ?_⟩⟩
  · exact absurd (w0.symm.trans h) (by simp)
  · rw [← Option.some.inj (w4.symm.trans h)]
    decide

/-- HEA at 239, VEA at 319, and each cursor register at 0. -/
theorem witness_WriteRegisterWritesKnownRegister :
    drawReady ready ∧ onPanelFor ready.cfg 0x51 239 ∧ onPanelFor ready.cfg 0x53 319 ∧ onPanelFor ready.cfg 0x20 0
      ∧ onPanelFor ready.cfg 0x21 0 :=
  ⟨ready_drawReady, .inl ⟨.inr (.inl rfl), by decide⟩, .inr ⟨.inr (.inl rfl), by decide⟩,
    .inl ⟨.inr (.inr rfl), by decide⟩, .inr ⟨.inr (.inr rfl), by decide⟩⟩

theorem witness_WriteRegisterWritesPixel :
    drawReady (windowed 239 319 239 319 239 319)
      ∧ pixelReady (windowed 239 319 239 319 239 319)
        { hsa := 239, hea := 239, vsa := 319, vea := 319, cx := 239, cy := 319 } :=
  ⟨⟨testConfig_valid, rfl⟩, lastCell_pixelReady⟩

theorem witness_WriteRegisterStops :
    ready.initDone = true ∧ 0x00E5#16 ∉ ready.cfg.knownRegs
      ∧ (ready.cfg.valid = true ∧ offPanelFor ready.cfg 0x52 320 ∧ offPanelFor ready.cfg 0x50 240)
      ∧ (0x22#16 = ready.cfg.regGramWrite ∧ (indexed 0x22).initDone = true ∧ pixelNotReady (indexed 0x22)) :=
  ⟨rfl, by decide, ⟨testConfig_valid, .inr ⟨.inl rfl, by decide⟩, .inl ⟨.inl rfl, by decide⟩⟩, rfl, rfl,
    unset_pixelNotReady⟩

theorem witness_SetWindowProgramsWindow :
    drawReady ready ∧ ((0 : Nat) ≤ 239 ∧ 239 ≤ 239 ∧ (0 : Nat) ≤ 319 ∧ 319 ≤ 319)
      ∧ ((239 : Nat) ≤ 239 ∧ 239 ≤ 239 ∧ (319 : Nat) ≤ 319 ∧ 319 ≤ 319) :=
  ⟨ready_drawReady, by decide, by decide⟩

/-- DV3 to DV6. -/
theorem witness_SetWindowRejectsInvalidWindow :
    ready.initDone = true
      ∧ ¬ ((0 : Int) ≤ 5 ∧ (5 : Int) ≤ 4 ∧ (4 : Int) ≤ 239 ∧ (0 : Int) ≤ 0 ∧ (0 : Int) ≤ 0 ∧ (0 : Int) ≤ 319)
      ∧ ¬ ((0 : Int) ≤ 0 ∧ (0 : Int) ≤ 240 ∧ (240 : Int) ≤ 239 ∧ (0 : Int) ≤ 0 ∧ (0 : Int) ≤ 0 ∧ (0 : Int) ≤ 319)
      ∧ ¬ ((0 : Int) ≤ 0 ∧ (0 : Int) ≤ 0 ∧ (0 : Int) ≤ 239 ∧ (0 : Int) ≤ 0 ∧ (0 : Int) ≤ 320 ∧ (320 : Int) ≤ 319)
      ∧ ¬ ((0 : Int) ≤ -1 ∧ (-1 : Int) ≤ 0 ∧ (0 : Int) ≤ 239 ∧ (0 : Int) ≤ 0 ∧ (0 : Int) ≤ 0 ∧ (0 : Int) ≤ 319) := by
  refine ⟨rfl, ?_, ?_, ?_, ?_⟩ <;> decide

theorem witness_WritePixelWritesAtCursor :
    ((windowed 239 319 239 319 239 319).initDone = true
        ∧ (windowed 239 319 239 319 239 319).panel.ir = some (windowed 239 319 239 319 239 319).cfg.regGramWrite
        ∧ pixelReady (windowed 239 319 239 319 239 319)
          { hsa := 239, hea := 239, vsa := 319, vea := 319, cx := 239, cy := 319 })
      ∧ (ready.initDone = true ∧ ready.panel.ir ≠ some ready.cfg.regGramWrite)
      ∧ ((indexed 0x50).initDone = true ∧ (indexed 0x50).panel.ir ≠ some (indexed 0x50).cfg.regGramWrite)
      ∧ ((windowed 0 0 3 3 4 0).initDone = true
        ∧ (windowed 0 0 3 3 4 0).panel.ir = some (windowed 0 0 3 3 4 0).cfg.regGramWrite
        ∧ pixelNotReady (windowed 0 0 3 3 4 0)) :=
  ⟨⟨rfl, rfl, lastCell_pixelReady⟩, ⟨rfl, by decide⟩, ⟨rfl, by decide⟩, rfl, rfl, pastWindow_pixelNotReady⟩

/-- A window of two columns and three rows at the panel's last corner, the cursor at its start. -/
theorem witness_PixelSweepFillsWindow :
    (windowed 238 317 239 319 238 317).panel.ir = some (windowed 238 317 239 319 238 317).cfg.regGramWrite
      ∧ pixelReady (windowed 238 317 239 319 238 317)
        { hsa := 238, hea := 239, vsa := 317, vea := 319, cx := 238, cy := 317 } := by
  refine ⟨rfl, ?_, ?_⟩ <;> decide

theorem witness_FillPaintsWholePanel : drawReady ready := ready_drawReady

theorem witness_DrawingNeedsInit :
    needsInit (.dispFill 0) = true ∧ start.initDone = false ∧ needsInit .dispInit = false := ⟨rfl, rfl, rfl⟩

theorem witness_PixelInBoundsWritesOneCell : drawReady ready ∧ (239 : Nat) ≤ 239 ∧ (319 : Nat) ≤ 319 :=
  ⟨ready_drawReady, by decide, by decide⟩

theorem witness_PixelOutOfBoundsDoesNothing :
    ready.initDone = true ∧ ¬ ((0 : Int) ≤ 240 ∧ (240 : Int) ≤ 239 ∧ (0 : Int) ≤ 0 ∧ (0 : Int) ≤ 319)
      ∧ ¬ ((0 : Int) ≤ 0 ∧ (0 : Int) ≤ 239 ∧ (0 : Int) ≤ 320 ∧ (320 : Int) ≤ 319)
      ∧ ¬ ((0 : Int) ≤ -1 ∧ (-1 : Int) ≤ 239 ∧ (0 : Int) ≤ 0 ∧ (0 : Int) ≤ 319) := by
  refine ⟨rfl, ?_, ?_, ?_⟩ <;> decide

theorem witness_LineDrawsItsPoints : drawReady ready := ready_drawReady

/-- A flat line and a diagonal: the two ends of the range of |y2 − y1|. -/
theorem witness_XMajorLineClosedForm :
    ((0 : Int) < 4 ∧ |(2 : Int) - 2| ≤ 4 - 0) ∧ ((0 : Int) < 4 ∧ |(-4 : Int) - 0| ≤ 4 - 0) := by decide

/-- A vertical line and the steepest y-major one short of the diagonal. -/
theorem witness_YMajorLineClosedForm :
    ((0 : Int) < 4 ∧ |(2 : Int) - 2| < 4 - 0) ∧ ((0 : Int) < 4 ∧ |(-3 : Int) - 0| < 4 - 0) := by decide

theorem witness_BlockFillsSquare : drawReady ready := ready_drawReady

/-- The first and the last character of the font, the last column. -/
theorem witness_GlyphBitsComeFromFont :
    Config.testConfig.valid = true
      ∧ (0x20 ≤ (0x20#8).toNat ∧ (0x20#8).toNat - 0x20 < Config.testConfig.fontCount)
      ∧ (0x20 ≤ (0x7F#8).toNat ∧ (0x7F#8).toNat - 0x20 < Config.testConfig.fontCount) ∧ (4 : Nat) ≤ 4 :=
  ⟨testConfig_valid, by decide, by decide, by decide⟩

/-- TV1: the block of column 4 and glyph row 7 is cell (4, 312); cell (5, 319) is outside the glyph. -/
theorem witness_CharacterDrawsGlyph :
    drawReady ready ∧ 0x20 ≤ (0x4C#8).toNat ∧ (0x4C#8).toNat - 0x20 < ready.cfg.fontCount
      ∧ (4 < WIDTH ∧ 312 < HEIGHT ∧ 4 ≤ 4 ∧ 7 ≤ 7
        ∧ (0 : Int) + ((4 : Nat) : Int) * ((1 : Nat) : Int) ≤ ((4 : Nat) : Int)
        ∧ ((4 : Nat) : Int) < 0 + (((4 : Nat) : Int) + 1) * ((1 : Nat) : Int)
        ∧ (0 : Int) + ((7 : Nat) : Int) * ((1 : Nat) : Int) ≤ 319 - ((312 : Nat) : Int)
        ∧ 319 - ((312 : Nat) : Int) < 0 + (((7 : Nat) : Int) + 1) * ((1 : Nat) : Int))
      ∧ ¬ ((0 : Int) ≤ ((5 : Nat) : Int) ∧ ((5 : Nat) : Int) < 0 + 5 * ((1 : Nat) : Int)
        ∧ (0 : Int) ≤ 319 - ((319 : Nat) : Int) ∧ 319 - ((319 : Nat) : Int) < 0 + 8 * ((1 : Nat) : Int)) :=
  ⟨ready_drawReady, by decide, by decide, by decide, by decide⟩

theorem witness_CharacterOutsideFontSetsStatus :
    ready.initDone = true ∧ ((0x1F#8).toNat < 0x20 ∨ ready.cfg.fontCount ≤ (0x1F#8).toNat - 0x20)
      ∧ ((0x80#8).toNat < 0x20 ∨ ready.cfg.fontCount ≤ (0x80#8).toNat - 0x20) := ⟨rfl, by decide, by decide⟩

theorem witness_StringDrawsPrintablePrefix : drawReady ready := ready_drawReady

theorem witness_ReversedStringSkipsSentinel : drawReady ready := ready_drawReady

/-- TV13: column 5 after the first 'L'. -/
theorem witness_StringLeavesGapColumn :
    drawReady ready ∧ (∃ t, exec (.textString 0 0 1 0xFFFF 0 [0x4C, 0x4C]) ready = .next t)
      ∧ 5 < WIDTH ∧ 319 < HEIGHT ∧ ((5 : Nat) : Int) = 0 + 6 * ((0 : Nat) : Int) + 5 := by
  have h : after (exec (.textString 0 0 1 0xFFFF 0 [0x4C, 0x4C]) ready) State.fault = some none := by
    decide +kernel
  obtain ⟨t, ht, -⟩ := next_of_after h
  exact ⟨ready_drawReady, ⟨t, ht⟩, by decide, by decide, by decide⟩

theorem witness_StatusReadsAndClears : ({ start with status := 0x01 } : State).status &&& 0xFE#8 = 0#8 := by decide

/-- A state with the invariant whose step completes. -/
theorem witness_InvariantIsKeptByEveryStep :
    (presented (.hostOp 0x01 [.num 0x20])).Inv
      ∧ ∃ t, step (presented (.hostOp 0x01 [.num 0x20])) = .next t := by
  have h : after (step (presented (.hostOp 0x01 [.num 0x20]))) State.k = some 1 := by decide
  obtain ⟨t, ht, -⟩ := next_of_after h
  exact ⟨⟨testConfig_valid, rfl, rfl, fun n h => absurd h (by simp [presented, start, State.blank, Panel.unset,
      State.hsa, Panel.regAt, Memory.read]), fun n h => absurd h (by simp [presented, start, State.blank, Panel.unset,
      State.hea, Panel.regAt, Memory.read]), fun n h => absurd h (by simp [presented, start, State.blank, Panel.unset,
      State.vsa, Panel.regAt, Memory.read]), fun n h => absurd h (by simp [presented, start, State.blank, Panel.unset,
      State.vea, Panel.regAt, Memory.read]), fun n h => absurd h (by simp [presented, start, State.blank,
      Panel.unset]), fun n h => absurd h (by simp [presented, start, State.blank, Panel.unset]), rfl⟩, t, ht⟩

theorem witness_InvalidConfigurationNeverRuns :
    Config.testConfig.valid = true
      ∧ { Config.testConfig with regHea := 0x50 }.valid = false
      ∧ { Config.testConfig with calX := .linear 0 0 }.valid = false
      ∧ { Config.testConfig with fontCount := 0, font := [] }.valid = false := by decide

theorem witness_OperationsLeaveControlAlone : ∃ t, exec .statClr start = .next t := ⟨_, rfl⟩

theorem witness_EventsOnlyGrowAndNeverReadThePanel :
    ∃ t, step (presented (.hostOp 0x01 [.num 0x20])) = .next t := witness_InvariantIsKeptByEveryStep.2

theorem witness_OperationsReachTheirOwnLines :
    (noDisplayCycle .touchStart = true ∧ ∃ t, exec .touchStart start = .next t)
      ∧ (noDisplayCycle (.rastPixel (-1) 0 0) = false ∧ ∃ t, exec (.rastPixel (-1) 0 0) ready = .next t) :=
  ⟨⟨rfl, _, rfl⟩, rfl, _, rfl⟩

theorem witness_OnlyTextSetsStatusOnlyInitSetsInitDone :
    (isText (.textChar 0 0 1 1 0 0x1F) = true ∧ ∃ t, exec (.textChar 0 0 1 1 0 0x1F) ready = .next t)
      ∧ (isText .statClr = false ∧ ∃ t, exec .statClr ready = .next t) :=
  ⟨⟨rfl, _, rfl⟩, rfl, _, rfl⟩

theorem witness_FaultsKeepEarlierEvents : ∃ e, exec .touchReadpos start = .fault e := ⟨_, rfl⟩

/-- An operation of display cycles and one of touch clocks. -/
theorem witness_EventCounts :
    (∃ t, exec (.busWrcmd 0x20) start = .next t) ∧ ∃ t, exec (.touchReadch 0xD0) (selected []) = .next t := by
  have h : after (exec (.busWrcmd 0x20) start) State.k = some 0 := by decide
  have h' : after (exec (.touchReadch 0xD0) (selected [])) State.k = some 0 := by decide
  obtain ⟨t, ht, -⟩ := next_of_after h
  obtain ⟨t', ht', -⟩ := next_of_after h'
  exact ⟨⟨t, ht⟩, t', ht'⟩

theorem witness_RefusalsChangeNothing : ∃ e, exec (.dispFill 0) start = .refused e := ⟨_, rfl⟩

end Sys2Proof.Machine.Tests
end

section
/-! PROOF. What a step answers, by the five cases of `step`, and which configurations power-on accepts (00_scope.md R8,
R11, 10_state.md R22, 60_exceptions.md R220). -/

namespace Sys2Proof.Machine

/-! ### The step, case by case -/

/-- 10_state.md R22, R32: the control state is left to the step around the operation. -/
theorem exec_next_sameControl {i : Instr} {s t : State} (h : exec i s = .next t) : sameControl s t := by
  refine exec_next_lift sameControl_refl sameControl_trans ?_ ?_ ?_ ?_ h
  · exact fun hm => hm.sameButText.1
  · exact fun hm => hm.sameButTouch.1
  · exact fun s => ⟨rfl, rfl, rfl, rfl, rfl⟩
  · exact fun s => ⟨rfl, rfl, rfl, rfl, rfl⟩

theorem step_of_fault {s : State} {r : FaultRecord} (hf : s.fault = some r) : step s = .fault (Fault.of r s) := by
  simp only [step, hf]

theorem step_of_refused {s : State} {r : RefusalReason} (hf : s.fault = none) (hr : s.refused = some r) :
    step s = .refused (Refusal.of r s) := by
  simp only [step, hf, hr]

theorem step_of_pending_nil {s : State} (hrun : s.running) (hp : s.pending = []) : step s = .next s := by
  obtain ⟨hf, hr⟩ := hrun
  simp only [step, hf, hr, hp]

theorem step_of_decode_error {s : State} {p : Packet} {rest : List Packet} {e : DecodeError} (hrun : s.running)
    (hp : s.pending = p :: rest) (hd : decode s.cfg.coordBits p = .error e) : step s = refuse (reasonOf e) s := by
  obtain ⟨hf, hr⟩ := hrun
  simp only [step, hf, hr, hp, hd]

theorem step_of_decode_ok {s : State} {p : Packet} {rest : List Packet} {i : Instr} (hrun : s.running)
    (hp : s.pending = p :: rest) (hd : decode s.cfg.coordBits p = .ok i) : step s = finish p (exec i s) := by
  obtain ⟨hf, hr⟩ := hrun
  simp only [step, hf, hr, hp, hd]

/-- Retiring the word an operation ran under, from the state it was presented in: the operation has moved neither the
words presented nor k. -/
theorem retire_of_exec_next {i : Instr} {s t : State} {p : Packet} {rest : List Packet} (hp : s.pending = p :: rest)
    (h : exec i s = .next t) :
    retire p t = { t with pending := rest, k := if p.isHostOp then s.k + 1 else s.k } := by
  obtain ⟨-, hpending, hk, -, -⟩ := exec_next_sameControl h
  simp only [retire, hpending, hk, hp, List.tail_cons]

/-- Settles O8: a step on a decoded word is `finish` of what exec answers, and exec leaves the words presented and k
as the step found them. -/
theorem stepRunsDecodedInstruction : Obligations.StepRunsDecodedInstruction := by
  refine ⟨fun s p rest i hrun hp hd => ?_, fun s hrun hp => step_of_pending_nil hrun hp⟩
  have hstep : step s = finish p (exec i s) := step_of_decode_ok hrun hp hd
  refine ⟨fun t h => ?_, fun e h => ?_, fun e h => ?_⟩
  · rw [hstep, h, finish, retire_of_exec_next hp h]
  · rw [hstep, h, finish]
  · rw [hstep, h, finish]

/-! ### Configurations and power-on -/

theorem Config.calibrationValid_iff (cal : Calibration) :
    Config.calibrationValid cal = true ↔
      (∀ off scale, cal = .linear off scale → scale ≠ 0) ∧ ∀ vs, cal = .table vs → vs.length = 4096 := by
  cases cal with
  | linear off scale => simp [Config.calibrationValid]
  | table vs => simp [Config.calibrationValid]

/-- 00_scope.md R11, with the lengths that R10 gives FONT and a table calibration (log 3). -/
theorem Config.valid_iff (c : Config) :
    c.valid = true ↔
      c.knownRegs.Nodup ∧ (∀ entry ∈ c.font, entry.length = GLYPH_COLS) ∧ c.font.length = c.fontCount
        ∧ 1 ≤ c.fontCount ∧ Config.calibrationValid c.calX = true ∧ Config.calibrationValid c.calY = true := by
  simp only [Config.valid, Bool.and_eq_true, decide_eq_true_eq, List.all_eq_true, and_assoc]

theorem State.powerOn_of_valid {c : Config} (h : c.valid = true) : State.powerOn c = State.blank c := if_pos h

theorem State.powerOn_of_invalid {c : Config} (h : c.valid = false) :
    State.powerOn c = (State.blank c).setRefused .configInvalid := if_neg (by simp [h])

/-- Settles O53: R11 read off the check clause by clause; an invalid configuration leaves power-on in a refused state,
from which no step runs whatever is presented; a valid one gives the blank state that reset is too. -/
theorem invalidConfigurationNeverRuns : Obligations.InvalidConfigurationNeverRuns := by
  intro c
  refine ⟨?_, fun h => ?_, fun h => ?_⟩
  · rw [Config.valid_iff, Config.calibrationValid_iff, Config.calibrationValid_iff]
    constructor
    · rintro ⟨hregs, hfont, hlen, hcount, ⟨hxs, hxt⟩, hys, hyt⟩
      exact ⟨hregs, hfont, hlen, hcount, hxs, hys, hxt, hyt⟩
    · rintro ⟨hregs, hfont, hlen, hcount, hxs, hys, hxt, hyt⟩
      exact ⟨hregs, hfont, hlen, hcount, ⟨hxs, hxt⟩, hys, hyt⟩
  · rw [State.powerOn_of_invalid h]
    exact ⟨rfl, fun ps => step_of_refused (r := .configInvalid) rfl rfl⟩
  · exact State.powerOn_of_valid h

end Sys2Proof.Machine
end

section
/-! PROOF. What an operation can have done when it completes or is refused, read off `ExecShape`, and the frames that
follow: the control state, STATUS, S.initDone and S.events (10_state.md R22, R25 to R28, 60_exceptions.md R222). -/

namespace Sys2Proof.Machine

/-! ### Operations that complete -/

/-- What an operation has done when it completes: the moves of its side, and DISP.INIT and STAT.CLR what they are. -/
inductive ExecNext (i : Instr) (s : State) : State → Prop where
  | touch {t : State} (hi : noDisplayCycle i = true) (ht : isText i = false) (hc : i ≠ .statClr) (hd : i ≠ .dispInit)
      (h : Moves TouchMove s t) : ExecNext i s t
  | clear (hi : i = .statClr) : ExecNext i s (clearStatus s)
  | display {t : State} (hi : noDisplayCycle i = false) (ht : isText i = false) (hc : i ≠ .statClr)
      (hd : i ≠ .dispInit) (h : Moves DisplayMove s t) : ExecNext i s t
  | text {t : State} (hi : noDisplayCycle i = false) (ht : isText i = true) (h : Moves TextMove s t) : ExecNext i s t
  | init {t : State} (hi : i = .dispInit) (h : Moves DisplayMove s t) : ExecNext i s (t.setInitDone true)

theorem ExecShape.execNext {i : Instr} {s t : State} {r : Result} (h : ExecShape i s r) (hr : r = .next t) :
    ExecNext i s t := by
  cases h with
  | refused q _ => exact absurd hr (refuse_ne_next q s t)
  | beforeInit _ _ => exact absurd hr (refuse_ne_next _ s t)
  | touch hi ht hc hd hw =>
    rcases hw with ⟨u, hm, hu⟩ | ⟨f, hf⟩
    · obtain rfl : u = t := by simpa using hu.symm.trans hr
      exact .touch hi ht hc hd hm
    · exact absurd (hf.symm.trans hr) (raise_ne_next f s t)
  | clear hi =>
    obtain rfl : clearStatus s = t := by simpa using hr
    exact .clear hi
  | display hi ht hc hd hw =>
    subst hr
    exact .display hi ht hc hd hw
  | text hi ht hw =>
    subst hr
    exact .text hi ht hw
  | init hi =>
    obtain ⟨u, hu, hn⟩ := andThen_eq_next hr
    have hw := sendInit_works s.cfg.initSeq s
    rw [hu] at hw
    obtain rfl : u.setInitDone true = t := by simpa using hn
    exact .init hi hw

theorem exec_eq_next {i : Instr} {s t : State} (h : exec i s = .next t) : ExecNext i s t := (exec_shape i s).execNext h

/-- Settles O54: no move of either side touches the control state (`exec_next_sameControl`). -/
theorem operationsLeaveControlAlone : Obligations.OperationsLeaveControlAlone := fun _ _ _ h => exec_next_sameControl h

/-- Settles O57: the touch and the display side leave STATUS and S.initDone, the text moves may set bit 0 of STATUS, and
STAT.CLR and DISP.INIT are the two operations left. -/
theorem onlyTextSetsStatusOnlyInitSetsInitDone : Obligations.OnlyTextSetsStatusOnlyInitSetsInitDone := by
  intro i s t h
  cases exec_eq_next h with
  | touch _ ht hc hd hm =>
    obtain ⟨-, -, -, hstatus, hinit⟩ := TouchMoves.sameButTouch hm
    simp [ht, hc, hd, hstatus, hinit]
  | clear hi =>
    subst hi
    simp [isText]
  | display _ ht hc hd hm =>
    obtain ⟨-, hstatus, hinit, -⟩ := DisplayMoves.sameButDisplay hm
    simp [ht, hc, hd, hstatus, hinit]
  | text _ ht hm =>
    obtain ⟨-, hinit, -, -, -, hstatus⟩ := TextMoves.sameButText hm
    have hd : i ≠ .dispInit := by
      rintro rfl
      simp [isText] at ht
    simp [ht, hd, hstatus, hinit]
  | init hi hm =>
    obtain ⟨-, hstatus, -⟩ := DisplayMoves.sameButDisplay hm
    subst hi
    simp [isText, hstatus]

/-- 20_memory.md R51: nothing pulses the read strobe while an operation runs. -/
theorem exec_next_growsQuietly {i : Instr} {s t : State} (h : exec i s = .next t) : growsQuietly s t :=
  exec_next_lift growsQuietly_refl growsQuietly_trans TextMove.growsQuietly TouchMove.growsQuietly growsQuietly_refl
    growsQuietly_refl h

theorem retire_growsQuietly (p : Packet) (s : State) : growsQuietly s (retire p s) := growsQuietly_refl s

/-- Settles O55: a block that waits emits nothing, one that runs a word emits what the operation does, and retiring the
word emits nothing. -/
theorem eventsOnlyGrowAndNeverReadThePanel : Obligations.EventsOnlyGrowAndNeverReadThePanel := by
  intro s t h
  rcases step_eq_next h with ⟨-, -, rfl⟩ | ⟨p, -, i, u, -, -, -, hu, rfl⟩
  · exact growsQuietly_refl t
  · exact growsQuietly_trans (exec_next_growsQuietly hu) (retire_growsQuietly p u)

/-! ### Operations that are refused -/

theorem Works.ne_refused {M : State → State → Prop} {s : State} {e : Refusal} {r : Result} (h : Works M s r) :
    r ≠ .refused e := by
  rintro rfl
  exact h

theorem TouchWorks.ne_refused {s : State} {e : Refusal} {r : Result} (h : TouchWorks s r) : r ≠ .refused e := by
  rcases h with ⟨t, -, rfl⟩ | ⟨f, rfl⟩
  · simp
  · simp [Machine.raise]

theorem ExecShape.refusal {i : Instr} {s : State} {e : Refusal} {r : Result} (h : ExecShape i s r)
    (hr : r = .refused e) :
    ∃ q, e = Refusal.of q (s.setRefused q) ∧ (q = .panelNotInitialised → needsInit i = true ∧ s.initDone = false) := by
  cases h with
  | refused q hq => exact ⟨q, by simpa [refuse] using hr.symm, fun h => absurd h hq⟩
  | beforeInit hi hd => exact ⟨.panelNotInitialised, by simpa [refuse] using hr.symm, fun _ => ⟨hi, hd⟩⟩
  | touch _ _ _ _ hw => exact absurd hr hw.ne_refused
  | clear _ => simp at hr
  | display _ _ _ _ hw => exact absurd hr hw.ne_refused
  | text _ _ hw => exact absurd hr hw.ne_refused
  | init _ =>
    have hw : Works DisplayMove s (sendInit s.cfg.initSeq s) := sendInit_works _ s
    cases hs : sendInit s.cfg.initSeq s with
    | next u => simp [hs] at hr
    | fault f => simp [hs] at hr
    | refused f => exact absurd hs hw.ne_refused

/-- 60_exceptions.md R220: a refusal leaves the state as it was with S.refused set; PanelNotInitialised is only for the
operations that need DISP.INIT, before it (10_state.md R27). -/
theorem exec_eq_refused {i : Instr} {s : State} {e : Refusal} (h : exec i s = .refused e) :
    ∃ q, e = Refusal.of q (s.setRefused q) ∧ (q = .panelNotInitialised → needsInit i = true ∧ s.initDone = false) :=
  (exec_shape i s).refusal h

theorem Refusal.of_eq_panelNotInitialised {q : RefusalReason} {s t : State}
    (h : Refusal.of q s = .panelNotInitialised t) : q = .panelNotInitialised := by
  cases q <;> simp [Refusal.of] at h ⊢

/-- The operations of 10_state.md R27 are those behind the check for DISP.INIT. -/
theorem exec_eq_whenInitialised {i : Instr} (h : needsInit i = true) :
    ∃ op, ∀ s, exec i s = whenInitialised op s := by
  cases i <;> simp only [needsInit, reduceCtorEq] at h <;> exact ⟨_, fun _ => rfl⟩

theorem whenInitialised_before {op : State → Result} {s : State} (h : s.initDone = false) :
    whenInitialised op s = refuse .panelNotInitialised s := by
  simp [whenInitialised, h]

/-- Settles O34: the operations that need DISP.INIT meet its check before anything else, and every refusal
PanelNotInitialised comes from that check. -/
theorem drawingNeedsInit : Obligations.DrawingNeedsInit := by
  refine fun i s => ⟨fun hi hd => ?_, fun hi t h => ?_⟩
  · obtain ⟨op, hop⟩ := exec_eq_whenInitialised hi
    rw [hop, whenInitialised_before hd]
    rfl
  · obtain ⟨q, he, hq⟩ := exec_eq_refused h
    have hneeds := (hq (Refusal.of_eq_panelNotInitialised he.symm)).1
    simp [hi] at hneeds

end Sys2Proof.Machine
end

section
/-! PROOF. The invariant of the block's data: each write of the panel keeps it, so every move, every operation and every
step does (10_state.md R25, R29, R30, 42_display.md R153 to R156). -/

namespace Sys2Proof.Machine

/-! ### The writes -/

/-- The invariant speaks of the configuration, the panel and STATUS only. -/
theorem State.Inv.congr {s t : State} (h : s.Inv) (hc : t.cfg = s.cfg) (hp : t.panel = s.panel)
    (hs : t.status &&& 0xFE#8 = 0#8) : t.Inv := by
  obtain ⟨hv, hreg, hgram, hhsa, hhea, hvsa, hvea, hcx, hcy, -⟩ := h
  constructor <;> simpa only [State.hsa, State.hea, State.vsa, State.vea, hc, hp]

theorem belowOrUnset_some {bound n : Nat} : belowOrUnset bound (some n) ↔ n < bound := by
  simp [belowOrUnset]

/-- A register view after a register write is on the panel when it was and the value is, where it is that register's. -/
theorem belowOrUnset_regWrite {bound : Nat} {a b v : Word} {p : Panel}
    (h : belowOrUnset bound ((p.regAt b).map BitVec.toNat)) (hv : b = a → v.toNat < bound) :
    belowOrUnset bound (((p.regWrite a v).regAt b).map BitVec.toNat) := by
  rw [Panel.regAt_regWrite]
  split
  · next hba => exact belowOrUnset_some.mpr (hv hba)
  · exact h

/-- A register write keeps the invariant when a window register gets a value on the panel (R153). -/
theorem State.Inv.regWrite {s : State} {a v : Word} (h : s.Inv)
    (hx : a = s.cfg.regHsa ∨ a = s.cfg.regHea → v.toNat < WIDTH)
    (hy : a = s.cfg.regVsa ∨ a = s.cfg.regVea → v.toNat < HEIGHT) : (s.setPanel (s.panel.regWrite a v)).Inv where
  cfgValid := h.cfgValid
  regWf := Panel.regWrite_wf a v h.regWf
  gramWf := h.gramWf
  hsaOnPanel := belowOrUnset_regWrite h.hsaOnPanel fun e => hx (.inl e.symm)
  heaOnPanel := belowOrUnset_regWrite h.heaOnPanel fun e => hx (.inr e.symm)
  vsaOnPanel := belowOrUnset_regWrite h.vsaOnPanel fun e => hy (.inl e.symm)
  veaOnPanel := belowOrUnset_regWrite h.veaOnPanel fun e => hy (.inr e.symm)
  cxOnPanel := h.cxOnPanel
  cyOnPanel := h.cyOnPanel
  statusReserved := h.statusReserved

theorem State.Inv.regWrite_other {s : State} {a : Word} (v : Word) (h : s.Inv) (ha : isWindowReg s.cfg a = false) :
    (s.setPanel (s.panel.regWrite a v)).Inv := by
  simp only [isWindowReg, decide_eq_false_iff_not] at ha
  exact h.regWrite (fun hx => by tauto) (fun hy => by tauto)

theorem windowLimit_of_x {c : Config} {a : Word} (ha : a = c.regHsa ∨ a = c.regHea) : windowLimit c a = WIDTH :=
  if_pos ha

theorem windowLimit_of_y {c : Config} {a : Word} (h : c.valid = true) (ha : a = c.regVsa ∨ a = c.regVea) :
    windowLimit c a = HEIGHT := by
  have hn := Config.valid_knownRegs_nodup h
  simp only [Config.knownRegs, List.nodup_cons, List.mem_cons, List.not_mem_nil, or_false, not_or] at hn
  refine if_neg ?_
  rcases ha with rfl | rfl <;> tauto

theorem State.Inv.setCx {s : State} {n : Nat} (h : s.Inv) (hn : n < WIDTH) :
    (s.setPanel { s.panel with cx := some n }).Inv where
  __ := h
  cxOnPanel := belowOrUnset_some.mpr hn

theorem State.Inv.setCy {s : State} {n : Nat} (h : s.Inv) (hn : n < HEIGHT) :
    (s.setPanel { s.panel with cy := some n }).Inv where
  __ := h
  cyOnPanel := belowOrUnset_some.mpr hn

theorem State.Inv.gramWrite {s : State} (x yd : Nat) (v : Word) (h : s.Inv) :
    (s.setPanel (s.panel.gramWrite x yd v)).Inv where
  __ := h
  gramWf := Panel.gramWrite_wf x yd v h.gramWf

/-- The cursor advances inside the window, and the window is on the panel (R156). -/
theorem State.Inv.advance_onPanel {s : State} {w : Window} (h : s.Inv) (hw : s.window = some w)
    (hin : w.holdsCursor = true) (o : AutoInc) : (w.advance o).cx < WIDTH ∧ (w.advance o).cy < HEIGHT := by
  obtain ⟨-, hhea, -, hvea, -, -⟩ := State.window_eq_some.mp hw
  have hx : w.hea < WIDTH := h.heaOnPanel _ hhea
  have hy : w.vea < HEIGHT := h.veaOnPanel _ hvea
  have hadv := Window.advance_holdsCursor o hin
  simp only [Window.holdsCursor, decide_eq_true_eq, Window.advance_hea, Window.advance_vea] at hadv
  omega

/-! ### The moves, the operations and the step -/

/-- Every reaction of the panel to a data cycle keeps the invariant. -/
theorem DataEffect.inv {inInit : Bool} {v : Word} {s : State} {p : Panel} (he : DataEffect inInit v s p) (h : s.Inv) :
    (s.setPanel p).Inv := by
  cases he with
  | pixel w _ hw hin =>
    obtain ⟨hx, hy⟩ := h.advance_onPanel hw hin s.cfg.autoInc
    exact ((h.gramWrite w.cx w.cy v).setCx hx).setCy hy
  | window a _ _ hv =>
    exact h.regWrite (fun hx => windowLimit_of_x hx ▸ hv) (fun hy => windowLimit_of_y h.cfgValid hy ▸ hv)
  | cursorX _ hv =>
    have ha : isCursorReg s.cfg s.cfg.regGramX = true := by simp [isCursorReg]
    exact (h.regWrite_other v (Config.cursor_not_window h.cfgValid ha)).setCx hv
  | cursorY a _ ha _ hv => exact (h.regWrite_other v (Config.cursor_not_window h.cfgValid ha)).setCy hv
  | config a _ _ _ hw _ => exact h.regWrite_other v hw

theorem afterCycle_inv (rs : Level) (v : Word) {s : State} (h : s.Inv) : (afterCycle rs v s).Inv :=
  h.congr rfl rfl h.statusReserved

theorem panelCommand_inv (v : Word) {s : State} (h : s.Inv) : (panelCommand v s).Inv where
  __ := h

theorem DisplayMove.inv {s t : State} (hm : DisplayMove s t) (h : s.Inv) : t.Inv := by
  cases hm with
  | command v => exact panelCommand_inv v (afterCycle_inv _ v h)
  | data _ v p he => exact he.inv (afterCycle_inv _ v h)
  | stalled v => exact afterCycle_inv _ v h

theorem setGlyph_reserved {b : Byte} (h : b &&& 0xFE#8 = 0#8) : (b ||| 0x01#8) &&& 0xFE#8 = 0#8 := by
  rw [BitVec.and_or_distrib_right, h]
  rfl

theorem TextMove.inv {s t : State} (hm : TextMove s t) (h : s.Inv) : t.Inv := by
  cases hm with
  | display hd => exact hd.inv h
  | glyph => exact h.congr rfl rfl (setGlyph_reserved h.statusReserved)

theorem TouchMove.inv {s t : State} (hm : TouchMove s t) (h : s.Inv) : t.Inv := by
  obtain ⟨⟨hcfg, -⟩, hpanel, -, hstatus, -⟩ := hm.sameButTouch
  exact h.congr hcfg hpanel (hstatus ▸ h.statusReserved)

theorem exec_next_inv {i : Instr} {s t : State} (h : exec i s = .next t) (hs : s.Inv) : t.Inv := by
  refine exec_next_lift (R := fun s t => s.Inv → t.Inv) ?_ ?_ TextMove.inv TouchMove.inv ?_ ?_ h hs
  · exact fun _ h => h
  · exact fun hst htu h => htu (hst h)
  · exact fun s h => h.congr rfl rfl (by simp)
  · exact fun _ h => h.congr rfl rfl h.statusReserved

/-- Settles O50: a block that waits is as it was, one that runs a word keeps the invariant by the operation's moves, and
retiring the word touches nothing the invariant speaks of. -/
theorem invariantIsKeptByEveryStep : Obligations.InvariantIsKeptByEveryStep := by
  intro s t hs h
  rcases step_eq_next h with ⟨-, -, rfl⟩ | ⟨p, -, i, u, -, -, -, hu, rfl⟩
  · exact hs
  · have hinv := exec_next_inv hu hs
    exact hinv.congr rfl rfl hinv.statusReserved

end Sys2Proof.Machine
end

section
/-! PROOF. The decoder and the encoder agree (30_encoding.md R70 to R75, R80): the selectors one by one, the operand
types of R72 read off the readers, and the words a step refuses because they are no instruction. -/

namespace Sys2Proof

open Machine Machine.Claims

/-! ### Selectors -/

/-- R80, the operation map: what holds of each of its selectors, by name, holds of every listed one. -/
theorem listedSelector_cases {motive : (op : Byte) → op.toNat ∈ listedSelectors → Prop}
    (busWrcmd : motive 0x01#8 (by decide)) (busWrdata : motive 0x02#8 (by decide))
    (busRdbit : motive 0x03#8 (by decide)) (busSetclk : motive 0x04#8 (by decide))
    (busSetcs : motive 0x05#8 (by decide)) (busSetdin : motive 0x06#8 (by decide))
    (busRdpen : motive 0x07#8 (by decide)) (busSettle : motive 0x08#8 (by decide))
    (touchStart : motive 0x10#8 (by decide)) (touchReadch : motive 0x11#8 (by decide))
    (touchReadpos : motive 0x12#8 (by decide)) (touchPen : motive 0x13#8 (by decide))
    (touchCal : motive 0x14#8 (by decide)) (dispInit : motive 0x20#8 (by decide))
    (dispWrreg : motive 0x21#8 (by decide)) (dispSetwin : motive 0x22#8 (by decide))
    (dispWrpix : motive 0x23#8 (by decide)) (dispFill : motive 0x24#8 (by decide))
    (rastPixel : motive 0x30#8 (by decide)) (rastLine : motive 0x31#8 (by decide))
    (rastBlock : motive 0x32#8 (by decide)) (textChar : motive 0x40#8 (by decide))
    (textString : motive 0x41#8 (by decide)) (textStrrev : motive 0x42#8 (by decide))
    (statRd : motive 0x50#8 (by decide)) (statClr : motive 0x51#8 (by decide))
    (op : Byte) (h : op.toNat ∈ listedSelectors) : motive op h := by
  have hmem : op ∈ listedSelectors.map (BitVec.ofNat 8) := by
    simpa using List.mem_map_of_mem (f := BitVec.ofNat 8) h
  simp only [listedSelectors, List.map_cons, List.map_nil, List.mem_cons, List.not_mem_nil, or_false] at hmem
  rcases hmem with rfl | rfl | rfl | rfl | rfl | rfl | rfl | rfl | rfl | rfl | rfl | rfl | rfl | rfl | rfl | rfl | rfl
    | rfl | rfl | rfl | rfl | rfl | rfl | rfl | rfl | rfl <;> assumption

/-- R73: the decoder's last branch is the only one a reserved selector can take. -/
theorem decodeHostOp_of_reserved (bits : Nat) {op : Byte} (args : List Operand) (h : op.toNat ∉ listedSelectors) :
    decodeHostOp bits op args = .error .illegalOp := by
  fun_cases decodeHostOp bits op args
  case case27 => rfl
  all_goals
    subst op
    exact absurd (by decide) h

/-! ### Operand types -/

/-- An unsigned reader of `w` bits reads the numbers from 0 up to the largest of `w` bits, and nothing else. -/
theorem readUnsigned_isSome_iff {w : Nat} {m : Int} (hm : m + 1 = 2 ^ w) {o : Operand} :
    (∃ v, o = .num v ∧ 0 ≤ v ∧ v ≤ m) ↔ (readUnsigned w o).isSome = true := by
  simp only [Option.isSome_iff_exists, readUnsigned_eq_some]
  constructor
  · rintro ⟨v, rfl, h0, hv⟩
    have hmod : v % (2 ^ w : Nat) = v := Int.emod_eq_of_lt h0 (by push_cast; omega)
    refine ⟨BitVec.ofInt w v, ?_⟩
    rw [numOf, BitVec.toNat_ofInt, hmod, Int.toNat_of_nonneg h0]
  · rintro ⟨b, rfl⟩
    have hlt : (b.toNat : Int) < 2 ^ w := by exact_mod_cast b.isLt
    exact ⟨b.toNat, rfl, by omega, by omega⟩

theorem readBytes_isSome_iff {vs : List Int} : (∀ v ∈ vs, 0 ≤ v ∧ v ≤ 255) ↔ (readBytes vs).isSome = true := by
  induction vs with
  | nil => simp [readBytes]
  | cons v vs ih =>
    have hv : (0 ≤ v ∧ v ≤ 255) ↔ (readByte (.num v)).isSome = true := by
      simpa [readByte] using readUnsigned_isSome_iff (w := 8) (m := 255) (by norm_num) (o := .num v)
    rw [List.forall_mem_cons, hv, ih, readBytes]
    cases readByte (.num v) <;> cases readBytes vs <;> simp

/-- R72: the ranges of a type are what its reader accepts. -/
theorem ofType_iff_fits {bits : Nat} {t : OperandType} {o : Operand} : ofType bits t o ↔ t.fits bits o = true := by
  cases t with
  | lvl => exact readUnsigned_isSome_iff (by norm_num)
  | byte => exact readUnsigned_isSome_iff (by norm_num)
  | word => exact readUnsigned_isSome_iff (by norm_num)
  | raw => exact readUnsigned_isSome_iff (by norm_num)
  | coord => cases o <;> simp [ofType, OperandType.fits, readCoord, coordFits]
  | scale => cases o <;> simp [ofType, OperandType.fits, readScale, scaleFits]
  | text => cases o <;> simp [ofType, OperandType.fits, readText, readBytes_isSome_iff]

/-! ### The shapes of R80: each takes the operands of its types, and answers OperandType to any others -/

/-- A decoder of operands answers through `orOperandType`, with an instruction exactly for operands of the types. -/
def ReadsTypes (bits : Nat) (types : List OperandType) (decodeArgs : List Operand → Decoded) : Prop :=
  ∀ args, ∃ o, decodeArgs args = orOperandType o ∧ (List.Forall₂ (ofType bits) types args ↔ o.isSome = true)

theorem ReadsTypes.ok {bits : Nat} {types : List OperandType} {decodeArgs : List Operand → Decoded}
    (h : ReadsTypes bits types decodeArgs) {args : List Operand} (hargs : List.Forall₂ (ofType bits) types args) :
    ∃ i, decodeArgs args = .ok i := by
  obtain ⟨o, ho, hfit⟩ := h args
  obtain ⟨i, rfl⟩ := Option.isSome_iff_exists.mp (hfit.mp hargs)
  exact ⟨i, ho⟩

theorem ReadsTypes.error {bits : Nat} {types : List OperandType} {decodeArgs : List Operand → Decoded}
    (h : ReadsTypes bits types decodeArgs) {args : List Operand} (hargs : ¬ List.Forall₂ (ofType bits) types args) :
    decodeArgs args = .error .operandType := by
  obtain ⟨o, ho, hfit⟩ := h args
  obtain rfl : o = none := by simpa [hargs] using hfit
  exact ho

theorem isSome_seq {α β : Type} (f : Option (α → β)) (o : Option α) :
    (f <*> o).isSome = (f.isSome && o.isSome) := by cases f <;> cases o <;> rfl

theorem decode0_readsTypes (bits : Nat) (i : Instr) : ReadsTypes bits [] (decode0 i) := by
  intro args
  cases args with
  | nil => exact ⟨some i, rfl, by simp⟩
  | cons a rest => exact ⟨none, rfl, by simp⟩

theorem decodeLevel_readsTypes (bits : Nat) (f : Level → Instr) :
    ReadsTypes bits [.lvl] (decodeLevel f) := by
  intro args
  unfold decodeLevel
  split
  · exact ⟨_, rfl, by simp [ofType_iff_fits, OperandType.fits]⟩
  · exact ⟨none, rfl, by simp_all [List.forall₂_cons_left_iff]⟩

theorem decodeByte_readsTypes (bits : Nat) (f : Byte → Instr) :
    ReadsTypes bits [.byte] (decodeByte f) := by
  intro args
  unfold decodeByte
  split
  · exact ⟨_, rfl, by simp [ofType_iff_fits, OperandType.fits]⟩
  · exact ⟨none, rfl, by simp_all [List.forall₂_cons_left_iff]⟩

theorem decodeWord_readsTypes (bits : Nat) (f : Word → Instr) :
    ReadsTypes bits [.word] (decodeWord f) := by
  intro args
  unfold decodeWord
  split
  · exact ⟨_, rfl, by simp [ofType_iff_fits, OperandType.fits]⟩
  · exact ⟨none, rfl, by simp_all [List.forall₂_cons_left_iff]⟩

theorem decodeWordWord_readsTypes (bits : Nat) (f : Word → Word → Instr) :
    ReadsTypes bits [.word, .word] (decodeWordWord f) := by
  intro args
  unfold decodeWordWord
  split
  · exact ⟨_, rfl, by simp [ofType_iff_fits, OperandType.fits, isSome_seq]⟩
  · exact ⟨none, rfl, by simp_all [List.forall₂_cons_left_iff]⟩

theorem decodeRawRaw_readsTypes (bits : Nat) (f : Raw → Raw → Instr) :
    ReadsTypes bits [.raw, .raw] (decodeRawRaw f) := by
  intro args
  unfold decodeRawRaw
  split
  · exact ⟨_, rfl, by simp [ofType_iff_fits, OperandType.fits, isSome_seq]⟩
  · exact ⟨none, rfl, by simp_all [List.forall₂_cons_left_iff]⟩

theorem decodeWindow_readsTypes (bits : Nat) (f : Int → Int → Int → Int → Instr) :
    ReadsTypes bits [.coord, .coord, .coord, .coord] (decodeWindow bits f) := by
  intro args
  unfold decodeWindow
  split
  · exact ⟨_, rfl, by simp [ofType_iff_fits, OperandType.fits, isSome_seq, and_assoc]⟩
  · exact ⟨none, rfl, by simp_all [List.forall₂_cons_left_iff]⟩

theorem decodePoint_readsTypes (bits : Nat) (f : Int → Int → Word → Instr) :
    ReadsTypes bits [.coord, .coord, .word] (decodePoint bits f) := by
  intro args
  unfold decodePoint
  split
  · exact ⟨_, rfl, by simp [ofType_iff_fits, OperandType.fits, isSome_seq, and_assoc]⟩
  · exact ⟨none, rfl, by simp_all [List.forall₂_cons_left_iff]⟩

theorem decodeLine_readsTypes (bits : Nat) (f : Int → Int → Int → Int → Word → Instr) :
    ReadsTypes bits [.coord, .coord, .coord, .coord, .word] (decodeLine bits f) := by
  intro args
  unfold decodeLine
  split
  · exact ⟨_, rfl, by simp [ofType_iff_fits, OperandType.fits, isSome_seq, and_assoc]⟩
  · exact ⟨none, rfl, by simp_all [List.forall₂_cons_left_iff]⟩

theorem decodeBlock_readsTypes (bits : Nat) (f : Int → Int → Word → Nat → Instr) :
    ReadsTypes bits [.coord, .coord, .word, .scale] (decodeBlock bits f) := by
  intro args
  unfold decodeBlock
  split
  · exact ⟨_, rfl, by simp [ofType_iff_fits, OperandType.fits, isSome_seq, and_assoc]⟩
  · exact ⟨none, rfl, by simp_all [List.forall₂_cons_left_iff]⟩

theorem decodeChar_readsTypes (bits : Nat) (f : Int → Int → Nat → Word → Word → Byte → Instr) :
    ReadsTypes bits [.coord, .coord, .scale, .word, .word, .byte] (decodeChar bits f) := by
  intro args
  unfold decodeChar
  split
  · exact ⟨_, rfl, by simp [ofType_iff_fits, OperandType.fits, isSome_seq, and_assoc]⟩
  · exact ⟨none, rfl, by simp_all [List.forall₂_cons_left_iff]⟩

theorem decodeString_readsTypes (bits : Nat) (f : Int → Int → Nat → Word → Word → List Byte → Instr) :
    ReadsTypes bits [.coord, .coord, .scale, .word, .word, .text] (decodeString bits f) := by
  intro args
  unfold decodeString
  split
  · exact ⟨_, rfl, by simp [ofType_iff_fits, OperandType.fits, isSome_seq, and_assoc]⟩
  · exact ⟨none, rfl, by simp_all [List.forall₂_cons_left_iff]⟩

theorem decodeHostOp_readsTypes (bits : Nat) {op : Byte} (h : op.toNat ∈ listedSelectors) :
    ReadsTypes bits (signature op) (decodeHostOp bits op) := by
  cases op, h using listedSelector_cases
  case busWrcmd | busWrdata | dispWrpix | dispFill => exact decodeWord_readsTypes bits _
  case busSetclk | busSetcs | busSetdin => exact decodeLevel_readsTypes bits _
  case touchReadch => exact decodeByte_readsTypes bits _
  case touchCal => exact decodeRawRaw_readsTypes bits _
  case dispWrreg => exact decodeWordWord_readsTypes bits _
  case dispSetwin => exact decodeWindow_readsTypes bits _
  case rastPixel => exact decodePoint_readsTypes bits _
  case rastLine => exact decodeLine_readsTypes bits _
  case rastBlock => exact decodeBlock_readsTypes bits _
  case textChar => exact decodeChar_readsTypes bits _
  case textString | textStrrev => exact decodeString_readsTypes bits _
  all_goals exact decode0_readsTypes bits _

/-! ### The encoding, read back -/

theorem decode_encode {bits : Nat} {i : Instr} (h : i.wellFormed bits = true) : decode bits (encode i) = .ok i := by
  cases i <;> simp only [Instr.wellFormed, Bool.and_eq_true] at h
  case busWrcmd | busWrdata | dispWrpix | dispFill => exact decodeWord_eq_ok.mpr ⟨_, rfl, rfl⟩
  case busSetclk | busSetcs | busSetdin => exact decodeLevel_eq_ok.mpr ⟨_, rfl, rfl⟩
  case touchReadch => exact decodeByte_eq_ok.mpr ⟨_, rfl, rfl⟩
  case touchCal => exact decodeRawRaw_eq_ok.mpr ⟨_, _, rfl, rfl⟩
  case dispWrreg => exact decodeWordWord_eq_ok.mpr ⟨_, _, rfl, rfl⟩
  case dispSetwin =>
    obtain ⟨⟨⟨h1, h2⟩, h3⟩, h4⟩ := h
    exact decodeWindow_eq_ok.mpr ⟨_, _, _, _, rfl, h1, h2, h3, h4, rfl⟩
  case rastPixel =>
    obtain ⟨h1, h2⟩ := h
    exact decodePoint_eq_ok.mpr ⟨_, _, _, rfl, h1, h2, rfl⟩
  case rastLine =>
    obtain ⟨⟨⟨h1, h2⟩, h3⟩, h4⟩ := h
    exact decodeLine_eq_ok.mpr ⟨_, _, _, _, _, rfl, h1, h2, h3, h4, rfl⟩
  case rastBlock =>
    obtain ⟨⟨h1, h2⟩, h3⟩ := h
    exact decodeBlock_eq_ok.mpr ⟨_, _, _, _, rfl, h1, h2, h3, rfl⟩
  case textChar =>
    obtain ⟨⟨h1, h2⟩, h3⟩ := h
    exact decodeChar_eq_ok.mpr ⟨_, _, _, _, _, _, rfl, h1, h2, h3, rfl⟩
  case textString | textStrrev =>
    obtain ⟨⟨h1, h2⟩, h3⟩ := h
    exact decodeString_eq_ok.mpr ⟨_, _, _, _, _, _, rfl, h1, h2, h3, rfl⟩
  case buscycCmd d => exact congrArg Except.ok (decodeBusCycle_command d)
  case buscycData d => exact congrArg Except.ok (decodeBusCycle_data d)
  all_goals rfl

/-- R80 read backwards: what a listed selector decodes to has that selector and those operands for its encoding. -/
theorem encode_of_decodeHostOp {bits : Nat} {op : Byte} {args : List Operand} {i : Instr}
    (h : op.toNat ∈ listedSelectors) (hd : decodeHostOp bits op args = .ok i) :
    encode i = .hostOp op args ∧ i.wellFormed bits = true := by
  cases op, h using listedSelector_cases
  case busWrcmd | busWrdata | dispWrpix | dispFill =>
    obtain ⟨a, rfl, rfl⟩ := decodeWord_eq_ok.mp hd
    exact ⟨rfl, rfl⟩
  case busSetclk | busSetcs | busSetdin =>
    obtain ⟨a, rfl, rfl⟩ := decodeLevel_eq_ok.mp hd
    exact ⟨rfl, rfl⟩
  case touchReadch =>
    obtain ⟨a, rfl, rfl⟩ := decodeByte_eq_ok.mp hd
    exact ⟨rfl, rfl⟩
  case touchCal =>
    obtain ⟨a, b, rfl, rfl⟩ := decodeRawRaw_eq_ok.mp hd
    exact ⟨rfl, rfl⟩
  case dispWrreg =>
    obtain ⟨a, b, rfl, rfl⟩ := decodeWordWord_eq_ok.mp hd
    exact ⟨rfl, rfl⟩
  case dispSetwin =>
    obtain ⟨x1, y1, x2, y2, rfl, h1, h2, h3, h4, rfl⟩ := decodeWindow_eq_ok.mp hd
    exact ⟨rfl, by simp [Instr.wellFormed, *]⟩
  case rastPixel =>
    obtain ⟨x, y, c, rfl, h1, h2, rfl⟩ := decodePoint_eq_ok.mp hd
    exact ⟨rfl, by simp [Instr.wellFormed, *]⟩
  case rastLine =>
    obtain ⟨x1, y1, x2, y2, c, rfl, h1, h2, h3, h4, rfl⟩ := decodeLine_eq_ok.mp hd
    exact ⟨rfl, by simp [Instr.wellFormed, *]⟩
  case rastBlock =>
    obtain ⟨x, y, c, n, rfl, h1, h2, h3, rfl⟩ := decodeBlock_eq_ok.mp hd
    exact ⟨rfl, by simp [Instr.wellFormed, *]⟩
  case textChar =>
    obtain ⟨x, y, n, fg, bg, ch, rfl, h1, h2, h3, rfl⟩ := decodeChar_eq_ok.mp hd
    exact ⟨rfl, by simp [Instr.wellFormed, *]⟩
  case textString | textStrrev =>
    obtain ⟨x, y, n, fg, bg, text, rfl, h1, h2, h3, rfl⟩ := decodeString_eq_ok.mp hd
    exact ⟨rfl, by simp [Instr.wellFormed, *]⟩
  all_goals
    obtain ⟨rfl, rfl⟩ := decode0_eq_ok.mp hd
    exact ⟨rfl, rfl⟩

/-- R74: the word of a display cycle is the word of the instruction it decodes to. -/
theorem encode_decodeBusCycle (w : BitVec 17) : encode (decodeBusCycle w) = .busCycle w := by
  have hw : w.extractLsb' 16 1 ++ w.extractLsb' 0 16 = w :=
    (BitVec.extractLsb'_append_extractLsb'_eq_extractLsb' rfl).trans BitVec.extractLsb'_eq_self
  rcases BitVec.eq_zero_or_eq_one (w.extractLsb' 16 1) with hrs | hrs
  · rw [hrs] at hw
    rw [← hw, decodeBusCycle_command, encode]
  · rw [hrs] at hw
    rw [← hw, decodeBusCycle_data, encode]

theorem decode_of_not_touchCommand (bits : Nat) {b : Byte} (hy : b ≠ TOUCH_CMD_Y) (hx : b ≠ TOUCH_CMD_X) :
    decode bits (.touchCommand b) = .error .touchCommand := by
  simp [decode, decodeTouchCommand, hy, hx]

/-- R75: the two command bytes are the ones that decode, and each is its instruction's. -/
theorem encode_of_decodeTouchCommand {b : Byte} {i : Instr} (h : decodeTouchCommand b = .ok i) :
    encode i = .touchCommand b ∧ ∀ bits, i.wellFormed bits = true := by
  unfold decodeTouchCommand at h
  split at h
  · next hy =>
    obtain rfl : Instr.tcmdY = i := Except.ok.inj h
    exact ⟨congrArg _ hy.symm, fun _ => rfl⟩
  · split at h
    · next hx =>
      obtain rfl : Instr.tcmdX = i := Except.ok.inj h
      exact ⟨congrArg _ hx.symm, fun _ => rfl⟩
    · simp at h

theorem decodeBusCycle_wellFormed (bits : Nat) (w : BitVec 17) : (decodeBusCycle w).wellFormed bits = true := by
  unfold decodeBusCycle
  split
  · rfl
  · rfl

theorem encode_of_decode {bits : Nat} {p : Packet} {i : Instr} (h : decode bits p = .ok i) :
    encode i = p ∧ i.wellFormed bits = true := by
  cases p with
  | hostOp op args =>
    by_cases hop : op.toNat ∈ listedSelectors
    · exact encode_of_decodeHostOp hop h
    · simp [decode, decodeHostOp_of_reserved bits args hop] at h
  | busCycle w =>
    obtain rfl : decodeBusCycle w = i := Except.ok.inj h
    exact ⟨encode_decodeBusCycle w, decodeBusCycle_wellFormed bits w⟩
  | touchCommand b =>
    obtain ⟨hi, hw⟩ := encode_of_decodeTouchCommand h
    exact ⟨hi, hw bits⟩

/-- R74: RS and DB as bits of the word. -/
theorem decodeBusCycle_eq (w : BitVec 17) :
    decodeBusCycle w =
      if w.getLsbD 16 = false then .buscycCmd (w.setWidth 16) else .buscycData (w.setWidth 16) := by
  have hdb : w.extractLsb' 0 16 = w.setWidth 16 := (BitVec.setWidth_eq_extractLsb' (by omega)).symm
  have hrs : w.extractLsb' 16 1 = BitVec.ofBool (w.getLsbD 16) := by
    ext j hj
    obtain rfl : j = 0 := by omega
    rw [BitVec.getElem_extractLsb', BitVec.getElem_ofBool]
  rw [decodeBusCycle, hdb, hrs]
  cases w.getLsbD 16 <;> rfl

end Sys2Proof
end

section
/-! PROOF. The statements on encodings (30_encoding.md R70 to R75, R80), and the touch command bytes run
(41_touch.md R121). -/

namespace Sys2Proof.Machine

open Claims

/-- Settles O1: selector by selector, the operands the encoder wrote are those the decoder's readers accept. -/
theorem decodeOfEncode : Obligations.DecodeOfEncode := fun _ _ h => decode_encode h

/-- Settles O2: interface by interface, the decoder's branches inverted. -/
theorem encodeOfDecode : Obligations.EncodeOfDecode := fun _ _ _ h => encode_of_decode h

/-- 60_exceptions.md R220: a running block refuses the word presented to it when that is no instruction. -/
theorem step_of_undecoded {s : State} {p : Packet} {e : DecodeError} (hrun : s.running)
    (hp : s.pending.head? = some p) (hd : decode s.cfg.coordBits p = .error e) : step s = refuse (reasonOf e) s := by
  obtain ⟨rest, hrest⟩ := List.head?_eq_some_iff.mp hp
  exact step_of_decode_error hrun hrest hd

/-- Settles O3: a reserved selector falls through to the decoder's last branch whatever COORD_BITS is, and the branch
of a listed one has OperandType as its only error. -/
theorem reservedSelectorsAreIllegal : Obligations.ReservedSelectorsAreIllegal := by
  intro bits op args
  refine ⟨fun h => ⟨decodeHostOp_of_reserved bits args h, fun s hrun hp => ?_⟩, fun h hill => ?_⟩
  · exact step_of_undecoded hrun hp (decodeHostOp_of_reserved s.cfg.coordBits args h)
  · obtain ⟨o, ho, -⟩ := decodeHostOp_readsTypes bits h args
    have hill' : orOperandType o = .error .illegalOp := ho.symm.trans hill
    cases o <;> simp [orOperandType] at hill'

/-- Settles O4: the branch of a listed selector reads the operand types of its signature. -/
theorem operandsMustFitTheirTypes : Obligations.OperandsMustFitTheirTypes := by
  intro bits op args h
  have hreads := decodeHostOp_readsTypes bits h
  refine ⟨fun hfit => hreads.ok hfit, fun hfit => ⟨hreads.error hfit, fun s hrun hbits hp => ?_⟩⟩
  subst hbits
  exact step_of_undecoded hrun hp (hreads.error hfit)

/-- Settles O5: the fields the decoder extracts are bit 16 and the low 16 bits (`decodeBusCycle_eq`). -/
theorem busCycleWordIsRsAndDb : Obligations.BusCycleWordIsRsAndDb := fun _ w =>
  congrArg Except.ok (decodeBusCycle_eq w)

/-- Settles O6: the decoder compares with the two bytes and refuses what is neither. -/
theorem touchCommandBytes : Obligations.TouchCommandBytes := by
  intro bits b
  refine ⟨?_, ?_, fun hy hx => ⟨decode_of_not_touchCommand bits hy hx, fun s hrun hp => ?_⟩⟩
  · rintro rfl
    rfl
  · rintro rfl
    rfl
  · exact step_of_undecoded hrun hp (decode_of_not_touchCommand s.cfg.coordBits hy hx)

/-- Settles O7: each of the words written out is the encoding of its instruction. -/
theorem writtenOutWordsDecode : Obligations.WrittenOutWordsDecode :=
  ⟨decode_encode (i := .busWrcmd 0x1234) rfl, decode_encode (i := .touchCal 0x800 0x5A3) rfl,
    decode_encode (i := .dispWrreg 0x20 5) rfl, decode_encode (i := .rastLine 0 0 (-3) 3 0xFFFF) rfl,
    decode_encode (i := .textString 10 20 1 0xFFFF 0 [0x41, 0x42, 0x00, 0x43]) rfl, decode_encode (i := .statClr) rfl,
    decode_encode (i := .buscycData 0x1234) rfl, decode_encode (i := .tcmdX) rfl⟩

/-! ### The touch command bytes run -/

/-- 41_touch.md R121: with the controller selected and its clock low, the conversion of a command byte that ends in a 0
returns the twelve bits sampled. -/
theorem convertSelected_of_touchReady {cmd : Byte} {s : State} (h0 : cmd.getLsbD 0 = false) (h : touchReady s) :
    ∃ v, spells s.env 0 v ∧ convertSelected cmd s = .next (converted cmd v s) := by
  obtain ⟨hcs, hclk⟩ := h
  refine ⟨(conversion cmd s).1, conversion_spells cmd s hclk, ?_⟩
  have hmove : (conversion cmd s).2 = _ := conversion_move cmd s hclk
  simp only [convertSelected, hcs, hclk, ne_eq, not_true_eq_false, if_false]
  rw [hmove, h0]
  rfl

theorem convertSelected_of_not_selected (cmd : Byte) {s : State} (hcs : s.lines.tCs ≠ some 0#1) :
    convertSelected cmd s = raise (.touchNotSelected s.k) s := if_pos hcs

theorem convertSelected_of_clock (cmd : Byte) {s : State} (hcs : s.lines.tCs = some 0#1)
    (hclk : s.lines.tClk ≠ some 0#1) : convertSelected cmd s = raise (.touchClockState s.k) s := by
  rw [convertSelected, if_neg (not_not_intro hcs), if_pos hclk]

/-- Settles O21: both bytes end in a 0, and each instruction is the conversion of its byte behind the checks of R121. -/
theorem touchCommandByteConverts : Obligations.TouchCommandByteConverts := by
  intro i cmd s hi
  obtain ⟨hexec, h0⟩ : exec i s = convertSelected cmd s ∧ cmd.getLsbD 0 = false := by
    rcases hi with ⟨rfl, rfl⟩ | ⟨rfl, rfl⟩
    · exact ⟨rfl, by decide⟩
    · exact ⟨rfl, by decide⟩
  rw [hexec]
  exact ⟨convertSelected_of_touchReady h0, convertSelected_of_not_selected cmd, convertSelected_of_clock cmd⟩

end Sys2Proof.Machine
end

section
/-! PROOF. Display write cycles as the host and the bus ask for them (40_bus.md R101 to R103, 42_display.md R150 to
R158): which instructions make one, where a data cycle stops, and what it writes when it completes. -/

namespace Sys2Proof.Machine

open Claims

/-! ### A data cycle is refused, or is its seven events and the panel's reaction -/

theorem exec_of_isDataCycle {i : Instr} {v : Word} (h : isDataCycle i v) (s : State) : exec i s = dataCycle v s := by
  rcases h with rfl | rfl
  · rfl
  · rfl

theorem dataCycle_of_unset (v : Word) {s : State} (hir : s.panel.ir = none) :
    dataCycle v s = panelData false v (afterCycle 1#1 v s) := by
  simp only [dataCycle, hir, cycle_data]

theorem dataCycle_of_known {a : Word} (v : Word) {s : State} (hir : s.panel.ir = some a) (ha : a ∈ s.cfg.knownRegs) :
    dataCycle v s = panelData false v (afterCycle 1#1 v s) := by
  simp only [dataCycle, hir, Config.knownRegs_known ha, if_true, cycle_data]

theorem dataCycle_of_not_known {a : Word} (v : Word) {s : State} (hir : s.panel.ir = some a)
    (ha : a ∉ s.cfg.knownRegs) : dataCycle v s = refuse .opaqueRegister s := by
  simp [dataCycle, hir, isKnownReg, ha]

/-! ### The window and cursor registers, by the axis of their values -/

theorem knownRegs_of_isXReg {c : Config} {a : Word} (h : isXReg c a) : a ∈ c.knownRegs := by
  rcases h with rfl | rfl | rfl <;> simp [Config.knownRegs]

theorem knownRegs_of_isYReg {c : Config} {a : Word} (h : isYReg c a) : a ∈ c.knownRegs := by
  rcases h with rfl | rfl | rfl <;> simp [Config.knownRegs]

/-- An x register is a window register bounded by WIDTH or the x cursor (42_display.md R153, R154). -/
theorem isXReg_cases {c : Config} {a : Word} (h : isXReg c a) :
    (isWindowReg c a = true ∧ windowLimit c a = WIDTH) ∨ a = c.regGramX := by
  rcases h with rfl | rfl | rfl
  · exact .inl ⟨by simp [isWindowReg], windowLimit_of_x (.inl rfl)⟩
  · exact .inl ⟨by simp [isWindowReg], windowLimit_of_x (.inr rfl)⟩
  · exact .inr rfl

/-- A y register is a window register bounded by HEIGHT or the y cursor (42_display.md R153, R154). -/
theorem isYReg_cases {c : Config} {a : Word} (hv : c.valid = true) (h : isYReg c a) :
    (isWindowReg c a = true ∧ windowLimit c a = HEIGHT) ∨ a = c.regGramY := by
  rcases h with rfl | rfl | rfl
  · exact .inl ⟨by simp [isWindowReg], windowLimit_of_y hv (.inl rfl)⟩
  · exact .inl ⟨by simp [isWindowReg], windowLimit_of_y hv (.inr rfl)⟩
  · exact .inr rfl

theorem knownRegs_of_onPanelFor {c : Config} {a v : Word} (h : onPanelFor c a v) : a ∈ c.knownRegs :=
  h.elim (fun hx => knownRegs_of_isXReg hx.1) (fun hy => knownRegs_of_isYReg hy.1)

theorem knownRegs_of_offPanelFor {c : Config} {a v : Word} (h : offPanelFor c a v) : a ∈ c.knownRegs :=
  h.elim (fun hx => knownRegs_of_isXReg hx.1) (fun hy => knownRegs_of_isYReg hy.1)

/-- A bound by the axis of a register is the bound that the panel's write of it checks (42_display.md R153, R154). -/
theorem axis_cases {c : Config} {a : Word} (hv : c.valid = true) {P : Nat → Prop}
    (h : (isXReg c a ∧ P WIDTH) ∨ (isYReg c a ∧ P HEIGHT)) :
    (isWindowReg c a = true ∧ P (windowLimit c a)) ∨ (a = c.regGramX ∧ P WIDTH) ∨ (a = c.regGramY ∧ P HEIGHT) := by
  rcases h with ⟨hreg, hP⟩ | ⟨hreg, hP⟩
  · rcases isXReg_cases hreg with ⟨hw, hlim⟩ | ha
    · exact .inl ⟨hw, hlim ▸ hP⟩
    · exact .inr (.inl ⟨ha, hP⟩)
  · rcases isYReg_cases hv hreg with ⟨hw, hlim⟩ | ha
    · exact .inl ⟨hw, hlim ▸ hP⟩
    · exact .inr (.inr ⟨ha, hP⟩)

theorem onPanelFor_cases {c : Config} {a v : Word} (hv : c.valid = true) (h : onPanelFor c a v) :
    (isWindowReg c a = true ∧ v.toNat < windowLimit c a) ∨ (a = c.regGramX ∧ v.toNat < WIDTH)
      ∨ (a = c.regGramY ∧ v.toNat < HEIGHT) := axis_cases hv (P := fun bound => v.toNat < bound) h

theorem offPanelFor_cases {c : Config} {a v : Word} (hv : c.valid = true) (h : offPanelFor c a v) :
    (isWindowReg c a = true ∧ windowLimit c a ≤ v.toNat) ∨ (a = c.regGramX ∧ WIDTH ≤ v.toNat)
      ∨ (a = c.regGramY ∧ HEIGHT ≤ v.toNat) := axis_cases hv (P := fun bound => bound ≤ v.toNat) h

/-! ### A register write that completes -/

/-- The panel after `v` is written to the window or cursor register `a` (42_display.md R153, R154). -/
def Panel.putRegister (c : Config) (a v : Word) (p : Panel) : Panel :=
  { p.regWrite a v with
    cx := if a = c.regGramX then some v.toNat else p.cx
    cy := if a = c.regGramY then some v.toNat else p.cy }

theorem Panel.putRegister_window {c : Config} {a : Word} (v : Word) (p : Panel) (hv : c.valid = true)
    (ha : isWindowReg c a = true) : p.putRegister c a v = p.regWrite a v := by
  have hcur : isCursorReg c a = false := by
    by_contra hc
    simp [Config.cursor_not_window hv (by simpa using hc)] at ha
  simp only [isCursorReg, decide_eq_false_iff_not, not_or] at hcur
  obtain ⟨hx, hy⟩ := hcur
  simp only [Panel.putRegister, hx, hy, if_false]
  rfl

theorem Panel.putRegister_cursorX {c : Config} (v : Word) (p : Panel) (hv : c.valid = true) :
    p.putRegister c c.regGramX v = { p.regWrite c.regGramX v with cx := some v.toNat } := by
  simp only [Panel.putRegister, (Config.gramY_ne_gramX hv).symm, if_true, if_false]
  rfl

theorem Panel.putRegister_cursorY {c : Config} (v : Word) (p : Panel) (hv : c.valid = true) :
    p.putRegister c c.regGramY v = { p.regWrite c.regGramY v with cy := some v.toNat } := by
  simp only [Panel.putRegister, Config.gramY_ne_gramX hv, if_true, if_false]
  rfl

/-- The panel's reaction to an on-panel value for a window or cursor register (42_display.md R153, R154). -/
theorem panelData_of_onPanelFor {inInit : Bool} {a v : Word} {s : State} (hv : s.cfg.valid = true)
    (hir : s.panel.ir = some a) (h : onPanelFor s.cfg a v) :
    panelData inInit v s = .next (s.setPanel (s.panel.putRegister s.cfg a v)) := by
  rcases onPanelFor_cases hv h with ⟨hw, hlt⟩ | ⟨rfl, hlt⟩ | ⟨rfl, hlt⟩
  · rw [Panel.putRegister_window v s.panel hv hw]
    exact panelData_window rfl hv hir hw hlt
  · rw [Panel.putRegister_cursorX v s.panel hv]
    exact panelData_cursorX rfl hv hir hlt
  · rw [Panel.putRegister_cursorY v s.panel hv]
    exact panelData_cursorY rfl hv hir hlt

theorem registerWritten_of_putRegister {a v : Word} {s t : State} (h : t.panel = s.panel.putRegister s.cfg a v) :
    registerWritten a v s t := by
  have hreg : ∀ b, t.panel.regAt b = if b = a then some v else s.panel.regAt b := by
    intro b
    rw [h]
    exact Panel.regAt_regWrite a b v s.panel
  have hother : sameRegsBut [a] s t := by
    intro b hb
    rw [hreg, if_neg (List.ne_of_not_mem_cons hb)]
  refine ⟨?_, hother, fun x yd _ _ => ?_, ?_, ?_⟩
  · rw [hreg, if_pos rfl]
  · rw [h]
    rfl
  · rw [h]
    rfl
  · rw [h]
    rfl

/-- 40_bus.md R101: the events of a cycle, whatever its words have made of the panel. -/
theorem emitted_afterCycle (rs : Level) (v : Word) (p : Panel) (s : State) :
    emitted (cycleEvents rs v) s ((afterCycle rs v s).setPanel p) := by
  simp [emitted, State.trace]

theorem afterCycle_sameButDisplay (rs : Level) (v : Word) (p : Panel) (s : State) :
    sameButDisplay s ((afterCycle rs v s).setPanel p) :=
  ⟨⟨rfl, rfl, rfl, rfl, rfl⟩, rfl, rfl, rfl, rfl, rfl, rfl, rfl⟩

/-- Settles O15: the register is one the block knows, so the cycle runs, and the panel accepts the value. -/
theorem dataCycleWritesRegister : Obligations.DataCycleWritesRegister := by
  intro i a v s hi hv hir hon
  have hdata : panelData false v (afterCycle 1#1 v s) = _ := panelData_of_onPanelFor hv hir hon
  refine ⟨(afterCycle 1#1 v s).setPanel (s.panel.putRegister s.cfg a v), ?_, registerWritten_of_putRegister rfl, hir,
    rfl, emitted_afterCycle 1#1 v _ s, afterCycle_sameButDisplay 1#1 v _ s⟩
  rw [exec_of_isDataCycle hi, dataCycle_of_known v hir (knownRegs_of_onPanelFor hon), hdata]
  rfl

/-! ### A pixel write that completes -/

theorem Config.regGramWrite_mem_knownRegs (c : Config) : c.regGramWrite ∈ c.knownRegs := by
  simp [Config.knownRegs]

theorem Window.advance_cx (o : AutoInc) (w : Window) : (w.advance o).cx = nextCx o w := by
  cases o
  · simp only [Window.advance, nextCx]
    split_ifs <;> rfl
  · simp only [Window.advance, nextCx]
    split_ifs <;> rfl

theorem Window.advance_cy (o : AutoInc) (w : Window) : (w.advance o).cy = nextCy o w := by
  cases o
  · simp only [Window.advance, nextCy]
    split_ifs <;> rfl
  · simp only [Window.advance, nextCy]
    split_ifs <;> rfl

theorem holdsCursor_of_pixelReady {s : State} {w : Window} (h : pixelReady s w) : w.holdsCursor = true := by
  obtain ⟨-, h1, h2, -, h3, h4, -⟩ := h
  exact Window.holdsCursor_iff.mpr ⟨h1.trans h2, h3.trans h4, h1, h2, h3, h4⟩

theorem pixelWritten_afterPixel {s : State} {w : Window} (v : Word) (h : pixelReady s w) :
    pixelWritten w v s (afterPixel w v s) := by
  obtain ⟨-, -, hx, hwidth, -, hy, hheight⟩ := h
  refine ⟨fun x yd hx' hy' => ?_, ?_, ?_, fun a _ => rfl⟩
  · exact Panel.pixel_gramAt (hx.trans_lt hwidth) (hy.trans_lt hheight) hx' hy'
  · rw [afterPixel_panel, Panel.pixel_cx, Window.advance_cx]
  · rw [afterPixel_panel, Panel.pixel_cy, Window.advance_cy]

/-- Settles O16: in GRAM write mode the cycle runs, and the panel's reaction to it is the pixel write of
`afterPixel`. -/
theorem dataCycleWritesPixel : Obligations.DataCycleWritesPixel := by
  intro i v w s hi hir hready
  have hdata : panelData false v (afterCycle 1#1 v s) = _ :=
    panelData_pixel rfl hir hready.1 (holdsCursor_of_pixelReady hready)
  refine ⟨afterPixel w v s, ?_, pixelWritten_afterPixel v hready, rfl, rfl, emitted_afterCycle 1#1 v _ s,
    afterPixel_sameButDisplay w v s⟩
  rw [exec_of_isDataCycle hi, dataCycle_of_known v hir (Config.regGramWrite_mem_knownRegs s.cfg), hdata]
  rfl

/-! ### A data cycle that stops -/

theorem panelData_of_unset {inInit : Bool} (v : Word) {s : State} (hir : s.panel.ir = none) :
    panelData inInit v s = raise (.indexUnset s.k v) s := by
  simp only [panelData, hir]

/-- The panel's reaction to an off-panel value for a window or cursor register (42_display.md R153, R154). -/
theorem panelData_of_offPanelFor {inInit : Bool} {a v : Word} {s : State} (hv : s.cfg.valid = true)
    (hir : s.panel.ir = some a) (h : offPanelFor s.cfg a v) :
    panelData inInit v s = raise (.panelValueRange s.k a v) s := by
  have hcursor : isCursorReg s.cfg a = true → panelData inInit v s = cursorWrite a v s := by
    intro hc
    simp [panelData, hir, Config.cursor_ne_write hv hc, Config.cursor_not_window hv hc, hc]
  rcases offPanelFor_cases hv h with ⟨hw, hle⟩ | ⟨rfl, hle⟩ | ⟨rfl, hle⟩
  · simp [panelData, hir, Config.window_ne_write hv hw, hw, windowWrite, hle]
  · rw [hcursor (by simp [isCursorReg]), cursorWrite, if_pos rfl, if_pos hle]
  · rw [hcursor (by simp [isCursorReg]), cursorWrite, if_neg (Config.gramY_ne_gramX hv), if_pos hle]

/-- The panel's reaction to a pixel write without a valid window and cursor (42_display.md R157). -/
theorem panelData_of_pixelNotReady {inInit : Bool} (v : Word) {s : State} (hir : s.panel.ir = some s.cfg.regGramWrite)
    (h : pixelNotReady s) : panelData inInit v s = raise (outsideWindow s) s := by
  simp only [panelData, hir, if_true, pixelWrite]
  split
  · next w hw => exact if_neg fun hin => h w hw (Window.holdsCursor_iff.mp hin)
  · rfl

/-- Settles O17: but for a configuration register the cycle runs, and each fault is the panel's reaction in the state
after the seven events. -/
theorem dataCycleStops : Obligations.DataCycleStops := by
  intro i v s hi
  rw [exec_of_isDataCycle hi]
  refine ⟨fun hir => ?_, fun a hir hv hoff => ?_, fun hir hnot => ?_, fun a hir hunknown => ?_⟩
  · rw [dataCycle_of_unset v hir]
    exact panelData_of_unset v hir
  · rw [dataCycle_of_known v hir (knownRegs_of_offPanelFor hoff)]
    exact panelData_of_offPanelFor hv hir hoff
  · rw [dataCycle_of_known v hir (Config.regGramWrite_mem_knownRegs s.cfg)]
    exact panelData_of_pixelNotReady v hir hnot
  · exact dataCycle_of_not_known v hir hunknown

/-- Settles O10: both instructions are the command cycle, to which the panel always reacts (`cycle_command`). -/
theorem commandCyclesSetIndexRegister : Obligations.CommandCyclesSetIndexRegister := fun addr s =>
  ⟨rfl, cycle_command false addr s, cycle_command false addr s⟩

end Sys2Proof.Machine
end

section
/-! PROOF. The touch and bus lines, the samples (40_bus.md R104 to R109, 41_touch.md R120, R124), and the two sides of
the block kept apart (40_bus.md R101, 41_touch.md R121, R123, 42_display.md R150). -/

namespace Sys2Proof.Machine

/-- Settles O56: no touch move reaches the panel or a display line, and no display or text move reaches a touch line,
the environment or the value returned. -/
theorem operationsReachTheirOwnLines : Obligations.OperationsReachTheirOwnLines := by
  intro i s t h
  cases exec_eq_next h with
  | touch hi _ _ _ hm =>
    obtain ⟨-, hpanel, hdisplay, -⟩ := TouchMoves.sameButTouch hm
    exact ⟨fun _ => ⟨hpanel, hdisplay⟩, fun hn => by simp [hi] at hn⟩
  | clear hi =>
    subst hi
    exact ⟨fun _ => ⟨rfl, rfl, rfl, rfl, rfl, rfl⟩, fun hn => absurd hn (by decide)⟩
  | display hi _ _ _ hm =>
    obtain ⟨-, -, -, hreturned, henv, htouch⟩ := DisplayMoves.sameButDisplay hm
    exact ⟨fun hn => by simp [hi] at hn, fun _ => ⟨htouch, henv, hreturned⟩⟩
  | text hi _ hm =>
    obtain ⟨-, -, hreturned, henv, htouch, -⟩ := TextMoves.sameButText hm
    exact ⟨fun hn => by simp [hi] at hn, fun _ => ⟨htouch, henv, hreturned⟩⟩
  | init hi hm =>
    obtain ⟨-, -, -, hreturned, henv, htouch⟩ := DisplayMoves.sameButDisplay hm
    subst hi
    exact ⟨fun hn => absurd hn (by decide), fun _ => ⟨htouch, henv, hreturned⟩⟩

/-- Settles O13: the drive of T_CLK and the Settle event are the whole of the two operations. -/
theorem clockAndSettleDriveOneLine : Obligations.ClockAndSettleDriveOneLine := fun _ _ => ⟨rfl, rfl, rfl, rfl⟩

/-- 00_scope.md R14: a sample whose level is handed to the host by `f` is one event and one draw. -/
theorem sampleAfter_giveResult (line : InLine) (f : Level → Value) (s : State) :
    (sampleAfter line s).giveResult (f (sampleLevel line s)) =
      { s with
        events := .sample line :: s.events
        env := s.env.afterDraws line 1
        returned := some (f (s.env.nextLevel line 0)) } := by
  rw [sampleLevel, sampleAfter, Env.draw_level, Env.draw_env]
  rfl

/-- Settles O14: each of the three is a sample, and TOUCH.PEN hands on what the level means. -/
theorem samplesReturnTheLineLevel : Obligations.SamplesReturnTheLineLevel := fun s =>
  ⟨⟨rfl, rfl, rfl⟩, congrArg Host.Outcome.next (sampleAfter_giveResult .tDout .lvl s),
    congrArg Host.Outcome.next (sampleAfter_giveResult .tPen .lvl s),
    congrArg Host.Outcome.next
      (sampleAfter_giveResult .tPen (fun b => .lvl (if b = s.cfg.penActive then 1#1 else 0#1)) s)⟩

/-- Settles O18: each operation is its drives, one after the other, and a drive changes its line and S.events only. -/
theorem touchLinesAreDriven : Obligations.TouchLinesAreDriven := fun _ _ => ⟨rfl, rfl, rfl⟩

end Sys2Proof.Machine
end

section
/-! PROOF. Touch conversions as the host asks for them, and the calibration of their results (41_touch.md R121 to R123,
R125, R126). -/

namespace Sys2Proof.Machine

open Claims

/-! ### TOUCH.READCH -/

/-- 41_touch.md R121: behind the check of the command byte, TOUCH.READCH is the selected conversion. -/
theorem exec_touchReadch_of_command {cmd : Byte} (h : cmd = 0x90 ∨ cmd = 0xD0) (s : State) :
    exec (.touchReadch cmd) s = convertSelected cmd s := if_pos h

theorem exec_touchReadch_of_not_command {cmd : Byte} (hy : cmd ≠ 0x90) (hx : cmd ≠ 0xD0) (s : State) :
    exec (.touchReadch cmd) s = refuse .touchCommand s := if_neg (not_or_intro hy hx)

/-- Both command bytes leave T_DIN at 0 (41_touch.md R121). -/
theorem touchCommand_getLsbD_zero {cmd : Byte} (h : cmd = 0x90 ∨ cmd = 0xD0) : cmd.getLsbD 0 = false := by
  rcases h with rfl | rfl
  · rfl
  · rfl

/-- Settles O19: past its check TOUCH.READCH is the conversion of a byte that ends in a 0. -/
theorem readChannelReturnsSampledBits : Obligations.ReadChannelReturnsSampledBits := by
  intro cmd s hcmd hready
  rw [exec_touchReadch_of_command hcmd]
  exact convertSelected_of_touchReady (touchCommand_getLsbD_zero hcmd) hready

/-- Settles O20: the command byte is checked before the lines, and the chip-select before the clock. -/
theorem readChannelStops : Obligations.ReadChannelStops := by
  intro cmd s
  refine ⟨fun hy hx => ?_, fun hcmd hcs => ?_, fun hcmd hcs hclk => ?_⟩
  · exact exec_touchReadch_of_not_command hy hx s
  · rw [exec_touchReadch_of_command hcmd]
    exact convertSelected_of_not_selected cmd hcs
  · rw [exec_touchReadch_of_command hcmd]
    exact convertSelected_of_clock cmd hcs hclk

/-! ### TOUCH.READPOS -/

/-- 41_touch.md R123: a touch move between chip-select 0 and chip-select 1, each followed by a settle delay, and the
result handed to the host. -/
theorem selectedMove_giveResult {evs : List Event} {din : Option Level} {n : Nat} {s t : State} (v : Value)
    (h : touchMove evs din n (settle (drive .tCs 0#1 s)) t) :
    (settle (drive .tCs 1#1 t)).giveResult v =
      { s with
        lines := { s.lines with tCs := some 1#1, tClk := some 0#1, tDin := din }
        events := ([Event.drive .tCs 0#1, Event.settle] ++ evs ++ [Event.drive .tCs 1#1, Event.settle]).reverse
          ++ s.events
        env := s.env.afterDraws .tDout n
        returned := some v } := by
  unfold touchMove at h
  subst h
  apply State.ext <;> simp [Lines.put]

theorem exec_touchReadpos_of_clock {s : State} (hclk : s.lines.tClk ≠ some 0#1) :
    exec .touchReadpos s = raise (.touchClockState s.k) s := if_pos hclk

/-- Settles O22: the two conversions are one touch move of 24 draws, which the chip-select brackets. -/
theorem readPositionReturnsBothChannels : Obligations.ReadPositionReturnsBothChannels := by
  intro s
  refine ⟨fun hclk => ?_, exec_touchReadpos_of_clock⟩
  obtain ⟨hmove, hy, hx⟩ := conversions_move TOUCH_CMD_Y TOUCH_CMD_X (settle (drive .tCs 0#1 s)) hclk
  refine ⟨_, _, hy, hx, (if_neg (not_not_intro hclk)).trans ?_⟩
  rw [selectedMove_giveResult _ hmove, ← List.append_assoc]
  rfl

/-! ### TOUCH.CAL -/

/-- 41_touch.md R126: the default form divides, truncating toward zero. -/
theorem calibrate_of_linear {c : Calibration} {off scale : Int} (hc : c = .linear off scale) (hscale : scale ≠ 0)
    (r : Raw) : calibrate c r = Int.tdiv ((r.toNat : Int) - off) scale := by
  rw [hc, calibrate, if_neg hscale]

/-- 00_scope.md R10: a calibration given by its 4096 values has one for every raw result. -/
theorem getElem?_eq_calibrate_of_table {c : Calibration} {vs : List Int} (hc : c = .table vs) (hlen : vs.length = 4096)
    (r : Raw) : vs[r.toNat]? = some (calibrate c r) := by
  have hr : r.toNat < vs.length := hlen ▸ r.isLt
  rw [hc, calibrate, List.getD_eq_getElem _ _ hr, List.getElem?_eq_getElem hr]

/-- Settles O23: the pair is the calibration of R126 on each axis, X of `rx` and Y of `ry`. -/
theorem calibrationMapsRawToScreen : Obligations.CalibrationMapsRawToScreen := fun rx ry s =>
  ⟨calibrate s.cfg.calX rx, calibrate s.cfg.calY ry, rfl,
    fun _ _ hcal hscale => calibrate_of_linear hcal hscale rx,
    fun _ _ hcal hscale => calibrate_of_linear hcal hscale ry,
    fun _ hcal hlen => getElem?_eq_calibrate_of_table hcal hlen rx,
    fun _ hcal hlen => getElem?_eq_calibrate_of_table hcal hlen ry⟩

end Sys2Proof.Machine
end

section
/-! PROOF. The panel's latch and index register (42_display.md R150, R151), and the two cycles of a register write as
DISP.WRREG makes them (R140): what the panel makes of the second, and where it stops. -/

namespace Sys2Proof.Machine

open Claims

/-! ### The panel's latch and index register (R150, R151) -/

/-- R150: without a rise of D_WR from 0 to 1 the panel latches nothing. -/
theorem latched_of_no_rise {before after : Lines} (h : before.dWr = some 0#1 → after.dWr ≠ some 1#1) :
    latched before after = none := if_neg fun hrise => h hrise.1 hrise.2.1

/-- Settles O12: the sixth drive latches (`cycle_latches`); the fifth takes D_WR to 0 and the others leave it as it
is. -/
theorem cycleLatchesOnce : Obligations.CycleLatchesOnce := by
  intro rs v s s1 s2 s3 s4 s5 s6 s7
  have hstays : ∀ {l l' : Lines}, l'.dWr = l.dWr → latched l l' = none := fun h =>
    latched_of_no_rise fun hlow hhigh => by simp [h, hlow] at hhigh
  have hfalls : latched s4.lines s5.lines = none := latched_of_no_rise fun _ hhigh => by simp [s5] at hhigh
  exact ⟨cycle_latches rs v s, hstays rfl, hstays rfl, hstays rfl, hstays rfl, hfalls, hstays rfl⟩

/-- R152 to R158: no data cycle moves P.IR. -/
theorem DataEffect.ir {inInit : Bool} {v : Word} {s : State} {p : Panel} (h : DataEffect inInit v s p) :
    p.ir = s.panel.ir := by
  cases h <;> rfl

theorem panelData_of_gramWrite {inInit : Bool} {v : Word} {s : State} (hir : s.panel.ir = some s.cfg.regGramWrite) :
    panelData inInit v s = pixelWrite v s := by
  simp only [panelData, hir, if_true]

/-- Settles O11: a command cycle is `panelCommand`, and a data cycle in GRAM write mode is the pixel write, which like
every data cycle leaves P.IR. -/
theorem panelCommandSelectsRegister : Obligations.PanelCommandSelectsRegister := by
  intro inInit v s
  have hdata : panelCycle inInit 1#1 v s = panelData inInit v s := rfl
  refine ⟨rfl, fun hir => ⟨hdata.trans (panelData_of_gramWrite hir), fun t ht => ?_⟩⟩
  obtain ⟨p, hp, rfl⟩ := panelData_eq_next (hdata.symm.trans ht)
  exact hp.ir.trans hir

/-! ### The two cycles of a register write (R140) -/

theorem emitted_afterReg (a v : Word) (p : Panel) (s : State) :
    emitted (cyclesEvents [(0#1, a), (1#1, v)]) s ((afterReg a v s).setPanel p) := by
  simp [emitted, State.trace]

theorem afterReg_sameButDisplay (a v : Word) (p : Panel) (s : State) :
    sameButDisplay s ((afterReg a v s).setPanel p) :=
  ⟨⟨rfl, rfl, rfl, rfl, rfl⟩, rfl, rfl, rfl, rfl, rfl, rfl, rfl⟩

/-- The state after a register write of `v` to `a` that the panel accepts. -/
def afterPut (a v : Word) (s : State) : State :=
  (afterReg a v s).setPanel ((afterReg a v s).panel.putRegister s.cfg a v)

theorem afterPut_registerWritten (a v : Word) (s : State) : registerWritten a v s (afterPut a v s) :=
  registerWritten_of_putRegister (s := afterReg a v s) rfl

/-- The state after a pixel write by the two cycles of a register write. -/
def afterPutPixel (w : Window) (a v : Word) (s : State) : State :=
  (afterReg a v s).setPanel ((afterReg a v s).panel.pixel s.cfg.autoInc w v)

theorem afterPutPixel_pixelWritten {s : State} {w : Window} (a v : Word) (h : pixelReady s w) :
    pixelWritten w v s (afterPutPixel w a v s) :=
  pixelWritten_afterPixel (s := panelCommand a (afterCycle 0#1 a s)) v h

/-- R155: the value cycle of a register write to REG_GRAM_WRITE. -/
theorem panelData_afterReg_pixel {inInit : Bool} {a v : Word} {w : Window} {s : State} (ha : a = s.cfg.regGramWrite)
    (h : pixelReady s w) : panelData inInit v (afterReg a v s) = .next (afterPutPixel w a v s) :=
  panelData_pixel (s := afterReg a v s) rfl (congrArg some ha) h.1 (holdsCursor_of_pixelReady h)

theorem panelData_afterReg_offPanel {inInit : Bool} {a v : Word} {s : State} (hv : s.cfg.valid = true)
    (h : offPanelFor s.cfg a v) :
    panelData inInit v (afterReg a v s) = raise (.panelValueRange s.k a v) (wrregDone a v s) :=
  panelData_of_offPanelFor (s := afterReg a v s) hv rfl h

theorem panelData_afterReg_notReady {inInit : Bool} {a v : Word} {s : State} (ha : a = s.cfg.regGramWrite)
    (h : pixelNotReady s) :
    panelData inInit v (afterReg a v s) = raise (outsideWindow s) (wrregDone a v s) :=
  panelData_of_pixelNotReady (s := afterReg a v s) v (congrArg some ha) h

/-! ### DISP.WRREG -/

theorem whenInitialised_after {op : State → Result} {s : State} (h : s.initDone = true) :
    whenInitialised op s = op s := if_pos h

theorem exec_dispWrreg_of_known {a : Word} (v : Word) {s : State} (hinit : s.initDone = true)
    (ha : a ∈ s.cfg.knownRegs) : exec (.dispWrreg a v) s = panelData false v (afterReg a v s) := by
  rw [exec, execDispWrreg, whenInitialised_after hinit, if_pos (Config.knownRegs_known ha), writeReg_eq]

theorem exec_dispWrreg_of_not_known {a : Word} (v : Word) {s : State} (hinit : s.initDone = true)
    (ha : a ∉ s.cfg.knownRegs) : exec (.dispWrreg a v) s = refuse .opaqueRegister s := by
  rw [exec, execDispWrreg, whenInitialised_after hinit, if_neg (by simpa [isKnownReg] using ha)]

/-- Settles O26: the register is one the block knows, so the two cycles run, and the panel accepts the value. -/
theorem writeRegisterWritesKnownRegister : Obligations.WriteRegisterWritesKnownRegister := by
  rintro a v s ⟨hv, hinit⟩ hon
  have hdata : panelData false v (afterReg a v s) = .next (afterPut a v s) :=
    panelData_of_onPanelFor (s := afterReg a v s) hv rfl hon
  exact ⟨afterPut a v s, (exec_dispWrreg_of_known v hinit (knownRegs_of_onPanelFor hon)).trans hdata,
    afterPut_registerWritten a v s, rfl, rfl, emitted_afterReg a v _ s, afterReg_sameButDisplay a v _ s⟩

/-- Settles O27: the index cycle puts the panel into GRAM write mode, and the value cycle is the pixel write. -/
theorem writeRegisterWritesPixel : Obligations.WriteRegisterWritesPixel := by
  rintro v w s ⟨-, hinit⟩ hready
  exact ⟨afterPutPixel w s.cfg.regGramWrite v s,
    (exec_dispWrreg_of_known v hinit (Config.regGramWrite_mem_knownRegs s.cfg)).trans
      (panelData_afterReg_pixel rfl hready),
    afterPutPixel_pixelWritten _ v hready, rfl, rfl, emitted_afterReg _ v _ s, afterReg_sameButDisplay _ v _ s⟩

/-- Settles O28: an opaque index is refused before the first cycle; each fault is the panel's reaction to the value
cycle. -/
theorem writeRegisterStops : Obligations.WriteRegisterStops := by
  intro a v s hinit
  refine ⟨fun hunknown => exec_dispWrreg_of_not_known v hinit hunknown, fun hv hoff => ?_, fun ha hnot => ?_⟩
  · rw [exec_dispWrreg_of_known v hinit (knownRegs_of_offPanelFor hoff)]
    exact panelData_afterReg_offPanel hv hoff
  · rw [exec_dispWrreg_of_known v hinit (ha ▸ Config.regGramWrite_mem_knownRegs s.cfg)]
    exact panelData_afterReg_notReady ha hnot

end Sys2Proof.Machine
end

section
/-! PROOF. DISP.INIT (42_display.md R145, R158): one pair, a sequence whose pairs the panel accepts, and any sequence
with a pair more at its end. -/

namespace Sys2Proof.Machine

open Claims

/-! ### DISP.INIT, one pair -/

/-- An acceptable pair for an index the block knows has an on-panel value (R153, R154). -/
theorem onPanelFor_of_acceptable {c : Config} {a v : Word} (h : acceptable c (a, v)) (ha : a ∈ c.knownRegs) :
    onPanelFor c a v := by
  obtain ⟨hne, hoff⟩ := h
  simp only [offPanelFor, not_or, not_and, not_le] at hoff
  obtain ⟨hx, hy⟩ := hoff
  have haxis : isXReg c a ∨ isYReg c a := by
    simp only [Config.knownRegs, List.mem_cons, List.not_mem_nil, or_false] at ha
    unfold isXReg isYReg
    tauto
  exact haxis.imp (fun h => ⟨h, hx h⟩) (fun h => ⟨h, hy h⟩)

theorem Panel.putRegister_of_not_known {c : Config} {a : Word} (v : Word) (p : Panel) (ha : a ∉ c.knownRegs) :
    p.putRegister c a v = p.regWrite a v := by
  simp only [Config.knownRegs, List.mem_cons, not_or] at ha
  obtain ⟨-, -, -, -, hx, hy, -⟩ := ha
  simp only [Panel.putRegister, hx, hy, if_false]
  rfl

/-- Inside DISP.INIT the panel takes an acceptable pair, opaque or not (R153, R154, R158). -/
theorem panelData_of_acceptable {a v : Word} {s : State} (hv : s.cfg.valid = true) (h : acceptable s.cfg (a, v)) :
    panelData true v (afterReg a v s) = .next (afterPut a v s) := by
  by_cases ha : a ∈ s.cfg.knownRegs
  · exact panelData_of_onPanelFor (s := afterReg a v s) hv rfl (onPanelFor_of_acceptable h ha)
  · rw [afterPut, Panel.putRegister_of_not_known v _ ha]
    exact panelData_config (s := afterReg a v s) rfl ha

theorem sendInit_singleton (a v : Word) (s : State) : sendInit [(a, v)] s = panelData true v (afterReg a v s) := by
  rw [← writeReg_eq, sendInit]
  cases writeReg true a v s <;> rfl

/-! ### DISP.INIT, a sequence of acceptable pairs -/

theorem lastValue_concat (pairs : List (Word × Word)) (b v a : Word) :
    lastValue (pairs ++ [(b, v)]) a = if a = b then some v else lastValue pairs a := by
  by_cases h : a = b
  · simp [lastValue, h]
  · simp [lastValue, h, Ne.symm h]

/-- A cursor follows the last value of its register, or stays (R154). -/
theorem lastValue_concat_toNat (pairs : List (Word × Word)) (b v a : Word) (old : Option Nat) :
    ((lastValue (pairs ++ [(b, v)]) a).map BitVec.toNat).or old =
      if b = a then some v.toNat else ((lastValue pairs a).map BitVec.toNat).or old := by
  rw [lastValue_concat]
  by_cases h : b = a
  · simp [h]
  · simp [h, Ne.symm h]

/-- What a sequence of acceptable pairs has done (R145): as `Obligations.InitSendsSequence` says it, S.initDone
aside. -/
structure SentPairs (pairs : List (Word × Word)) (s t : State) : Prop where
  emits : emitted (cyclesEvents (pairsCycles pairs)) s t
  regAt : ∀ a, t.panel.regAt a = (lastValue pairs a).or (s.panel.regAt a)
  ir : t.panel.ir = (pairs.getLast?.map Prod.fst).or s.panel.ir
  cx : t.panel.cx = ((lastValue pairs s.cfg.regGramX).map BitVec.toNat).or s.panel.cx
  cy : t.panel.cy = ((lastValue pairs s.cfg.regGramY).map BitVec.toNat).or s.panel.cy
  lines : t.lines = (match pairs.getLast? with
    | none => s.lines
    | some p => s.lines.afterCycle 1#1 p.2)
  gram : sameGram s t
  frame : sameButDisplay s t

theorem SentPairs.nil (s : State) : SentPairs [] s s where
  emits := by simp [emitted, pairsCycles, cyclesEvents]
  regAt _ := rfl
  ir := rfl
  cx := rfl
  cy := rfl
  lines := rfl
  gram _ _ _ _ := rfl
  frame := sameButDisplay_refl s

theorem emitted_trans {es fs : List Event} {s t u : State} (h : emitted es s t) (h' : emitted fs t u) :
    emitted (es ++ fs) s u := by
  unfold emitted at *
  rw [h', h, List.append_assoc]

theorem SentPairs.concat {pairs : List (Word × Word)} {s t : State} (a v : Word) (h : SentPairs pairs s t) :
    SentPairs (pairs ++ [(a, v)]) s (afterPut a v t) := by
  obtain ⟨hreg, hother, hgram, hcx, hcy⟩ := afterPut_registerWritten a v t
  obtain ⟨⟨hcfg, -⟩, -, -, -, -, htouch⟩ := h.frame
  constructor
  case emits =>
    have hpair : emitted _ t (afterPut a v t) := emitted_afterReg a v _ t
    simpa [pairsCycles, cyclesEvents] using emitted_trans h.emits hpair
  case regAt =>
    intro b
    rw [lastValue_concat]
    by_cases hb : b = a
    · rw [if_pos hb, hb, hreg]
      rfl
    · rw [if_neg hb, hother b (by simpa using hb), h.regAt]
  case ir =>
    rw [List.getLast?_concat]
    rfl
  case cx =>
    rw [lastValue_concat_toNat, hcx, hcfg, h.cx]
  case cy =>
    rw [lastValue_concat_toNat, hcy, hcfg, h.cy]
  case lines =>
    rw [List.getLast?_concat]
    exact Lines.afterCycle_of_sameTouch 1#1 v htouch
  case gram =>
    intro x yd hx hy
    rw [hgram x yd hx hy, h.gram x yd hx hy]
  case frame => exact sameButDisplay_trans h.frame (afterReg_sameButDisplay a v _ t)

/-- A sequence of acceptable pairs is sent to its end, by induction on its last pair. -/
theorem sendInit_of_acceptable {pairs : List (Word × Word)} {s : State} (hv : s.cfg.valid = true)
    (h : ∀ p ∈ pairs, acceptable s.cfg p) : ∃ t, sendInit pairs s = .next t ∧ SentPairs pairs s t := by
  induction pairs using List.reverseRecOn with
  | nil => exact ⟨s, rfl, SentPairs.nil s⟩
  | append_singleton pairs p ih =>
    obtain ⟨a, v⟩ := p
    obtain ⟨t, ht, hsent⟩ := ih fun q hq => h q (List.mem_append_left _ hq)
    obtain ⟨⟨hcfg, -⟩, -⟩ := hsent.frame
    have hlast : acceptable t.cfg (a, v) := hcfg ▸ h (a, v) (by simp)
    refine ⟨afterPut a v t, ?_, hsent.concat a v⟩
    rw [sendInit_append, ht, andThen_next, sendInit_singleton, panelData_of_acceptable (hcfg ▸ hv) hlast]

/-- Settles O24: the sequence is sent pair by pair, and S.initDone is set at its end. -/
theorem initSendsSequence : Obligations.InitSendsSequence := by
  intro s hv hseq
  obtain ⟨t, ht, hsent⟩ := sendInit_of_acceptable hv hseq
  obtain ⟨hcontrol, hstatus, -, hreturned, henv, -⟩ := hsent.frame
  have hexec : exec .dispInit s = .next (t.setInitDone true) := by
    rw [exec, execDispInit, ht, andThen_next]
  exact ⟨t.setInitDone true, hexec, rfl, hsent.emits, hsent.regAt, hsent.ir, hsent.cx, hsent.cy, hsent.lines,
    hsent.gram, hcontrol, hstatus, hreturned, henv⟩

/-! ### DISP.INIT, any sequence with a pair more -/

/-- DISP.INIT that completes has sent its sequence, which leaves S.initDone as it was (R145). -/
theorem sendInit_of_exec_dispInit {s u : State} (h : exec .dispInit s = .next u) :
    sendInit s.cfg.initSeq s = .next (u.setInitDone s.initDone) ∧ u.initDone = true := by
  obtain ⟨t, ht, hu⟩ := andThen_eq_next h
  have hworks := sendInit_works s.cfg.initSeq s
  rw [ht] at hworks
  obtain ⟨-, -, hinit, -⟩ := DisplayMoves.sameButDisplay hworks
  obtain rfl : t.setInitDone true = u := by simpa using hu
  rw [ht, ← hinit]
  exact ⟨rfl, rfl⟩

/-- Where the last pair of the INIT_SEQ `seq` begins, when DISP.INIT of the pairs before it takes `s` to `u`: S.initDone
is not yet set. -/
def lastPairStart (seq : List (Word × Word)) (s u : State) : State := (withInitSeq seq u).setInitDone s.initDone

/-- DISP.INIT with a pair more at the end: what it did without the pair, and then the two cycles of the pair and the
panel's reaction. -/
theorem exec_dispInit_concat {s u : State} {before : List (Word × Word)} (a v : Word) (hv : s.cfg.valid = true)
    (h : exec .dispInit (withInitSeq before s) = .next u) :
    exec .dispInit (withInitSeq (before ++ [(a, v)]) s) =
      andThen (panelData true v (afterReg a v (lastPairStart (before ++ [(a, v)]) s u)))
        fun t => .next (t.setInitDone true) := by
  have hsent := sendInit_withInitSeq (s := withInitSeq before s) (before ++ [(a, v)]) hv
    (sendInit_of_exec_dispInit h).1
  rw [exec, execDispInit]
  refine congrArg (andThen · _) ?_
  rw [← sendInit_singleton]
  exact (sendInit_append before [(a, v)] _).trans (congrArg (andThen · _) hsent)

theorem State.setInitDone_self {b : Bool} {s : State} (h : s.initDone = b) : s.setInitDone b = s := by
  subst h
  rfl

/-- Where the panel takes the last pair, DISP.INIT completes with S.initDone set, as it was before the pair. -/
theorem exec_dispInit_concat_next {s u : State} {before : List (Word × Word)} {a v : Word} {p : Panel}
    (hv : s.cfg.valid = true) (h : exec .dispInit (withInitSeq before s) = .next u)
    (hdata : panelData true v (afterReg a v (lastPairStart (before ++ [(a, v)]) s u)) =
      .next ((afterReg a v (lastPairStart (before ++ [(a, v)]) s u)).setPanel p)) :
    exec .dispInit (withInitSeq (before ++ [(a, v)]) s) =
      .next ((afterReg a v (withInitSeq (before ++ [(a, v)]) u)).setPanel p) := by
  have hdone : ((afterReg a v (withInitSeq (before ++ [(a, v)]) u)).setPanel p).initDone = true :=
    (sendInit_of_exec_dispInit h).2
  rw [exec_dispInit_concat a v hv h, hdata, andThen_next, ← State.setInitDone_self hdone]
  rfl

/-- Where the panel faults on the last pair, so does DISP.INIT, S.initDone as it was (60_exceptions.md R220). -/
theorem exec_dispInit_concat_raise {s u : State} {before : List (Word × Word)} {a v : Word} {r : FaultRecord}
    (hv : s.cfg.valid = true) (h : exec .dispInit (withInitSeq before s) = .next u)
    (hdata : panelData true v (afterReg a v (lastPairStart (before ++ [(a, v)]) s u)) =
      raise r (wrregDone a v (lastPairStart (before ++ [(a, v)]) s u))) :
    exec .dispInit (withInitSeq (before ++ [(a, v)]) s) =
      raise r (wrregDone a v (lastPairStart (before ++ [(a, v)]) s u)) :=
  (exec_dispInit_concat a v hv h).trans (congrArg (andThen · _) hdata)

/-- Settles O25: the sequence with the pair more comes to the panel's reaction to that pair (`exec_dispInit_concat`),
which writes the register or the pixel, or faults. -/
theorem initSendsEachPairInOrder : Obligations.InitSendsEachPairInOrder := by
  intro s before a v hv
  refine ⟨rfl, ?_⟩
  intro u hu seq u'
  obtain ⟨hcfg, -, hk, -, -⟩ := exec_next_sameControl hu
  replace hk : u.k = s.k := hk
  have hcfg' : u'.cfg = (withInitSeq seq s).cfg := congrArg (fun c => { c with initSeq := seq }) hcfg
  have hv' : u'.cfg.valid = true := (congrArg Config.valid hcfg').trans hv
  refine ⟨fun hacc => ?_, fun w ha hready => ?_, fun hoff => ?_, fun ha hnot => ?_⟩
  · have hacc' : acceptable u'.cfg (a, v) := hcfg' ▸ hacc
    exact ⟨afterPut a v u', exec_dispInit_concat_next hv hu (panelData_of_acceptable hv' hacc'),
      afterPut_registerWritten a v u', rfl, rfl, emitted_afterReg a v _ u', afterReg_sameButDisplay a v _ u'⟩
  · have ha' : a = u'.cfg.regGramWrite := hcfg' ▸ ha
    exact ⟨afterPutPixel w a v u', exec_dispInit_concat_next hv hu (panelData_afterReg_pixel ha' hready),
      afterPutPixel_pixelWritten a v hready, rfl, rfl, emitted_afterReg a v _ u', afterReg_sameButDisplay a v _ u'⟩
  · have hoff' : offPanelFor u'.cfg a v := hcfg' ▸ hoff
    rw [exec_dispInit_concat_raise hv hu (panelData_afterReg_offPanel hv' hoff'), ← hk]
    rfl
  · have ha' : a = u'.cfg.regGramWrite := hcfg' ▸ ha
    rw [exec_dispInit_concat_raise hv hu (panelData_afterReg_notReady ha' hnot), ← hk]
    rfl

end Sys2Proof.Machine
end

section
/-! PROOF. DISP.SETWIN, DISP.WRPIX and DISP.FILL (42_display.md R141 to R143): setWindow, one pixel write, and as many
pixel writes as the window has cells (R156). -/

namespace Sys2Proof.Machine

open Claims

/-! ### DISP.SETWIN -/

theorem windowOnPanel_iff {x1 y1 x2 y2 : Int} :
    windowOnPanel x1 y1 x2 y2 = true ↔ 0 ≤ x1 ∧ x1 ≤ x2 ∧ x2 ≤ 239 ∧ 0 ≤ y1 ∧ y1 ≤ y2 ∧ y2 ≤ 319 :=
  decide_eq_true_iff

theorem exec_dispSetwin_after {x1 y1 x2 y2 : Int} {s : State} (h : s.initDone = true) :
    exec (.dispSetwin x1 y1 x2 y2) s = setWindow x1 y1 x2 y2 s := whenInitialised_after h

/-- Settles O30: the check of the window comes before the first cycle. -/
theorem setWindowRejectsInvalidWindow : Obligations.SetWindowRejectsInvalidWindow := by
  intro x1 y1 x2 y2 s hinit hbad
  exact (exec_dispSetwin_after hinit).trans (if_neg fun hw => hbad (windowOnPanel_iff.mp hw))

theorem coordWord_natCast (n : Nat) : coordWord n = BitVec.ofNat 16 n := BitVec.ofInt_natCast 16 n

theorem toNat_ofNat_of_le {n bound : Nat} (h : n ≤ bound) (hb : bound < 65536) : (BitVec.ofNat 16 n).toNat = n :=
  (BitVec.toNat_ofNat n 16).trans (Nat.mod_eq_of_lt (h.trans_lt hb))

/-- setWindow of a window given by natural coordinates on the panel (R141). -/
theorem setWindow_natCast {x1 y1 x2 y2 : Nat} {s : State} (hv : s.cfg.valid = true) (hx : x1 ≤ x2) (hx2 : x2 ≤ 239)
    (hy : y1 ≤ y2) (hy2 : y2 ≤ 319) :
    setWindow x1 y1 x2 y2 s = .next (afterWindow (BitVec.ofNat 16 x1) (BitVec.ofNat 16 y1) (BitVec.ofNat 16 x2)
      (BitVec.ofNat 16 y2) s) := by
  rw [setWindow_eq hv (windowOnPanel_iff.mpr (by omega))]
  simp only [coordWord_natCast]

theorem afterWindow_windowAt {x1 y1 x2 y2 : Nat} {s : State} (hv : s.cfg.valid = true) (hx : x1 ≤ x2)
    (hx2 : x2 ≤ 239) (hy : y1 ≤ y2) (hy2 : y2 ≤ 319) :
    windowAt (afterWindow (BitVec.ofNat 16 x1) (BitVec.ofNat 16 y1) (BitVec.ofNat 16 x2) (BitVec.ofNat 16 y2) s)
      x1 x2 y1 y2 x1 y1 := by
  refine ⟨?_, rfl⟩
  rw [afterWindow_window hv, toNat_ofNat_of_le (hx.trans hx2) (by decide), toNat_ofNat_of_le hx2 (by decide),
    toNat_ofNat_of_le (hy.trans hy2) (by decide), toNat_ofNat_of_le hy2 (by decide)]

theorem afterWindow_emitted (x1 y1 x2 y2 : Word) (s : State) :
    emitted (cyclesEvents (windowCycles s.cfg x1 y1 x2 y2)) s (afterWindow x1 y1 x2 y2 s) := by
  simp [emitted, State.trace]

theorem afterWindow_sameButDisplay (x1 y1 x2 y2 : Word) (s : State) :
    sameButDisplay s (afterWindow x1 y1 x2 y2 s) :=
  ⟨⟨rfl, rfl, rfl, rfl, rfl⟩, rfl, rfl, rfl, rfl, rfl, rfl, rfl⟩

/-- Settles O29: the thirteen cycles of setWindow leave the window of `afterWindow`, whose last two register writes are
the cursor's. -/
theorem setWindowProgramsWindow : Obligations.SetWindowProgramsWindow := by
  rintro x1 y1 x2 y2 s ⟨hv, hinit⟩ hx hx2 hy hy2
  refine ⟨_, (exec_dispSetwin_after hinit).trans (setWindow_natCast hv hx hx2 hy hy2),
    afterWindow_windowAt hv hx hx2 hy hy2, ?_, ?_, afterWindow_emitted _ _ _ _ s, rfl, fun _ _ _ _ => rfl,
    fun a ha => afterWindow_regs ha, afterWindow_sameButDisplay _ _ _ _ s⟩
  · rw [afterWindow_panel, Panel.afterWindow_regAt, if_neg (Config.gramY_ne_gramX hv).symm, if_pos rfl]
  · rw [afterWindow_panel, Panel.afterWindow_regAt, if_pos rfl]

/-! ### DISP.WRPIX -/

theorem exec_dispWrpix_after {color : Word} {s : State} (h : s.initDone = true) :
    exec (.dispWrpix color) s = writePixel color s := whenInitialised_after h

theorem writePixel_of_gramWrite (color : Word) {s : State} (hir : s.panel.ir = some s.cfg.regGramWrite) :
    writePixel color s = panelData false color (afterCycle 1#1 color s) := by
  rw [writePixel, if_pos hir, cycle_data]

/-- Settles O31: P.IR is checked before the cycle; in GRAM write mode the cycle's reaction writes the pixel or
faults. -/
theorem writePixelWritesAtCursor : Obligations.WritePixelWritesAtCursor := by
  intro color s hinit
  rw [exec_dispWrpix_after hinit]
  refine ⟨fun w hir hready => ?_, fun hir => if_neg hir, fun hir hnot => ?_⟩
  · exact ⟨afterPixel w color s, writePixel_eq hir hready.1 (holdsCursor_of_pixelReady hready),
      pixelWritten_afterPixel color hready, rfl, rfl, emitted_afterCycle 1#1 color _ s,
      afterPixel_sameButDisplay w color s⟩
  · rw [writePixel_of_gramWrite color hir]
    exact panelData_of_pixelNotReady (s := afterCycle 1#1 color s) color hir hnot

/-! ### Sweeps and DISP.FILL -/

theorem Window.index_of_start {w : Window} (o : AutoInc) (hx : w.cx = w.hsa) (hy : w.cy = w.vsa) : w.index o = 0 := by
  cases o <;> simp [Window.index, hx, hy]

/-- R157, of a window that is ordered: the cursor at a cell is in it when the cell is. -/
theorem Window.withCursor_holdsCursor_iff {w : Window} (h : w.holdsCursor = true) {x y : Nat} :
    (w.withCursor x y).holdsCursor = true ↔ w.hsa ≤ x ∧ x ≤ w.hea ∧ w.vsa ≤ y ∧ y ≤ w.vea := by
  obtain ⟨hx, hy, -⟩ := Window.holdsCursor_iff.mp h
  rw [Window.holdsCursor_iff]
  exact ⟨fun hc => hc.2.2, fun hc => ⟨hx, hy, hc⟩⟩

theorem Window.withCursor_index_lt {w : Window} (o : AutoInc) {x y : Nat}
    (h : (w.withCursor x y).holdsCursor = true) : (w.withCursor x y).index o < w.area := Window.index_lt o h

/-- GRAM after a sweep from the start: every cell of the window has its turn (R156). -/
theorem afterPixels_area_gram {color : Word} {w : Window} {s : State} (h : w.holdsCursor = true)
    (hwidth : w.hea < WIDTH) (hheight : w.vea < HEIGHT) (hx : w.cx = w.hsa) (hy : w.cy = w.vsa) {x yd : Nat}
    (hx' : x < WIDTH) (hy' : yd < HEIGHT) :
    (afterPixels color w.area w s).panel.gramAt x yd =
      if w.hsa ≤ x ∧ x ≤ w.hea ∧ w.vsa ≤ yd ∧ yd ≤ w.vea then some color else s.panel.gramAt x yd := by
  have hstart : w.index s.cfg.autoInc = 0 := Window.index_of_start _ hx hy
  refine (afterPixels_gram w.area h hwidth hheight (by omega) hx' hy').trans (if_congr ?_ rfl rfl)
  rw [Window.withCursor_holdsCursor_iff h, hstart, Nat.zero_add]
  refine ⟨fun hc => hc.1, fun hc => ⟨hc, Nat.zero_le _, ?_⟩⟩
  exact Window.withCursor_index_lt _ ((Window.withCursor_holdsCursor_iff h).mpr hc)

theorem Window.eq_of_fields {u w : Window} (hhsa : u.hsa = w.hsa) (hhea : u.hea = w.hea) (hvsa : u.vsa = w.vsa)
    (hvea : u.vea = w.vea) (hcx : u.cx = w.cx) (hcy : u.cy = w.cy) : u = w := by
  cases u
  cases w
  simp_all only

/-- As many writes as the window has cells bring the cursor from the start back to the start (R156). -/
theorem Window.advances_area {w : Window} (o : AutoInc) (h : w.holdsCursor = true) (hx : w.cx = w.hsa)
    (hy : w.cy = w.vsa) : Window.advances o w.area w = w.withCursor w.hsa w.vsa := by
  have hstart : w.index o = 0 := Window.index_of_start o hx hy
  have hindex : (Window.advances o w.area w).index o = 0 := by
    rw [Window.advances_index o w.area h (by omega), if_pos (by omega)]
  obtain ⟨hhsa, hhea, hvsa, hvea⟩ := Window.advances_fields o w.area w
  obtain ⟨hcx, hcy⟩ := Window.index_zero o (Window.advances_holdsCursor o w.area h) hindex
  exact Window.eq_of_fields hhsa hhea hvsa hvea (hcx.trans hhsa) (hcy.trans hvsa)

/-- What a sweep does (R143, R156): as `Obligations.PixelSweepFillsWindow` says it, of a window of `n` cells. -/
theorem repeatPixel_sweep {color : Word} {w : Window} {s : State} {n : Nat} (hn : w.area = n)
    (hir : s.panel.ir = some s.cfg.regGramWrite) (hready : pixelReady s w) (hx : w.cx = w.hsa) (hy : w.cy = w.vsa) :
    ∃ t, repeatPixel color n s = .next t
      ∧ (∀ x yd, x < WIDTH → yd < HEIGHT →
          t.panel.gramAt x yd =
            if w.hsa ≤ x ∧ x ≤ w.hea ∧ w.vsa ≤ yd ∧ yd ≤ w.vea then some color else s.panel.gramAt x yd)
      ∧ windowAt t w.hsa w.hea w.vsa w.vea w.hsa w.vsa
      ∧ emitted (List.replicate n (cycleEvents 1#1 color)).flatten s t
      ∧ t.lines = s.lines.afterCycle 1#1 color ∧ sameRegsBut [] s t ∧ sameButDisplay s t := by
  subst hn
  have hin : w.holdsCursor = true := holdsCursor_of_pixelReady hready
  obtain ⟨hw, -, -, hwidth, -, -, hheight⟩ := hready
  obtain ⟨hframe, hreg, hir'⟩ := afterPixels_frame color w.area w s
  refine ⟨afterPixels color w.area w s, repeatPixel_eq w.area hir hw hin,
    fun x yd hx' hy' => afterPixels_area_gram hin hwidth hheight hx hy hx' hy', ⟨?_, ?_⟩,
    afterPixels_events color w.area w s, afterPixels_lines color _ w s, fun a _ => ?_, hframe⟩
  · rw [afterPixels_window w.area hw, Window.advances_area s.cfg.autoInc hin hx hy]
    rfl
  · rw [hir', hir, afterPixels_cfg]
  · rw [Panel.regAt, hreg, Panel.regAt]

/-- Settles O32: the sweep, of as many writes as the window has cells. -/
theorem pixelSweepFillsWindow : Obligations.PixelSweepFillsWindow := fun _ _ _ hir hready hx hy =>
  repeatPixel_sweep rfl hir hready hx hy

theorem exec_dispFill_after {color : Word} {s : State} (h : s.initDone = true) :
    exec (.dispFill color) s = andThen (setWindow 0 0 239 319 s) (repeatPixel color 76800) := by
  rw [exec, execDispFill, whenInitialised_after h]
  rfl

/-- Settles O33: setWindow makes the whole panel the window, and the sweep fills it. -/
theorem fillPaintsWholePanel : Obligations.FillPaintsWholePanel := by
  rintro color s ⟨hv, hinit⟩
  have hset : setWindow 0 0 239 319 s = .next (afterWindow 0 0 239 319 s) :=
    setWindow_natCast (x1 := 0) (y1 := 0) (x2 := 239) (y2 := 319) hv (by decide) le_rfl (by decide) le_rfl
  obtain ⟨hwindow, hir⟩ : windowAt (afterWindow 0 0 239 319 s) 0 239 0 319 0 0 :=
    afterWindow_windowAt (x1 := 0) (y1 := 0) (x2 := 239) (y2 := 319) hv (by decide) le_rfl (by decide) le_rfl
  obtain ⟨t, ht, hgram, hat, hevents, hlines, hregs, hframe⟩ :=
    repeatPixel_sweep (color := color) (n := 76800) (by decide) hir ⟨hwindow, by decide⟩ rfl rfl
  refine ⟨t, ?_, fun x yd hx hy => ?_, hat, emitted_trans (afterWindow_emitted 0 0 239 319 s) hevents, hlines,
    fun a ha => ?_, sameButDisplay_trans (afterWindow_sameButDisplay _ _ _ _ s) hframe⟩
  · rw [exec_dispFill_after hinit, hset, andThen_next, ht]
  · rw [hgram x yd hx hy, if_pos ⟨Nat.zero_le x, Nat.le_of_lt_succ hx, Nat.zero_le yd, Nat.le_of_lt_succ hy⟩]
  · rw [hregs a List.not_mem_nil, afterWindow_panel, afterWindow_regs ha]

end Sys2Proof.Machine
end

section
/-! PROOF. RAST.PIXEL, RAST.LINE and RAST.BLOCK as RAST.PIXEL calls (43_raster.md R170 to R172, R174): each completes in
the state of `afterDots`. -/

namespace Sys2Proof.Machine

open Claims

/-! ### RAST.PIXEL -/

theorem inBounds_iff {x y : Int} : inBounds x y = true ↔ 0 ≤ x ∧ x ≤ 239 ∧ 0 ≤ y ∧ y ≤ 319 := decide_eq_true_iff

theorem exec_rastPixel_after {x y : Int} {color : Word} {s : State} (h : s.initDone = true) :
    exec (.rastPixel x y color) s = drawDot ⟨x, y, color⟩ s := whenInitialised_after h

/-- Settles O36: the bounds are checked before the first cycle. -/
theorem pixelOutOfBoundsDoesNothing : Obligations.PixelOutOfBoundsDoesNothing := by
  intro x y color s hinit hout
  exact (exec_rastPixel_after hinit).trans (if_neg fun hb => hout (inBounds_iff.mp hb))

/-- The device row of a logical row on the panel (R170). -/
theorem deviceRow_natCast {y : Nat} (hy : y ≤ 319) : deviceRow y = ((319 - y : Nat) : Int) := by
  simp only [deviceRow, HEIGHT]
  omega

theorem dotCycles_natCast (c : Config) {x y : Nat} (color : Word) (hy : y ≤ 319) :
    dotCycles c ⟨x, y, color⟩ =
      windowCycles c (BitVec.ofNat 16 x) (BitVec.ofNat 16 (319 - y)) (BitVec.ofNat 16 x) (BitVec.ofNat 16 (319 - y))
        ++ [(1#1, color)] := by
  simp only [dotCycles, deviceRow_natCast hy, coordWord_natCast]

theorem afterDot_emitted {d : Dot} {s : State} (hb : inBounds d.x d.y = true) :
    emitted (cyclesEvents (dotCycles s.cfg d)) s (afterDot d s) := by
  simp [afterDot, hb, emitted, State.trace]

theorem afterDot_lines {d : Dot} {s : State} (hb : inBounds d.x d.y = true) :
    (afterDot d s).lines = s.lines.afterCycle 1#1 d.color := by
  rw [afterDot, if_pos hb]

/-- Settles O35: in bounds the call is setWindow of the one cell and a pixel write (`drawDot_eq`). -/
theorem pixelInBoundsWritesOneCell : Obligations.PixelInBoundsWritesOneCell := by
  rintro x y color s ⟨hv, hinit⟩ hx hy
  have hb : inBounds (x : Int) (y : Int) = true := inBounds_iff.mpr (by omega)
  have hwindow := afterDot_window (d := ⟨x, y, color⟩) hv hb
  have hevents := afterDot_emitted (d := ⟨x, y, color⟩) (s := s) hb
  rw [deviceRow_natCast hy] at hwindow
  rw [dotCycles_natCast s.cfg color hy] at hevents
  refine ⟨afterDot ⟨x, y, color⟩ s, (exec_rastPixel_after hinit).trans (drawDot_eq hv), fun x' yd hx' hy' => ?_,
    hwindow, hevents, afterDot_lines hb, afterDot_regs _ s, afterDot_sameButDisplay _ s⟩
  refine (afterDot_gramAt hx' hy').trans (if_congr ?_ rfl rfl)
  simp only [HEIGHT] at hy' ⊢
  omega

/-! ### Several calls: RAST.LINE and RAST.BLOCK -/

/-- What `Claims.drawn` says, of any RAST.PIXEL calls. -/
theorem afterDots_drawn (ds : List Dot) {s : State} (hv : s.cfg.valid = true) : drawn ds s (afterDots ds s) :=
  afterDots_outcome ds hv

theorem exec_rastLine_after {x1 y1 x2 y2 : Int} {color : Word} {s : State} (h : drawReady s) :
    exec (.rastLine x1 y1 x2 y2 color) s = .next (afterDots (dotsOf color (linePoints x1 y1 x2 y2)) s) :=
  (whenInitialised_after h.2).trans (drawDots_eq h.1)

theorem exec_rastBlock_after {x y : Int} {color : Word} {scale : Nat} {s : State} (h : drawReady s) :
    exec (.rastBlock x y color scale) s = .next (afterDots (blockDots x y color scale) s) :=
  (whenInitialised_after h.2).trans (drawDots_eq h.1)

/-- Settles O37: the line is the calls of its points. -/
theorem lineDrawsItsPoints : Obligations.LineDrawsItsPoints := fun _ _ _ _ _ s hready =>
  ⟨_, exec_rastLine_after hready, afterDots_drawn _ hready.1, afterDots_sameButDisplay _ s⟩

/-- GRAM after the calls of a block: they land on its square, all in one colour (R174). -/
theorem afterDots_block_gramAt {x y : Int} {color : Word} {scale : Nat} {s : State} {x' yd : Nat} (hx : x' < WIDTH)
    (hy : yd < HEIGHT) :
    (afterDots (blockDots x y color scale) s).panel.gramAt x' yd =
      if x ≤ (x' : Int) ∧ (x' : Int) < x + scale ∧ y ≤ 319 - (yd : Int) ∧ 319 - (yd : Int) < y + scale
      then some color else s.panel.gramAt x' yd := by
  split
  · next hin => exact afterDots_gram_color hx hy (lands_block.mpr hin) fun d hd _ _ => (mem_blockDots.mp hd).1
  · next hout => exact afterDots_gram_other hx hy fun hl => hout (lands_block.mp hl)

/-- Settles O42: the block is the calls of its square; a square of no points makes no call. -/
theorem blockFillsSquare : Obligations.BlockFillsSquare := by
  intro x y color scale s hready
  refine ⟨_, exec_rastBlock_after hready, fun x' yd hx hy => afterDots_block_gramAt hx hy,
    afterDots_drawn _ hready.1, afterDots_sameButDisplay _ s, ?_⟩
  rintro rfl
  rfl

end Sys2Proof.Machine
end

section
/-! PROOF. The points of RAST.LINE (43_raster.md R172, R173): swapping the endpoints leaves them, and along the major
axis they are given in closed form by `minorSteps`. -/

namespace Sys2Proof.Machine

/-! ### Swapped endpoints -/

theorem Segment.dx_swap (g : Segment) : g.swap.dx = g.dx := by simp only [Segment.dx, Segment.swap]; omega

theorem Segment.dy_swap (g : Segment) : g.swap.dy = g.dy := by simp only [Segment.dy, Segment.swap]; omega

theorem Segment.swap_swap (g : Segment) : g.swap.swap = g := rfl

/-- An x-major segment whose endpoints share their column is a single point. -/
theorem Segment.swap_of_point {g : Segment} (hmajor : g.dy ≤ g.dx) (hx : g.x1 = g.x2) : g.swap = g := by
  obtain ⟨x1, y1, x2, y2⟩ := g
  simp only [Segment.dx, Segment.dy] at hmajor hx
  obtain rfl : y1 = y2 := by omega
  rw [Segment.swap, hx]

/-- The canonical order does not depend on the order given (R172, decision D26). -/
theorem Segment.canonical_swap (g : Segment) : g.swap.canonical = g.canonical := by
  simp only [Segment.canonical, Segment.dx_swap, Segment.dy_swap, Segment.swap_swap]
  by_cases hmajor : g.dy ≤ g.dx
  · rw [if_pos hmajor, if_pos hmajor]
    rcases lt_trichotomy g.x1 g.x2 with hlt | heq | hgt
    · rw [if_pos (show g.swap.x1 > g.swap.x2 from hlt), if_neg hlt.not_gt]
    · rw [Segment.swap_of_point hmajor heq, ite_self]
    · rw [if_neg (show ¬ g.swap.x1 > g.swap.x2 from hgt.not_gt), if_pos hgt]
  · have hne : g.y1 ≠ g.y2 := by
      simp only [Segment.dx, Segment.dy] at hmajor
      omega
    rw [if_neg hmajor, if_neg hmajor]
    rcases hne.lt_or_gt with hlt | hgt
    · rw [if_pos (show g.swap.y1 > g.swap.y2 from hlt), if_neg hlt.not_gt]
    · rw [if_neg (show ¬ g.swap.y1 > g.swap.y2 from hgt.not_gt), if_pos hgt]

theorem linePoints_swap (x1 y1 x2 y2 : Int) : linePoints x2 y2 x1 y1 = linePoints x1 y1 x2 y2 :=
  congrArg Segment.walkPoints (Segment.canonical_swap ⟨x1, y1, x2, y2⟩)

/-- Settles O38: the same points in the same order, so the same calls. -/
theorem lineIsDirectionSymmetric : Obligations.LineIsDirectionSymmetric := by
  intro x1 y1 x2 y2 color s
  simp only [exec, execRastLine, linePoints_swap x1 y1 x2 y2]

/-! ### The closed form -/

/-- The points of a line that rises by one along its major axis, (major, minor) coordinates, in order (R173 (c)). -/
def runPoints (dMajor dMinor stepMinor major minor : Int) : List (Int × Int) :=
  (List.range (dMajor.toNat + 1)).map fun (n : Nat) =>
    (major + n, minor + stepMinor * minorSteps dMajor dMinor n)

/-- The loop of R172 along a rising major axis, from `a` to `b`, with the minor coordinates `m` apart. -/
theorem walk_eq_runPoints {a b m : Int} (hlt : a < b) (hle : |m| ≤ b - a) (stepMinor minor : Int) :
    walk (b - a).natAbs m.natAbs (stepSign a b) stepMinor ((b - a).natAbs + 1) a minor
        (2 * m.natAbs - (b - a).natAbs) = runPoints (b - a) |m| stepMinor a minor := by
  have hsign : stepSign a b = 1 := if_pos hlt.le
  have hnat : (b - a).natAbs = (b - a).toNat := by omega
  have hint : ((b - a).toNat : Int) = b - a := Int.toNat_of_nonneg (by omega)
  rw [hsign, hnat, hint, Int.natCast_natAbs, walk_closed (by omega) (abs_nonneg m) hle]
  simp only [mul_one, runPoints]

/-- The points of an x-major line given from left to right. -/
theorem linePoints_xMajor {x1 y1 x2 y2 : Int} (hlt : x1 < x2) (hle : |y2 - y1| ≤ x2 - x1) :
    linePoints x1 y1 x2 y2 = runPoints (x2 - x1) |y2 - y1| (stepSign y1 y2) x1 y1 := by
  have hmajor : Segment.dy ⟨x1, y1, x2, y2⟩ ≤ Segment.dx ⟨x1, y1, x2, y2⟩ := by
    rw [← Int.natCast_natAbs] at hle
    simp only [Segment.dx, Segment.dy]
    omega
  rw [linePoints, Segment.canonical, if_pos hmajor, if_neg hlt.not_gt, Segment.walkPoints, if_pos hmajor]
  exact walk_eq_runPoints hlt hle _ y1

/-- The points of a y-major line given upward. -/
theorem linePoints_yMajor {x1 y1 x2 y2 : Int} (hlt : y1 < y2) (hle : |x2 - x1| < y2 - y1) :
    linePoints x1 y1 x2 y2 = (runPoints (y2 - y1) |x2 - x1| (stepSign x1 x2) y1 x1).map Prod.swap := by
  have hmajor : ¬ Segment.dy ⟨x1, y1, x2, y2⟩ ≤ Segment.dx ⟨x1, y1, x2, y2⟩ := by
    rw [← Int.natCast_natAbs] at hle
    simp only [Segment.dx, Segment.dy]
    omega
  rw [linePoints, Segment.canonical, if_neg hmajor, if_neg hlt.not_gt, Segment.walkPoints, if_neg hmajor]
  exact congrArg (List.map Prod.swap) (walk_eq_runPoints hlt hle.le _ x1)

/-- Settles O39: it is `runPoints`, written out. -/
theorem xMajorLineClosedForm : Obligations.XMajorLineClosedForm := fun _ _ _ _ => linePoints_xMajor

/-- Settles O40: it is `runPoints`, written out and with the coordinates exchanged. -/
theorem yMajorLineClosedForm : Obligations.YMajorLineClosedForm := by
  intro x1 y1 x2 y2 hlt hle
  rw [linePoints_yMajor hlt hle, runPoints, List.map_map]
  rfl

/-! ### Both endpoints, and no point twice -/

/-- At the end of the major axis the loop has made every minor step. -/
theorem minorSteps_end {dMajor dMinor : Int} (h : 0 < dMajor) : minorSteps dMajor dMinor dMajor = dMinor :=
  (minorSteps_unique h (by nlinarith) (by nlinarith)).symm

theorem stepSign_mul_abs (a b : Int) : stepSign a b * |b - a| = b - a := by
  unfold stepSign
  split
  · next hle => rw [one_mul, abs_of_nonneg (sub_nonneg.mpr hle)]
  · next hgt => rw [neg_one_mul, abs_of_neg (by omega), neg_neg]

/-- R173 (a), (b), of a list of points: the endpoints `p` and `q` are among them, none twice, and the larger of the
distances of their coordinates plus one in all. -/
def spans (p q : Int × Int) (points : List (Int × Int)) : Prop :=
  p ∈ points ∧ q ∈ points ∧ points.Nodup
    ∧ points.length = max (q.1 - p.1).natAbs (q.2 - p.2).natAbs + 1

theorem spans_symm {p q : Int × Int} {points : List (Int × Int)} (h : spans p q points) : spans q p points := by
  obtain ⟨hp, hq, hnodup, hlength⟩ := h
  exact ⟨hq, hp, hnodup, by omega⟩

/-- The two axes exchanged. -/
theorem spans_map_swap {p q : Int × Int} {points : List (Int × Int)} (h : spans p q points) :
    spans p.swap q.swap (points.map Prod.swap) := by
  obtain ⟨hp, hq, hnodup, hlength⟩ := h
  refine ⟨List.mem_map_of_mem hp, List.mem_map_of_mem hq, hnodup.map Prod.swap_injective, ?_⟩
  rw [List.length_map, hlength, max_comm]
  rfl

theorem runPoints_spans {a b c d : Int} (hlt : a < b) (hle : |d - c| ≤ b - a) :
    spans (a, c) (b, d) (runPoints (b - a) |d - c| (stepSign c d) a c) := by
  have hpos : 0 < b - a := sub_pos.mpr hlt
  refine ⟨List.mem_map.mpr ⟨0, by simp, ?_⟩, List.mem_map.mpr ⟨(b - a).toNat, by simp, ?_⟩, ?_, ?_⟩
  · simp [minorSteps_zero hpos]
  · rw [Int.toNat_of_nonneg hpos.le, minorSteps_end hpos, stepSign_mul_abs, add_sub_cancel, add_sub_cancel]
  · refine List.nodup_range.map fun n m hnm => ?_
    simpa using congrArg Prod.fst hnm
  · rw [← Int.natCast_natAbs] at hle
    rw [runPoints, List.length_map, List.length_range]
    omega

/-- The endpoints as given and the endpoints swapped span the same line. -/
theorem linePoints_spans_swap {x1 y1 x2 y2 : Int} (h : spans (x2, y2) (x1, y1) (linePoints x2 y2 x1 y1)) :
    spans (x1, y1) (x2, y2) (linePoints x1 y1 x2 y2) := linePoints_swap x1 y1 x2 y2 ▸ spans_symm h

theorem linePoints_spans_xMajor {x1 y1 x2 y2 : Int} (hlt : x1 < x2) (hle : |y2 - y1| ≤ x2 - x1) :
    spans (x1, y1) (x2, y2) (linePoints x1 y1 x2 y2) := linePoints_xMajor hlt hle ▸ runPoints_spans hlt hle

theorem linePoints_spans_yMajor {x1 y1 x2 y2 : Int} (hlt : y1 < y2) (hle : |x2 - x1| < y2 - y1) :
    spans (x1, y1) (x2, y2) (linePoints x1 y1 x2 y2) :=
  linePoints_yMajor hlt hle ▸ spans_map_swap (runPoints_spans hlt hle.le)

/-- A line whose endpoints are one point. -/
theorem linePoints_self (x y : Int) : linePoints x y x y = [(x, y)] := by
  simp [linePoints, Segment.canonical, Segment.walkPoints, Segment.dx, Segment.dy, walk]

theorem linePoints_spans_self (x y : Int) : spans (x, y) (x, y) (linePoints x y x y) := by
  rw [linePoints_self]
  simp [spans]

/-- Settles O41: given in canonical order the line is `runPoints` along its major axis, or a single point; given in
the other order it is the same line. -/
theorem linePlotsBothEndpoints : Obligations.LinePlotsBothEndpoints := by
  intro x1 y1 x2 y2
  change spans (x1, y1) (x2, y2) (linePoints x1 y1 x2 y2)
  rcases le_or_gt |y2 - y1| |x2 - x1| with hx | hy
  · rcases lt_trichotomy x1 x2 with hlt | rfl | hgt
    · exact linePoints_spans_xMajor hlt (by rwa [abs_of_pos (sub_pos.mpr hlt)] at hx)
    · obtain rfl : y1 = y2 := by simpa [sub_eq_zero, eq_comm] using hx
      exact linePoints_spans_self x1 y1
    · rw [abs_sub_comm y2, abs_sub_comm x2, abs_of_pos (sub_pos.mpr hgt)] at hx
      exact linePoints_spans_swap (linePoints_spans_xMajor hgt hx)
  · rcases lt_trichotomy y1 y2 with hlt | rfl | hgt
    · exact linePoints_spans_yMajor hlt (by rwa [abs_of_pos (sub_pos.mpr hlt)] at hy)
    · rw [sub_self, abs_zero] at hy
      exact absurd hy (abs_nonneg _).not_gt
    · rw [abs_sub_comm y2, abs_sub_comm x2, abs_of_pos (sub_pos.mpr hgt)] at hy
      exact linePoints_spans_swap (linePoints_spans_yMajor hgt hy)

end Sys2Proof.Machine
end

section
/-! PROOF. TEXT.CHAR, TEXT.STRING and TEXT.STRREV (44_text.md R190 to R195): the glyph bits are bits of the font, a
character is the RAST.PIXEL calls of its blocks or STATUS bit 0, and a string is its characters at their positions. -/

namespace Sys2Proof.Machine

open Claims

/-! ### Glyphs -/

theorem inFont_iff {c : Config} {ch : Byte} :
    inFont c ch = true ↔ 0x20 ≤ ch.toNat ∧ ch.toNat - 0x20 < c.fontCount := decide_eq_true_iff

theorem glyphColumn_lt (c : Config) {k : Nat} (hk : k ≤ 4) : glyphColumn c k < GLYPH_COLS := by
  simp only [glyphColumn, GLYPH_COLS]
  split <;> omega

/-- Under a valid configuration every font byte that the rules read is one of FONT's (00_scope.md R11). -/
theorem fontRead_mem_font {c : Config} {i j : Nat} (hv : c.valid = true) (hi : i < c.fontCount) (hj : j < GLYPH_COLS) :
    ∃ entry, c.font[i]? = some entry ∧ entry[j]? = some (fontRead c i j) := by
  obtain ⟨-, hcols, hlen, -⟩ := (Config.valid_iff c).mp hv
  rw [← hlen] at hi
  have hentry : c.font[i]? = some c.font[i] := List.getElem?_eq_getElem hi
  have hj' : j < c.font[i].length := by rwa [hcols _ (List.getElem_mem hi)]
  refine ⟨c.font[i], hentry, ?_⟩
  simp [fontRead, hentry, List.getElem?_eq_getElem hj']

/-- Settles O43: column k is font byte `glyphColumn c k`, which a valid FONT holds. -/
theorem glyphBitsComeFromFont : Obligations.GlyphBitsComeFromFont := by
  intro c ch k r hv hlo hhi hk
  obtain ⟨entry, hentry, hbyte⟩ := fontRead_mem_font hv hhi (glyphColumn_lt c hk)
  exact ⟨inFont_iff.mpr ⟨hlo, hhi⟩, entry, _, hentry, hbyte, rfl⟩

/-! ### TEXT.CHAR -/

theorem drawChar_of_inFont {x y : Int} {scale : Nat} {fg bg : Word} {ch : Byte} {s : State}
    (hv : s.cfg.valid = true) (hfont : inFont s.cfg ch = true) :
    drawChar x y scale fg bg ch s = .next (afterDots (charDots s.cfg x y scale fg bg ch) s) :=
  (if_pos hfont).trans (drawDots_eq hv)

theorem drawChar_of_not_inFont {x y : Int} {scale : Nat} {fg bg : Word} {ch : Byte} {s : State}
    (hfont : ¬ inFont s.cfg ch = true) : drawChar x y scale fg bg ch s = .next (setGlyph s) := if_neg hfont

theorem exec_textChar_after {x y : Int} {scale : Nat} {fg bg : Word} {ch : Byte} {s : State} (h : s.initDone = true) :
    exec (.textChar x y scale fg bg ch) s = drawChar x y scale fg bg ch s := whenInitialised_after h

/-- Settles O45: the font is checked before the first call, at every scale. -/
theorem characterOutsideFontSetsStatus : Obligations.CharacterOutsideFontSetsStatus := by
  intro x y scale fg bg ch s hinit hout
  have hfont : ¬ inFont s.cfg ch = true := by
    rw [inFont_iff]
    omega
  exact (exec_textChar_after hinit).trans (drawChar_of_not_inFont hfont)

/-- GRAM in the block of glyph column k and row r: every call that lands there has the colour of that glyph bit. -/
theorem afterDots_charDots_gramAt_block {c : Config} {x y : Int} {scale : Nat} {fg bg : Word} {ch : Byte} {s : State}
    {x' yd k r : Nat} (hx : x' < WIDTH) (hy : yd < HEIGHT) (hk : k < 5) (hr : r < 8)
    (h1 : x + k * scale ≤ x') (h2 : (x' : Int) < x + k * scale + scale)
    (h3 : y + r * scale ≤ (HEIGHT : Int) - 1 - yd) (h4 : (HEIGHT : Int) - 1 - yd < y + r * scale + scale) :
    (afterDots (charDots c x y scale fg bg ch) s).panel.gramAt x' yd = some (if glyphBit c ch k r then fg else bg) := by
  refine afterDots_gram_color hx hy ?_ fun d hd hdx hdy => ?_
  · exact ⟨⟨x', (HEIGHT : Int) - 1 - yd, _⟩, mem_charDots.mpr ⟨k, r, hk, hr, rfl, h1, h2, h3, h4⟩, rfl, rfl⟩
  · rw [← hdx] at h1 h2
    rw [← hdy] at h3 h4
    exact charDots_color hd h1 h2 h3 h4

/-- Settles O44: the blocks are those of `mem_charDots`, and no call lands outside the rectangle (`lands_char`). -/
theorem characterDrawsGlyph : Obligations.CharacterDrawsGlyph := by
  rintro x y scale fg bg ch s ⟨hv, hinit⟩ hlo hhi
  refine ⟨_, (exec_textChar_after hinit).trans (drawChar_of_inFont hv (inFont_iff.mpr ⟨hlo, hhi⟩)),
    fun x' yd k r hx hy hk hr h1 h2 h3 h4 => ?_, fun x' yd hx hy hout => ?_,
    afterDots_drawn _ hv, afterDots_sameButDisplay _ s⟩
  · rw [add_one_mul, ← add_assoc] at h2 h4
    exact afterDots_charDots_gramAt_block hx hy (Nat.lt_succ_of_le hk) (Nat.lt_succ_of_le hr) h1 h2 h3 h4
  · exact afterDots_gram_other hx hy fun hl => hout (lands_char.mp hl)

/-! ### The positions of a string's characters -/

theorem placesFrom_eq (n : Nat) (text : List Byte) : placesFrom n text = (text.zipIdx n).map Prod.swap := by
  induction text generalizing n with
  | nil => rfl
  | cons ch rest ih => rw [placesFrom, ih, List.zipIdx_cons, List.map_cons, Prod.swap_prod_mk]

/-- A sentinel that advances leaves its position empty (R194, SENTINEL_ADVANCES true). -/
theorem skipSentinel_of_advances {c : Config} (h : c.sentinelAdvances = true) (n : Nat) (text : List Byte) :
    skipSentinel c n text = ((text.zipIdx n).filter fun p => decide (p.1 ≠ c.sentinel)).map Prod.swap := by
  induction text generalizing n with
  | nil => rfl
  | cons ch rest ih =>
    by_cases hch : ch = c.sentinel <;> simp [skipSentinel, hch, h, ih]

/-- A sentinel that does not advance takes no position (R194, SENTINEL_ADVANCES false). -/
theorem skipSentinel_of_not_advances {c : Config} (h : c.sentinelAdvances = false) (n : Nat) (text : List Byte) :
    skipSentinel c n text = ((text.filter fun b => decide (b ≠ c.sentinel)).zipIdx n).map Prod.swap := by
  induction text generalizing n with
  | nil => rfl
  | cons ch rest ih =>
    by_cases hch : ch = c.sentinel <;> simp [skipSentinel, hch, h, ih]

theorem reversedPlaces_eq (c : Config) (text : List Byte) :
    reversedPlaces c text = (reversedChars c text).map Prod.swap := by
  unfold reversedChars
  cases h : c.sentinelAdvances with
  | true => exact skipSentinel_of_advances h 0 _
  | false => exact skipSentinel_of_not_advances h 0 _

/-! ### Characters at their positions -/

/-- No RAST.PIXEL call reads or writes STATUS. -/
theorem afterDot_setStatus (d : Dot) (b : Byte) (s : State) :
    afterDot d (s.setStatus b) = (afterDot d s).setStatus b := by
  unfold afterDot
  split <;> rfl

theorem afterDots_setStatus (ds : List Dot) (b : Byte) (s : State) :
    afterDots ds (s.setStatus b) = (afterDots ds s).setStatus b := by
  induction ds generalizing s with
  | nil => rfl
  | cons d ds ih => rw [afterDots_cons, afterDot_setStatus, ih, afterDots_cons]

theorem afterDots_status (ds : List Dot) (s : State) : (afterDots ds s).status = s.status :=
  (afterDots_sameButDisplay ds s).2.1

theorem statusAfter_cons_in {c : Config} {p : Byte × Nat} (places : List (Byte × Nat)) (b : Byte)
    (h : inFont c p.1 = true) : statusAfter c (p :: places) b = statusAfter c places b := by
  rw [statusAfter, List.any_cons, h]
  rfl

theorem statusAfter_cons_out {c : Config} {p : Byte × Nat} (places : List (Byte × Nat)) (b : Byte)
    (h : ¬ inFont c p.1 = true) : statusAfter c (p :: places) b = statusAfter c places (b ||| 0x01#8) := by
  simp [statusAfter, h, BitVec.or_assoc]

theorem placesDots_cons_in {c : Config} {x y : Int} {scale : Nat} {fg bg : Word} {p : Byte × Nat}
    (places : List (Byte × Nat)) (h : inFont c p.1 = true) :
    placesDots c x y scale fg bg (p :: places) =
      charDots c (charX x p.2) y scale fg bg p.1 ++ placesDots c x y scale fg bg places := by
  rw [placesDots, List.flatMap_cons, if_pos h]
  rfl

theorem placesDots_cons_out {c : Config} {x y : Int} {scale : Nat} {fg bg : Word} {p : Byte × Nat}
    (places : List (Byte × Nat)) (h : ¬ inFont c p.1 = true) :
    placesDots c x y scale fg bg (p :: places) = placesDots c x y scale fg bg places := by
  rw [placesDots, List.flatMap_cons, if_neg h]
  rfl

/-- The state after characters are drawn at some positions (R192, R193): the calls of those in the font, and STATUS. -/
def afterPlaces (x y : Int) (scale : Nat) (fg bg : Word) (places : List (Byte × Nat)) (s : State) : State :=
  (afterDots (placesDots s.cfg x y scale fg bg places) s).setStatus (statusAfter s.cfg places s.status)

/-- Characters at their positions always complete under a valid configuration. -/
theorem drawPlaces_eq (x y : Int) (scale : Nat) (fg bg : Word) (places : List (Byte × Nat)) {s : State}
    (hv : s.cfg.valid = true) :
    drawPlaces x y scale fg bg (places.map Prod.swap) s = .next (afterPlaces x y scale fg bg places s) := by
  induction places generalizing s with
  | nil => rfl
  | cons p rest ih =>
    rw [List.map_cons, Prod.swap, drawPlaces]
    by_cases hp : inFont s.cfg p.1 = true
    · rw [drawChar_of_inFont hv hp, andThen_next, ih (by rwa [afterDots_cfg])]
      simp only [afterPlaces, afterDots_cfg, afterDots_status, placesDots_cons_in rest hp,
        statusAfter_cons_in rest _ hp, afterDots_append]
    · rw [drawChar_of_not_inFont hp, andThen_next, ih (s := setGlyph s) hv]
      simp only [afterPlaces, setGlyph, State.setStatus_cfg, State.setStatus_status, placesDots_cons_out rest hp,
        statusAfter_cons_out rest _ hp, afterDots_setStatus]
      rfl

theorem afterPlaces_placesDrawn (x y : Int) (scale : Nat) (fg bg : Word) (places : List (Byte × Nat)) {s : State}
    (hv : s.cfg.valid = true) :
    placesDrawn x y scale fg bg places s (afterPlaces x y scale fg bg places s) := by
  obtain ⟨hcontrol, -, hinit, hreturned, henv, htouch⟩ :=
    afterDots_sameButDisplay (placesDots s.cfg x y scale fg bg places) s
  exact ⟨afterDots_drawn _ hv, rfl, hcontrol, hinit, hreturned, henv, htouch⟩

/-! ### TEXT.STRING and TEXT.STRREV -/

theorem exec_textString_after {x y : Int} {scale : Nat} {fg bg : Word} {text : List Byte} {s : State}
    (h : drawReady s) :
    exec (.textString x y scale fg bg text) s =
      .next (afterPlaces x y scale fg bg (printablePrefix text).zipIdx s) := by
  rw [exec, execTextString, whenInitialised_after h.2, stringPlaces, placesFrom_eq, drawPlaces_eq _ _ _ _ _ _ h.1]

theorem exec_textStrrev_after {x y : Int} {scale : Nat} {fg bg : Word} {text : List Byte} {s : State}
    (h : drawReady s) :
    exec (.textStrrev x y scale fg bg text) s = .next (afterPlaces x y scale fg bg (reversedChars s.cfg text) s) := by
  rw [exec, execTextStrrev, whenInitialised_after h.2, reversedPlaces_eq, drawPlaces_eq _ _ _ _ _ _ h.1]

/-- Settles O46: the string is its characters up to the terminator, at their positions (`placesFrom_eq`). -/
theorem stringDrawsPrintablePrefix : Obligations.StringDrawsPrintablePrefix :=
  fun _ _ _ _ _ _ _ hready => ⟨_, exec_textString_after hready, afterPlaces_placesDrawn _ _ _ _ _ _ hready.1⟩

/-- Settles O47: skipping the sentinel while counting positions is filtering it out after numbering the characters, or
before, as SENTINEL_ADVANCES says (`reversedPlaces_eq`). -/
theorem reversedStringSkipsSentinel : Obligations.ReversedStringSkipsSentinel :=
  fun _ _ _ _ _ _ _ hready => ⟨_, exec_textStrrev_after hready, afterPlaces_placesDrawn _ _ _ _ _ _ hready.1⟩

/-- The calls of a string land on the rectangles of its characters in the font. -/
theorem lands_placesDots {c : Config} {x y : Int} {scale : Nat} {fg bg : Word} {places : List (Byte × Nat)} {a b : Int}
    (h : lands (placesDots c x y scale fg bg places) a b) :
    ∃ p ∈ places, x + 6 * (p.2 : Int) ≤ a ∧ a < x + 6 * (p.2 : Int) + 5 * scale ∧ y ≤ b ∧ b < y + 8 * scale := by
  obtain ⟨d, hd, hda, hdb⟩ := h
  obtain ⟨p, hp, hd⟩ := List.mem_flatMap.mp hd
  split at hd
  · exact ⟨p, hp, lands_char.mp ⟨d, hd, hda, hdb⟩⟩
  · exact absurd hd List.not_mem_nil

/-- Settles O48: at scale 1 a character m covers columns x + 6m to x + 6m + 4, none of which is x + 6n + 5. -/
theorem stringLeavesGapColumn : Obligations.StringLeavesGapColumn := by
  intro x y fg bg text s t n x' yd hready hexec hx hy hcol
  obtain rfl := Host.Outcome.next.inj ((exec_textString_after hready).symm.trans hexec)
  refine afterDots_gram_other hx hy fun hl => ?_
  obtain ⟨p, -, hlo, hhi, -⟩ := lands_placesDots hl
  omega

end Sys2Proof.Machine
end

section
/-! PROOF. STAT.RD and STAT.CLR: the byte STATUS reads as, bit by bit (45_status.md R210, R211, 10_state.md R25). -/

namespace Sys2Proof.Machine

theorem exec_statRd (s : State) : exec .statRd s = .next (s.giveResult (.byte (statusRead s))) := rfl

theorem exec_statClr (s : State) : exec .statClr s = .next (clearStatus s) := rfl

theorem statusRead_getLsbD (s : State) (j : Nat) :
    (statusRead s).getLsbD j = (s.status.getLsbD j && decide (j = 0)) := by
  simp [statusRead, BitVec.getLsbD_one]

/-- The masks of bit 0 and of the reserved bits 7..1 cover the byte. -/
theorem statusRead_of_reserved {s : State} (h : s.status &&& 0xFE#8 = 0#8) : statusRead s = s.status := by
  calc s.status &&& 0x01#8
      = (s.status &&& 0x01#8) ||| (s.status &&& 0xFE#8) := by rw [h, BitVec.or_zero]
    _ = s.status &&& (0x01#8 ||| 0xFE#8) := (BitVec.and_or_distrib_left).symm
    _ = s.status := BitVec.and_allOnes

/-- Settles O49: STAT.RD gives `statusRead`, whose bits are those of STATUS under the mask of bit 0, and STAT.CLR is
`clearStatus`. -/
theorem statusReadsAndClears : Obligations.StatusReadsAndClears := by
  intro s
  refine ⟨⟨statusRead s, exec_statRd s, ?_, fun j hj => ?_, statusRead_of_reserved⟩, exec_statClr s⟩
  · rw [statusRead_getLsbD, decide_eq_true rfl, Bool.and_true]
  · rw [statusRead_getLsbD, decide_eq_false (Nat.ne_of_gt hj), Bool.and_false]

end Sys2Proof.Machine
end

section
/-! PROOF. How an operation and a block stop: what a fault and a refusal leave of the state, and the step of a stopped
block (60_exceptions.md R220 to R222, R229). -/

namespace Sys2Proof.Machine

theorem refuse_ne_fault (q : RefusalReason) (s : State) (e : Fault) : refuse q s ≠ .fault e := nofun

/-- A sequence faults in its first part, or in its second after the first completed. -/
theorem andThen_eq_fault {r : Result} {f : State → Result} {e : Fault} (h : andThen r f = .fault e) :
    r = .fault e ∨ ∃ t, r = .next t ∧ f t = .fault e := by
  cases r with
  | next t => exact .inr ⟨t, rfl, h⟩
  | fault e' => exact .inl h
  | refused e' => simp at h

/-- Each way to a fault is one of `Works`: the touch side faults before its first move, and DISP.INIT while it sends its
pairs, before it writes S.initDone. -/
theorem ExecShape.fault {i : Instr} {s : State} {e : Fault} {r : Result} (h : ExecShape i s r) (hr : r = .fault e) :
    Works TextMove s (.fault e) := by
  cases h with
  | refused q _ => exact absurd hr (refuse_ne_fault q s e)
  | beforeInit _ _ => exact absurd hr (refuse_ne_fault _ s e)
  | touch _ _ _ _ hw =>
    rcases hw with ⟨t, -, rfl⟩ | ⟨f, rfl⟩
    · simp at hr
    · exact hr ▸ .raise f .refl
  | clear _ => simp at hr
  | display _ _ _ _ hw => exact hr ▸ hw.mono .display
  | text _ _ hw => exact hr ▸ hw
  | init _ =>
    rcases andThen_eq_fault hr with hs | ⟨u, -, hu⟩
    · exact hs ▸ (sendInit_works s.cfg.initSeq s).mono .display
    · simp at hu

/-- 60_exceptions.md R220: a fault sets S.fault in a state that the display cycles and STATUS.GLYPH have reached. -/
theorem exec_eq_fault {i : Instr} {s : State} {e : Fault} (h : exec i s = .fault e) :
    ∃ r u, Moves TextMove s u ∧ e = Fault.of r (u.setFault r) :=
  (exec_shape i s).fault h

/-- Settles O58: the moves before the fault only add events and leave the control state (`TextMoves.growsQuietly`,
`TextMoves.sameButText`), and raising it writes S.fault alone. -/
theorem faultsKeepEarlierEvents : Obligations.FaultsKeepEarlierEvents := by
  intro i s e h
  obtain ⟨r, u, hm, he⟩ := exec_eq_fault h
  obtain ⟨new, hnew, -⟩ := TextMoves.growsQuietly hm
  obtain ⟨⟨hcfg, hpending, hk, -, hrefused⟩, hinit, hreturned, -⟩ := TextMoves.sameButText hm
  exact ⟨r, u.setFault r, he, rfl, ⟨new, hnew⟩, hcfg, hpending, hk, hrefused, hinit, hreturned⟩

/-- Settles O59: every refusal is `refuse` in the state the operation started in (`exec_eq_refused`). -/
theorem refusalsChangeNothing : Obligations.RefusalsChangeNothing := by
  intro i s e h
  obtain ⟨q, he, -⟩ := exec_eq_refused h
  exact ⟨q, he⟩

/-- Settles O9: a step looks at S.fault first, then at S.refused, before any word. -/
theorem stoppedBlockTakesNoStep : Obligations.StoppedBlockTakesNoStep :=
  ⟨fun _ _ => step_of_fault, fun _ _ => step_of_refused⟩

end Sys2Proof.Machine
end

section
/-! PROOF. The state after reset (70_reset_and_hazards.md R241, R242), and how many events each operation that completes
has emitted (R260): in-bounds points counted over rectangles, and the counts of the shared operations put together. -/

namespace Sys2Proof.Machine

open Claims

/-! ### The state after reset -/

theorem belowOrUnset_none (bound : Nat) : belowOrUnset bound none := nofun

/-- Settles O51: the configuration is valid whatever is installed (`Config.hardware_valid`), the memories are empty and
every window and cursor field is ⊥. -/
theorem invariantHoldsAtReset : Obligations.InvariantHoldsAtReset where
  cfgValid := Config.hardware_valid
  regWf := reset_memories_wf.1
  gramWf := reset_memories_wf.2
  hsaOnPanel := belowOrUnset_none WIDTH
  heaOnPanel := belowOrUnset_none WIDTH
  vsaOnPanel := belowOrUnset_none HEIGHT
  veaOnPanel := belowOrUnset_none HEIGHT
  cxOnPanel := belowOrUnset_none WIDTH
  cyOnPanel := belowOrUnset_none HEIGHT
  statusReserved := rfl

/-- Settles O52: each field of the blank state as written; a register and a cell are read from an empty memory. -/
theorem resetState : Obligations.ResetState :=
  ⟨rfl, rfl, rfl, rfl, rfl, rfl, rfl, rfl, fun _ => rfl, rfl, rfl, rfl, rfl, rfl, rfl, fun _ _ => rfl⟩

/-! ### In-bounds points of rectangles -/

theorem inBoundsCount_append (ps qs : List (Int × Int)) :
    inBoundsCount (ps ++ qs) = inBoundsCount ps + inBoundsCount qs := by
  rw [inBoundsCount, List.filter_append, List.length_append]
  rfl

theorem rectangle_add_height (x y : Int) (width m n : Nat) :
    rectangle x y width (m + n) = rectangle x y width m ++ rectangle x (y + m) width n := by
  simp only [rectangle, List.range_add, List.flatMap_append, List.flatMap_map, Nat.cast_add, add_assoc]

theorem rectangle_one_add_width (x y : Int) (m n : Nat) :
    rectangle x y (m + n) 1 = rectangle x y m 1 ++ rectangle (x + m) y n 1 := by
  simp [rectangle, List.range_add, Function.comp_def, add_assoc]

/-- Two rectangles side by side, row by row. -/
theorem inBoundsCount_rectangle_add_width (x y : Int) (m n height : Nat) :
    inBoundsCount (rectangle x y (m + n) height) =
      inBoundsCount (rectangle x y m height) + inBoundsCount (rectangle (x + m) y n height) := by
  induction height with
  | zero => rfl
  | succ height ih =>
    simp only [rectangle_add_height, rectangle_one_add_width, inBoundsCount_append, ih]
    omega

/-- A count that starts at 0 and grows by `G k` over the `k`-th of `n` steps of one size. -/
theorem eq_sum_of_steps {F G : Nat → Nat} {size : Nat} (h0 : F 0 = 0)
    (hstep : ∀ k, F (k * size + size) = F (k * size) + G k) (n : Nat) :
    F (n * size) = ((List.range n).map G).sum := by
  induction n with
  | zero => rw [Nat.zero_mul, h0, List.range_zero, List.map_nil, List.sum_nil]
  | succ n ih =>
    rw [Nat.succ_mul, hstep, ih, List.range_succ, List.map_append, List.sum_append, List.map_singleton,
      List.sum_singleton]

/-- A rectangle cut into `n` columns of one width. -/
theorem inBoundsCount_rectangle_columns (x y : Int) (width height n : Nat) :
    inBoundsCount (rectangle x y (n * width) height) =
      ((List.range n).map fun (k : Nat) =>
        inBoundsCount (rectangle (x + (k : Int) * (width : Int)) y width height)).sum := by
  refine eq_sum_of_steps (F := fun width => inBoundsCount (rectangle x y width height)) ?_ (fun k => ?_) n
  · simp [rectangle, inBoundsCount]
  · rw [inBoundsCount_rectangle_add_width, Nat.cast_mul]

/-- A rectangle cut into `n` bands of one height. -/
theorem inBoundsCount_rectangle_bands (x y : Int) (width height n : Nat) :
    inBoundsCount (rectangle x y width (n * height)) =
      ((List.range n).map fun (r : Nat) =>
        inBoundsCount (rectangle x (y + (r : Int) * (height : Int)) width height)).sum := by
  refine eq_sum_of_steps (F := fun height => inBoundsCount (rectangle x y width height)) rfl (fun r => ?_) n
  rw [rectangle_add_height, inBoundsCount_append, Nat.cast_mul]

/-! ### In-bounds calls -/

theorem length_dotsInBounds_dotsOf (color : Color) (points : List (Int × Int)) :
    (dotsInBounds (dotsOf color points)).length = inBoundsCount points := by
  rw [dotsInBounds, dotsOf, List.filter_map, List.length_map]
  rfl

theorem length_dotsInBounds_flatMap {α : Type} (as : List α) (f : α → List Dot) :
    (dotsInBounds (as.flatMap f)).length = (as.map fun a => (dotsInBounds (f a)).length).sum := by
  rw [dotsInBounds, List.filter_flatMap, List.length_flatMap]
  rfl

/-- 43_raster.md R174: the points of a block are those of its square, in the same order. -/
theorem blockPoints_eq_rectangle (x y : Int) (scale : Nat) : blockPoints x y scale = rectangle x y scale scale := rfl

theorem length_dotsInBounds_blockDots (x y : Int) (color : Color) (scale : Nat) :
    (dotsInBounds (blockDots x y color scale)).length = inBoundsCount (rectangle x y scale scale) := by
  rw [blockDots, length_dotsInBounds_dotsOf, blockPoints_eq_rectangle]

/-- 44_text.md R192: the blocks of a character are its rectangle, cut into eight bands of five columns each. -/
theorem length_dotsInBounds_charDots (c : Config) (x y : Int) (scale : Nat) (fg bg : Color) (ch : Byte) :
    (dotsInBounds (charDots c x y scale fg bg ch)).length = inBoundsCount (rectangle x y (5 * scale) (8 * scale)) := by
  simp only [charDots, length_dotsInBounds_flatMap, length_dotsInBounds_blockDots, inBoundsCount_rectangle_bands,
    inBoundsCount_rectangle_columns]

/-! ### The events of single operations -/

theorem drawDots_singleton (d : Dot) (s : State) : drawDots [d] s = drawDot d s := by
  rw [drawDots]
  cases drawDot d s <;> rfl

theorem dotsOf_emits (color : Color) (points : List (Int × Int)) (s : State) :
    Emits (98 * inBoundsCount points) s (drawDots (dotsOf color points) s) := by
  have h := drawDots_emits (dotsOf color points) s
  rwa [length_dotsInBounds_dotsOf] at h

theorem charEventCount_eq (c : Config) (x y : Int) (scale : Nat) (fg bg : Word) (ch : Byte) :
    charEventCount c x y scale ch =
      if inFont c ch then 98 * (dotsInBounds (charDots c x y scale fg bg ch)).length else 0 := by
  rw [charEventCount, length_dotsInBounds_charDots]
  simp only [inFont_iff]

theorem drawChar_emits_charEventCount (x y : Int) (scale : Nat) (fg bg : Word) (ch : Byte) (s : State) :
    Emits (charEventCount s.cfg x y scale ch) s (drawChar x y scale fg bg ch s) := by
  rw [charEventCount_eq]
  exact drawChar_emits x y scale fg bg ch s

theorem drawPlaces_emits_placesEventCount (x y : Int) (scale : Nat) (fg bg : Word) (places : List (Byte × Nat))
    (s : State) :
    Emits (placesEventCount s.cfg x y scale places) s (drawPlaces x y scale fg bg (places.map Prod.swap) s) := by
  have h := drawPlaces_emits x y scale fg bg (places.map Prod.swap) s
  rw [List.map_map] at h
  simp only [placesEventCount, charEventCount_eq _ _ _ _ fg bg]
  exact h

/-- 41_touch.md R121: 48 events of the command, four of each gap pulse and 60 of the data. -/
theorem length_conversionEvents (gap : Nat) (cmd : Byte) : (conversionEvents gap cmd).length = 108 + 4 * gap := by
  simp [conversionEvents, commandEvents, dataEvents, pulseEvents]
  omega

/-- 41_touch.md R123: two conversions between chip-select 0 and 1, each with a settle delay. -/
theorem touchReadpos_emits (s : State) : Emits (220 + 8 * s.cfg.touchGapClocks) s (exec .touchReadpos s) := by
  by_cases hclk : s.lines.tClk = some 0#1
  · obtain ⟨rx, ry, -, -, hnext⟩ := (readPositionReturnsBothChannels s).1 hclk
    rw [hnext]
    refine .next rfl ?_
    simp [length_conversionEvents]
    omega
  · rw [exec_touchReadpos_of_clock hclk]
    exact .raise _ _ s s

theorem touchReadch_emits (cmd : Byte) (s : State) :
    Emits (108 + 4 * s.cfg.touchGapClocks) s (exec (.touchReadch cmd) s) := by
  by_cases hcmd : cmd = 0x90 ∨ cmd = 0xD0
  · rw [exec_touchReadch_of_command hcmd]
    exact convertSelected_emits cmd s
  · rw [not_or] at hcmd
    rw [exec_touchReadch_of_not_command hcmd.1 hcmd.2]
    exact .refuse _ _ s s

theorem dispInit_emits (s : State) : Emits (7 * (2 * s.cfg.initSeq.length)) s (exec .dispInit s) := by
  rw [← Nat.mul_assoc]
  exact (sendInit_emits s.cfg.initSeq s).andThen (n := 0) fun t _ => .next (t := t.setInitDone true) rfl rfl

/-- 42_display.md R143: setWindow and a pixel for each cell, 76 813 cycles. -/
theorem dispFill_emits (color : Word) (s : State) : Emits (7 * 76813) s (exec (.dispFill color) s) := by
  rw [exec, execDispFill]
  exact .whenInitialised ((setWindow_emits _ _ _ _ s).andThen fun t _ => repeatPixel_emits color (WIDTH * HEIGHT) t)

theorem dispWrreg_emits (addr value : Word) (s : State) : Emits (7 * 2) s (exec (.dispWrreg addr value) s) := by
  rw [exec, execDispWrreg]
  refine .whenInitialised ?_
  split
  · exact writeReg_emits false addr value s
  · exact .refuse _ _ s s

/-- The table of R260, operation by operation. -/
theorem exec_emits (i : Instr) (s : State) : Emits (eventCount s.cfg i) s (exec i s) := by
  cases i with
  | busWrcmd addr => exact cycle_emits false 0#1 addr s
  | busWrdata value => exact dataCycle_emits value s
  | busRdbit => exact .next rfl rfl
  | busSetclk level => exact .next rfl rfl
  | busSetcs level => exact .next rfl rfl
  | busSetdin level => exact .next rfl rfl
  | busRdpen => exact .next rfl rfl
  | busSettle => exact .next rfl rfl
  | touchStart => exact .next rfl rfl
  | touchReadch cmd => exact touchReadch_emits cmd s
  | touchReadpos => exact touchReadpos_emits s
  | touchPen => exact .next rfl rfl
  | touchCal rx ry => exact .next rfl rfl
  | dispInit => exact dispInit_emits s
  | dispWrreg addr value => exact dispWrreg_emits addr value s
  | dispSetwin x1 y1 x2 y2 => exact .whenInitialised (setWindow_emits x1 y1 x2 y2 s)
  | dispWrpix color => exact .whenInitialised (writePixel_emits color s)
  | dispFill color => exact dispFill_emits color s
  | rastPixel x y color =>
    have h := dotsOf_emits color [(x, y)] s
    exact .whenInitialised ((drawDots_singleton _ s) ▸ h)
  | rastLine x1 y1 x2 y2 color => exact .whenInitialised (dotsOf_emits color (linePoints x1 y1 x2 y2) s)
  | rastBlock x y color scale =>
    rw [eventCount, ← blockPoints_eq_rectangle]
    exact .whenInitialised (dotsOf_emits color (blockPoints x y scale) s)
  | textChar x y scale fg bg ch => exact .whenInitialised (drawChar_emits_charEventCount x y scale fg bg ch s)
  | textString x y scale fg bg text =>
    refine .whenInitialised ?_
    rw [stringPlaces, placesFrom_eq]
    exact drawPlaces_emits_placesEventCount x y scale fg bg _ s
  | textStrrev x y scale fg bg text =>
    refine .whenInitialised ?_
    rw [reversedPlaces_eq]
    exact drawPlaces_emits_placesEventCount x y scale fg bg _ s
  | statRd => exact .next rfl rfl
  | statClr => exact .next rfl rfl
  | buscycCmd d => exact cycle_emits false 0#1 d s
  | buscycData d => exact dataCycle_emits d s
  | tcmdY => exact convertSelected_emits TOUCH_CMD_Y s
  | tcmdX => exact convertSelected_emits TOUCH_CMD_X s

/-- Settles O60: the counts of the shared operations, and points counted over the rectangles of blocks and characters
(`blockPoints_eq_rectangle`, `length_dotsInBounds_charDots`). -/
theorem eventCounts : Obligations.EventCounts := fun i s t h => (exec_emits i s t h).2

end Sys2Proof.Machine
end
